-- ==== Sys2Proof/Word.lean ====
section
/-! DEFINITION. Word.lean: the word types of the compakt DSP block (00_scope.md R7, R11) and the Sample pair. -/

namespace Sys2Proof

/-- A 32-bit word: an instruction, a binary32 pattern, a host data word (20_memory.md R101, R109). -/
abbrev Word := BitVec 32

/-- One byte of the host bus space (20_memory.md R109: nominal byte order only). -/
abbrev Byte := BitVec 8

/-- The binary32 `+0.0`. -/
abbrev zeroW : Word := 0x00000000#32

/-- A Sample: a pair of binary32 values, left then right (00_scope.md R11, 10_state.md R51). -/
structure Sample where
  /-- left half, bits 31:0 of the pair -/
  l : Word
  /-- right half, bits 63:32 of the pair -/
  r : Word
deriving DecidableEq, Repr

/-- The Sample `(+0.0, +0.0)`. -/
def Sample.zero : Sample := ⟨zeroW, zeroW⟩

/-- A 3-bit register index, 0..7 (30_encoding.md R154). Its class, `S` or `F`, is fixed by the opcode. -/
abbrev RegIdx := BitVec 3

end Sys2Proof
end

