-- ==== Sys2Proof/Config.lean ====
section
/-! DEFINITION. Config.lean: the implementation parameters of 00_scope.md R5 with their defaults, the constraints a
configuration must meet, the host address map (20_memory.md R102) and the model's free values. A parameter is never
state (10_state.md R50). -/

namespace Sys2Proof.Config

/-- The parameters of 00_scope.md R5, each with the spec's default. Binary32 parameters are bit patterns. -/
structure Params where
  /-- `N`, FFT window size -/
  fftN : Nat := 1024
  /-- `H`, hop size -/
  hop : Nat := 256
  /-- `CHANS`, audio channels -/
  chans : Nat := 2
  /-- `DLY_LEN`, Delay ring length in frames -/
  dlyLen : Nat := 96000
  /-- `COMB_LEN`, Comb ring length in frames -/
  combLen : Nat := 4800
  /-- `PROG_LEN`, program memory words -/
  progLen : Nat := 256
  /-- `NPARAM`, user parameter words -/
  nparam : Nat := 64
  /-- `BUF_CAP`, buffer memory capacity in words -/
  bufCap : Nat := 262144
  /-- `RATE_RESET` = 48000.0 -/
  rateReset : Word := 0x473B8000#32
  /-- `ENV_ALPHA` = RN(0.9) -/
  envAlpha : Word := 0x3F666666#32
  /-- `R_RESET` = 4.0 -/
  rReset : Word := 0x40800000#32
  /-- `RANGE_MAX` = 16.0 -/
  rangeMax : Word := 0x41800000#32
  /-- `BQ_FMIN` = 1.0 -/
  bqFmin : Word := 0x3F800000#32
  /-- `BQ_FMAXR` = 0.49, an exact fraction `(numerator, denominator)`: 44_effects.md R440 uses its `RN` -/
  bqFmaxR : Int × Nat := (49, 100)
  /-- `BQ_QMIN` = RN(0.01) -/
  bqQmin : Word := 0x3C23D70A#32
  /-- `BQ_QMAX` = 1000.0 -/
  bqQmax : Word := 0x447A0000#32
  /-- `RATE_MIN` = 1.0 -/
  rateMin : Word := 0x3F800000#32
  /-- `RATE_MAX` = 1000000.0 -/
  rateMax : Word := 0x49742400#32
deriving DecidableEq, Repr

/-- The pattern of a binary32 that is greater than zero, `+inf` among them. -/
def positiveF (w : Word) : Bool := 0 < w.toNat && w.toNat ≤ 0x7F800000

/-- `n` is a power of two. -/
def isPow2 (n : Nat) : Bool := n != 0 && 2 ^ n.log2 == n

/-- The fraction is less than 0.5. -/
def belowHalf (q : Int × Nat) : Bool := 0 < q.2 && 2 * q.1 < q.2

/-- The constraints column of the table of 00_scope.md R5, row by row. A row whose constraint is only "binary32" admits
every pattern; `NB`, `RING` and `OVL` are derived and have none. -/
def Params.valid (p : Params) : Bool :=
  isPow2 p.fftN && 8 ≤ p.fftN
    && 1 ≤ p.hop && p.fftN % p.hop == 0 && p.hop < p.fftN
    && p.chans == 2
    && 2 ≤ p.dlyLen && 2 ≤ p.combLen
    && 1 ≤ p.progLen && p.progLen ≤ 65536 && p.nparam ≤ 65536 && 2 ≤ p.bufCap
    && positiveF p.rangeMax && positiveF p.bqFmin && belowHalf p.bqFmaxR && positiveF p.bqQmin

/-- 00_scope.md R5: "a configuration that violates it is refused". -/
def Params.check (p : Params) : Option Params := if p.valid then some p else none

/-- The configuration of this model: every parameter at the spec's default (DESIGN CHOICE, assumption 20). -/
def params : Params := {}

/-- `N` (00_scope.md R5). -/
def fftN : Nat := params.fftN
/-- `H` (00_scope.md R5). -/
def hop : Nat := params.hop
/-- `NB = N/2 + 1`, the bins processed (00_scope.md R5). -/
def numBins : Nat := fftN / 2 + 1
/-- `RING = 2N` (00_scope.md R5). -/
def ringLen : Nat := 2 * fftN
/-- `OVL = N/H`, the windows overlapping each sample (00_scope.md R5, 90_conflicts.md C4). -/
def overlap : Nat := fftN / hop
/-- `CHANS` (00_scope.md R5). -/
def chans : Nat := params.chans
/-- `DLY_LEN` (00_scope.md R5). -/
def dlyLen : Nat := params.dlyLen
/-- `COMB_LEN` (00_scope.md R5). -/
def combLen : Nat := params.combLen
/-- `PROG_LEN` (00_scope.md R5). -/
def progLen : Nat := params.progLen
/-- `NPARAM` (00_scope.md R5). -/
def nparam : Nat := params.nparam
/-- `BUF_CAP` (00_scope.md R5). -/
def bufCap : Nat := params.bufCap

/-- ID register constant "CMPK" (10_state.md R60). -/
def idConst : Word := 0x434D504B#32

/-- VERSION register: edition 1, `log2 N`, `log2 H` (10_state.md R61). -/
def versionConst : Word := BitVec.ofNat 32 (0x10000 + fftN.log2 * 256 + hop.log2)

/-! ## Host address map (20_memory.md R102), byte addresses -/

/-- First byte of `SHADOW.P`. -/
def paramBase : Nat := 0x20000
/-- First byte of `PMEM`. -/
def pmemBase : Nat := 0x40000
/-- First byte of `ENV`. -/
def envBase : Nat := 0x80000
/-- First byte of `BUFMEM`. -/
def bufBase : Nat := 0x100000

/-- Byte address `a` lies in `PMEM`. -/
def inPmem (a : Nat) : Bool := pmemBase ≤ a && a < pmemBase + 4 * progLen
/-- Byte address `a` lies in `BUFMEM`. -/
def inBuf (a : Nat) : Bool := bufBase ≤ a && a < bufBase + 4 * bufCap

/-! ## Free values -/

/-- FREE VALUE. What byte `addr` of `BUFMEM` holds after the `draw`-th power-on reset and before anything writes it:
10_state.md R88 and 93_implementation_defined.md row 1 leave every word unspecified, "any value". -/
opaque bufPowerOn (draw addr : Nat) : Byte

/-- FREE VALUE. The result of a function unit or of a ROM entry whose correct rounding the model's widest interval does
not decide (DESIGN CHOICE, assumption 8). `unit` names the unit, `x` and `y` its operands. -/
opaque undecidedRounding (unit : Nat) (x y : Word) : Word

end Sys2Proof.Config
end

