-- ==== Sys2Proof/Machine/State.lean ====
section
/-! DEFINITION. State.lean: every piece of state of 10_state.md R50 as plain data, the model's own few fields (marked
MODEL), the machine's stops, and the state after power-on reset (70_reset_and_hazards.md R551, R553). -/

namespace Sys2Proof.Machine

/-- A word array of a unit (a ring, a spectral array, the parameter words): the entries that are not `0x00000000`, by
strictly rising index. An index not listed holds `+0.0`, the reset value of every such array (10_state.md R86-R92). -/
abbrev Cells := List (Nat × Word)

/-- What the bytes of `BUFMEM` that nothing has written hold. -/
inductive BufFill where
  /-- the unspecified power-on content (10_state.md R88); `draw` counts the power-on resets before it -/
  | powerOn (draw : Nat)
  /-- zero, after CTRL.BUF_INIT (41_buffer.md R280) -/
  | zero
deriving DecidableEq, Repr

/-- The memories of the host bus space that hold bytes, `PMEM` and `BUFMEM` (20_memory.md R102), by host byte address.
`cells` lists, strictly rising, the bytes that differ from what an unlisted address reads as (Machine/Memory.lean). -/
structure Memory where
  /-- the listed bytes -/
  cells : List Host.Cell
  /-- what the rest of `BUFMEM` holds -/
  fill : BufFill
deriving DecidableEq, Repr

/-- One copy, SHADOW or LIVE, of the shadowed registers (10_state.md R58, R59) and of `P` (R86). -/
structure Params where
  /-- RATE, R72 -/
  rate : Word
  /-- BUF_LEN, R73 -/
  bufLen : Word
  /-- BUF_CHANS, R74 -/
  bufChans : BitVec 2
  /-- BUF_RATE, R75 -/
  bufRate : Word
  /-- DLY_TIME, R76 -/
  dlyTime : Word
  /-- DLY_MIX, R77 -/
  dlyMix : Word
  /-- COMB_TIME, R78 -/
  combTime : Word
  /-- BQ_MODE, R79 -/
  bqMode : BitVec 2
  /-- BQ_FREQ, R80 -/
  bqFreq : Word
  /-- BQ_Q, R81 -/
  bqQ : Word
  /-- STFT_CTRL, R82 -/
  stftCtrl : Word
  /-- STFT_RANGE, R83 -/
  stftRange : Word
  /-- `P[0..NPARAM-1]`, R86 -/
  p : Cells
deriving DecidableEq, Repr

/-- The Biquad coefficient registers BQ_B0..BQ_A2 (10_state.md R84). -/
structure BqCoef where
  /-- BQ_B0 -/
  b0 : Word
  /-- BQ_B1 -/
  b1 : Word
  /-- BQ_B2 -/
  b2 : Word
  /-- BQ_A1 -/
  a1 : Word
  /-- BQ_A2 -/
  a2 : Word
deriving DecidableEq, Repr

/-- The Biquad history of one channel (10_state.md R93). -/
structure BqHist where
  /-- `BX1` -/
  x1 : Word
  /-- `BX2` -/
  x2 : Word
  /-- `BY1` -/
  y1 : Word
  /-- `BY2` -/
  y2 : Word
deriving DecidableEq, Repr

/-- A ring unit with one cursor for both channels: `DRING`/`dw` (10_state.md R91) or `CRING`/`cw` (R92). -/
structure RingUnit where
  /-- channel 0 (left) -/
  l : Cells
  /-- channel 1 (right) -/
  r : Cells
  /-- the write cursor -/
  w : Nat
deriving DecidableEq, Repr

/-- The STFT state of one channel (10_state.md R89, R90). -/
structure StftChan where
  /-- `HIST`, the input-history ring -/
  hist : Cells
  /-- `OUT`, the output accumulation ring -/
  out : Cells
  /-- `ANA_PH` -/
  anaPh : Cells
  /-- `ANA_MAG` -/
  anaMag : Cells
  /-- `ANA_FRQ` -/
  anaFrq : Cells
  /-- `SYN_PH` -/
  synPh : Cells
  /-- `SYN_MAG` -/
  synMag : Cells
  /-- `SYN_FRQ` -/
  synFrq : Cells
  /-- `ENV`, the smoothed magnitude envelope -/
  env : Cells
deriving DecidableEq, Repr

/-- The STFT unit (10_state.md R89). -/
structure Stft where
  /-- channel 0 (left) -/
  l : StftChan
  /-- channel 1 (right) -/
  r : StftChan
  /-- history write cursor -/
  hw : Nat
  /-- output read cursor -/
  orr : Nat
  /-- output-ring write cursor -/
  ow : Nat
  /-- invocations since the last shift step -/
  hc : Nat
deriving DecidableEq, Repr

/-- MODEL. What the world outside offers the block, one entry a step: the audio driver's calls (42_engine.md R300,
R302), the host agents' bus accesses (20_memory.md R101) and the `rst` input (70_reset_and_hazards.md R550). -/
inductive Input where
  /-- BlockStart(F), 42_engine.md R300 -/
  | blockStart (frames : BitVec 32)
  /-- the opening of FrameStep(xin), 42_engine.md R302 -/
  | frame (x : Sample)
  /-- HostRead(a), 20_memory.md R101 -/
  | hostRead (addr : Word)
  /-- HostWrite(a, data), 20_memory.md R101 -/
  | hostWrite (addr data : Word)
  /-- power-on reset, 70_reset_and_hazards.md R551 -/
  | powerOn
deriving DecidableEq, Repr

/-- MODEL. What the block answers to the world outside. -/
inductive Output where
  /-- a frame's output Sample `yout` (42_engine.md R302) -/
  | frame (y : Sample)
  /-- a HostRead's `(data32, ok)` -/
  | readResp (data : Word) (ok : Bool)
  /-- a HostWrite's `ok` -/
  | writeResp (ok : Bool)
deriving DecidableEq, Repr

/-- The state of the block (10_state.md R50). -/
structure State where
  /-- `S[0..7]`, R51 -/
  sreg : Vector Sample 8
  /-- `F[0..7]`, R53 -/
  freg : Vector Word 8
  /-- `OACC`, R54 -/
  oacc : Sample
  /-- `pc`, R55: 17 bits wide -/
  pc : BitVec 17
  /-- `IN_BLOCK`, R56 -/
  inBlock : Bool
  /-- `BLK_RUN`, R56; reads as STATUS.ACTIVE -/
  blkRun : Bool
  /-- `BLK_F`, R56 -/
  blkF : BitVec 32
  /-- `POS`, R56 -/
  pos : BitVec 32
  /-- `FFLAGS`, R57 -/
  fflags : BitVec 5
  /-- CTRL.RUN, R62 (SRST and BUF_INIT are triggers that read 0) -/
  ctrlRun : Bool
  /-- STATUS.FAULT, R63 -/
  fault : Bool
  /-- STATUS.BUSERR, R63 -/
  busErr : Bool
  /-- FAULT_CAUSE, R64 -/
  faultCause : BitVec 8
  /-- FAULT_PC, R65 -/
  faultPc : BitVec 17
  /-- FAULT_INSN, R66 -/
  faultInsn : Word
  /-- IRQ_EN, R67: bit 0 FAULT_EN, bit 1 BUSERR_EN -/
  irqEn : BitVec 2
  /-- FRAME_CNT, R69 -/
  frameCnt : BitVec 32
  /-- BLOCK_CNT, R70 -/
  blockCnt : BitVec 32
  /-- HOP_CNT, R71 -/
  hopCnt : BitVec 32
  /-- the SHADOW copies, R58 -/
  shadow : Params
  /-- the LIVE copies, R58 -/
  live : Params
  /-- BQ_B0..BQ_A2, R84 -/
  bqCoef : BqCoef
  /-- DLY_FRAMES, R85 -/
  dlyFrames : BitVec 32
  /-- COMB_FRAMES, R85 -/
  combFrames : BitVec 32
  /-- `PMEM` (R87) and `BUFMEM` (R88) -/
  mem : Memory
  /-- the STFT unit, R89, R90 -/
  stft : Stft
  /-- the Delay unit, R91 -/
  dly : RingUnit
  /-- the Comb unit, R92 -/
  comb : RingUnit
  /-- Biquad history, channel 0, R93 -/
  bqL : BqHist
  /-- Biquad history, channel 1, R93 -/
  bqR : BqHist
  /-- MODEL: a frame step is in progress and the next step fetches at `pc` (DESIGN CHOICE, assumption 1) -/
  inFrame : Bool
  /-- MODEL: the power-on resets so far; it numbers the draws of the unspecified `BUFMEM` content (DESIGN CHOICE, assumption 5) -/
  draws : Nat
  /-- MODEL: what the world outside offers, next first (DESIGN CHOICE, assumption 2) -/
  inputs : List Input
  /-- MODEL: what the block has answered, latest first (DESIGN CHOICE, assumption 3) -/
  emitted : List Output
deriving DecidableEq, Repr

/-- Why the machine stops. Raised only by the step's input handling, never by an instruction: the spec's own faults
(60_exceptions.md R500) and bus errors (R510) are next states. Safe: the spec does not enable these steps. -/
inductive Fault where
  /-- the driver offers BlockStart while a block is open (42_engine.md R300: enabled only when `IN_BLOCK = 0`). Safe. -/
  | blockStartNotEnabled
  /-- the driver offers a frame outside a block or past its last frame (42_engine.md R302: enabled only when
  `IN_BLOCK = 1` and `POS < BLK_F`). Safe. -/
  | frameNotEnabled
deriving DecidableEq, Repr

/-- Why an instruction has no meaning. -/
inductive Refusal where
  /-- raised by an arm of exec whose instruction is not modelled; no arm is. Safe. -/
  | notModelled (mnemonic : String)
deriving DecidableEq, Repr

/-- The reset value of both copies of the shadowed registers (10_state.md R72-R86, 70_reset_and_hazards.md R553). -/
def Params.reset : Params where
  rate := Config.params.rateReset
  bufLen := 0
  bufChans := 2
  bufRate := Config.params.rateReset
  dlyTime := 0x3E800000#32
  dlyMix := 0
  combTime := 0x3C23D70A#32
  bqMode := 0
  bqFreq := 0x447A0000#32
  bqQ := 0x3F800000#32
  stftCtrl := 0
  stftRange := Config.params.rReset
  p := []

/-- The reset value of BQ_B0..BQ_A2 (44_effects.md R441, 70_reset_and_hazards.md R553; DEDUCED, assumption 19). -/
def BqCoef.reset : BqCoef where
  b0 := 0x3B839466#32
  b1 := 0x3C039466#32
  b2 := 0x3B839466#32
  a1 := 0xBFEE42A1#32
  a2 := 0x3F60A1E7#32

/-- The reset value of a Biquad history (10_state.md R93). -/
def BqHist.reset : BqHist := ⟨zeroW, zeroW, zeroW, zeroW⟩

/-- The reset value of a Delay or Comb unit (10_state.md R91, R92). -/
def RingUnit.reset : RingUnit := ⟨[], [], 0⟩

/-- The reset value of one channel of the STFT unit (10_state.md R89, R90). -/
def StftChan.reset : StftChan := ⟨[], [], [], [], [], [], [], [], []⟩

/-- The reset value of the STFT unit: every cursor 0 but `ow = H` (10_state.md R89). -/
def Stft.reset : Stft := ⟨StftChan.reset, StftChan.reset, 0, 0, Config.hop, 0⟩

/-- The machine right after power-on reset (70_reset_and_hazards.md R551, R553): `PMEM` all END, `BUFMEM` unspecified.
The MODEL fields are as assumptions 1, 2, 3 and 5 say (DESIGN CHOICE). -/
def State.reset : State where
  sreg := Vector.replicate 8 Sample.zero
  freg := Vector.replicate 8 zeroW
  oacc := Sample.zero
  pc := 0
  inBlock := false
  blkRun := false
  blkF := 0
  pos := 0
  fflags := 0
  ctrlRun := false
  fault := false
  busErr := false
  faultCause := 0
  faultPc := 0
  faultInsn := 0
  irqEn := 0
  frameCnt := 0
  blockCnt := 0
  hopCnt := 0
  shadow := Params.reset
  live := Params.reset
  bqCoef := BqCoef.reset
  dlyFrames := 12000
  combFrames := 480
  mem := ⟨[], .powerOn 0⟩
  stft := Stft.reset
  dly := RingUnit.reset
  comb := RingUnit.reset
  bqL := BqHist.reset
  bqR := BqHist.reset
  inFrame := false
  draws := 0
  inputs := []
  emitted := []

end Sys2Proof.Machine
end

