-- ==== Sys2Proof/Machine/Flags.lean ====
section
/-! DEFINITION. Flags.lean: the five sticky floating-point flags of FFLAGS (10_state.md R57) and their accrual
(40_sample_arith.md R208). -/

namespace Sys2Proof.Machine

/-- A set of exceptions, laid out as FFLAGS (10_state.md R57). -/
abbrev FlagSet := BitVec 5

/-- no exception -/
def flagNone : FlagSet := 0b00000#5
/-- bit 0, inexact -/
def flagNX : FlagSet := 0b00001#5
/-- bit 1, underflow -/
def flagUF : FlagSet := 0b00010#5
/-- bit 2, overflow -/
def flagOF : FlagSet := 0b00100#5
/-- bit 3, division by zero -/
def flagDZ : FlagSet := 0b01000#5
/-- bit 4, invalid operation -/
def flagNV : FlagSet := 0b10000#5

/-- `f` if `c` holds, nothing otherwise. -/
def flagIf (c : Bool) (f : FlagSet) : FlagSet := if c then f else flagNone

/-- An instruction ORs the exceptions it signals into FFLAGS and clears none (10_state.md R57, 40_sample_arith.md
R208). -/
def State.accrue (s : State) (f : FlagSet) : State := { s with fflags := s.fflags ||| f }

/-- The host's write-1-to-clear of FFLAGS (10_state.md R57). -/
def State.clearFlags (s : State) (w : Word) : State := { s with fflags := s.fflags &&& ~~~(w.extractLsb' 0 5) }

end Sys2Proof.Machine
end

