-- ==== Sys2Proof/Machine/Float.lean ====
section
/-! DEFINITION. Float.lean: the binary32 datapath of 40_sample_arith.md sections 1 and 2: rounding (R201), the five
operations with their special cases (R202, R203), flags (R208), comparison (00_scope.md R12) and the conversions of
R207. A finite binary32 is handled as its exact value in units of 2^-149, an integer. -/

namespace Sys2Proof.Machine

/-- A binary32 result and the exceptions it signals. -/
structure FRes where
  /-- the result -/
  val : Word
  /-- the exceptions signalled -/
  flags : FlagSet
deriving DecidableEq, Repr

/-- Canonical NaN (40_sample_arith.md R203). -/
def canonNaN : Word := 0x7FC00000#32
/-- `+inf` -/
def posInf : Word := 0x7F800000#32
/-- `MAXF`, the largest finite binary32 (10_state.md R76). -/
def maxF : Word := 0x7F7FFFFF#32
/-- 1.0 -/
def oneF : Word := 0x3F800000#32
/-- 2.0 -/
def twoF : Word := 0x40000000#32
/-- -2.0 -/
def negTwoF : Word := 0xC0000000#32
/-- 0.5 -/
def halfF : Word := 0x3F000000#32
/-- -1.0 -/
def negOneF : Word := 0xBF800000#32

/-- The sign bit, bit 31 (20_memory.md R109). -/
def signBit (w : Word) : Bool := w.getLsbD 31
/-- The biased exponent, bits 30:23. -/
def expField (w : Word) : Nat := (w.extractLsb' 23 8).toNat
/-- The fraction, bits 22:0. -/
def fracField (w : Word) : Nat := (w.extractLsb' 0 23).toNat

/-- A NaN: exponent all ones, fraction not 0. -/
def isNaN (w : Word) : Bool := expField w == 255 && fracField w != 0
/-- A signalling NaN: fraction bit 22 is 0 (40_sample_arith.md R202). -/
def isSNaN (w : Word) : Bool := isNaN w && !w.getLsbD 22
/-- An infinity of either sign. -/
def isInf (w : Word) : Bool := expField w == 255 && fracField w == 0
/-- A zero of either sign. -/
def isZero (w : Word) : Bool := expField w == 0 && fracField w == 0
/-- Neither NaN nor infinity. -/
def isFinite (w : Word) : Bool := expField w != 255

/-- The word with sign `neg` and the magnitude bits of `m`. -/
def withSign (neg : Bool) (m : Word) : Word := if neg then 0x80000000#32 ||| m else m

/-- Magnitude of a finite binary32 in units of 2^-149: significand times `2^(max(exponent,1)-1)`; subnormals included
(40_sample_arith.md R204). -/
def magOf (w : Word) : Nat :=
  if expField w = 0 then fracField w else (2 ^ 23 + fracField w) * 2 ^ (expField w - 1)

/-- The exact value of a finite binary32 in units of 2^-149. -/
def fixOf (w : Word) : Int := if signBit w then -(magOf w : Int) else (magOf w : Int)

/-- One unit: `fixOf w / unit` is the exact value. -/
def fixUnit : Nat := 2 ^ 149

/-- The quotient `n / d` (with `0 < d`) to the nearest integer, ties to even. -/
def divNearestEven (n d : Nat) : Nat :=
  let k := n / d
  let rem := n % d
  if 2 * rem < d then k else if d < 2 * rem then k + 1 else k + k % 2

/-- `floor(log2 (n / d))` for `0 < n`, `0 < d`. -/
def ratLog2 (n d : Nat) : Int :=
  let e : Int := (n.log2 : Int) - (d.log2 : Int)
  let below : Bool := if 0 ≤ e then n < d * 2 ^ e.toNat else n * 2 ^ (-e).toNat < d
  if below then e - 1 else e

/-- `n / (d * 2^q)` as a fraction of naturals. -/
def scaleFrac (n d : Nat) (q : Int) : Nat × Nat :=
  if 0 ≤ q then (n, d * 2 ^ q.toNat) else (n * 2 ^ (-q).toNat, d)

/-- Tininess after rounding (40_sample_arith.md R208): `n/d` rounded to 24 significant bits with unbounded exponent has
magnitude below 2^-126. -/
def isTiny (n d : Nat) : Bool :=
  let e := ratLog2 n d
  if -126 ≤ e then false
  else if e < -127 then true
  else
    let s := scaleFrac n d (-150)
    divNearestEven s.1 s.2 < 2 ^ 24

/-- `RN` of the exact real `±n/d` with `0 < n`, `0 < d` (40_sample_arith.md R201), with the exceptions of R208. -/
def roundPos (neg : Bool) (n d : Nat) : FRes :=
  if d * (2 ^ 128 - 2 ^ 103) ≤ n then ⟨withSign neg posInf, flagOF ||| flagNX⟩
  else
    let q : Int := max (ratLog2 n d - 23) (-149)
    let s := scaleFrac n d q
    let k := divNearestEven s.1 s.2
    let inexact : Bool := s.1 % s.2 != 0
    ⟨withSign neg (BitVec.ofNat 32 ((q + 149).toNat * 2 ^ 23 + k)),
      flagIf inexact flagNX ||| flagIf (inexact && isTiny n d) flagUF⟩

/-- `RN` of the exact real `z/d`, `0 < d`; an exact zero gives `+0.0` (40_sample_arith.md R201; DEDUCED, assumption 7). -/
def roundFrac (z : Int) (d : Nat) : FRes :=
  if z = 0 then ⟨zeroW, flagNone⟩ else roundPos (z < 0) z.natAbs d

/-- The NaN result of an operation with a NaN operand: invalid only for a signalling NaN (40_sample_arith.md R202). -/
def nanResult (a b : Word) : FRes := ⟨canonNaN, flagIf (isSNaN a || isSNaN b) flagNV⟩

/-- An invalid operation (40_sample_arith.md R202). -/
def invalidResult : FRes := ⟨canonNaN, flagNV⟩

/-- `fneg`: flips bit 31 and nothing else (40_sample_arith.md R202). -/
def fneg (a : Word) : Word := a ^^^ 0x80000000#32

/-- `fadd` (40_sample_arith.md R201, R202). -/
def fadd (a b : Word) : FRes :=
  if isNaN a || isNaN b then nanResult a b
  else if isInf a then
    if isInf b && signBit a != signBit b then invalidResult else ⟨a, flagNone⟩
  else if isInf b then ⟨b, flagNone⟩
  else if fixOf a + fixOf b = 0 then
    ⟨withSign (isZero a && isZero b && signBit a && signBit b) zeroW, flagNone⟩
  else roundFrac (fixOf a + fixOf b) fixUnit

/-- `fsub`: IEEE subtraction is the addition of the negated operand, NaN signalling unchanged (40_sample_arith.md R201,
R202; DEDUCED, assumption 9). -/
def fsub (a b : Word) : FRes := fadd a (fneg b)

/-- The XOR of the operand signs, the sign of a product or quotient. -/
def signXor (a b : Word) : Bool := signBit a != signBit b

/-- `fmul` (40_sample_arith.md R201, R202). -/
def fmul (a b : Word) : FRes :=
  if isNaN a || isNaN b then nanResult a b
  else if isInf a || isInf b then
    if isZero a || isZero b then invalidResult else ⟨withSign (signXor a b) posInf, flagNone⟩
  else if isZero a || isZero b then ⟨withSign (signXor a b) zeroW, flagNone⟩
  else roundPos (signXor a b) (magOf a * magOf b) (fixUnit * fixUnit)

/-- `fdiv` (40_sample_arith.md R201, R202; DEDUCED, assumption 11, for an infinity over a zero). -/
def fdiv (a b : Word) : FRes :=
  if isNaN a || isNaN b then nanResult a b
  else if isInf a then
    if isInf b then invalidResult else ⟨withSign (signXor a b) posInf, flagNone⟩
  else if isInf b then ⟨withSign (signXor a b) zeroW, flagNone⟩
  else if isZero b then
    if isZero a then invalidResult else ⟨withSign (signXor a b) posInf, flagDZ⟩
  else if isZero a then ⟨withSign (signXor a b) zeroW, flagNone⟩
  else roundPos (signXor a b) (magOf a) (magOf b)

/-- Guard bits of the square root's integer root: the root of `m/2^149` is taken in units of `2^-(149+sqrtGuard/2)`. -/
def sqrtGuard : Nat := 202

/-- One Newton step of the integer square root, repeated while it decreases. -/
def isqrtLoop (n : Nat) : Nat → Nat → Nat
  | 0, x => x
  | fuel + 1, x =>
    let y := (x + n / x) / 2
    if y < x then isqrtLoop n fuel y else x

/-- `floor(sqrt n)`. -/
def isqrt (n : Nat) : Nat := if n = 0 then 0 else isqrtLoop n (n.log2 + 2) (2 ^ (n.log2 / 2 + 1))

/-- `fsqrt` (40_sample_arith.md R202). A root that is no integer multiple of the working unit lies strictly between two
of them, on the same side of every binary32 and every midpoint as the odd half unit between the two. -/
def fsqrt (a : Word) : FRes :=
  if isNaN a then nanResult a a
  else if isZero a then ⟨a, flagNone⟩
  else if signBit a then invalidResult
  else if isInf a then ⟨a, flagNone⟩
  else
    let n := magOf a * 2 ^ (149 + sqrtGuard)
    let k := isqrt n
    let k2 := if k * k = n then 2 * k else 2 * k + 1
    roundPos false k2 (2 * 2 ^ (149 + sqrtGuard / 2))

/-- `flt`: IEEE less-than, false when either operand is NaN (00_scope.md R12). The infinities order as the patterns'
magnitudes do, beyond every finite value. -/
def flt (a b : Word) : Bool := !isNaN a && !isNaN b && decide (fixOf a < fixOf b)

/-! ## Conversions (40_sample_arith.md R207), on finite values -/

/-- `floorZ v`: the greatest integer `<= v`. -/
def floorZ (v : Word) : Int := fixOf v / (fixUnit : Int)

/-- `truncZ v`: toward zero. -/
def truncZ (v : Word) : Int := (fixOf v).tdiv (fixUnit : Int)

/-- `roundHA v`: nearest integer, ties away from zero. -/
def roundHA (v : Word) : Int :=
  let m : Int := ((2 * magOf v + fixUnit) / (2 * fixUnit) : Nat)
  if signBit v then -m else m

/-- `toF k`: the exact conversion of a small natural (`k <= 2^24`). -/
def toF (k : Nat) : Word := (roundFrac k 1).val

/-! ## Clip and wrap (40_sample_arith.md R228, R229) -/

/-- `clip(x, lo, hi)` of R228: two comparisons and a selection, bits unchanged. -/
def clipF (x lo hi : Word) : Word := if flt x lo then lo else if flt hi x then hi else x

/-- `wrap(x, lo, hi)` of R229: exact reduction, one rounding. In units of 2^-149 the reduction
`(x - lo) - span * floor((x - lo)/span)` is the remainder of the division by `span`. -/
def wrapF (x lo hi : Word) : FRes :=
  if !isFinite x || !isFinite lo || !isFinite hi then invalidResult
  else if !flt lo hi then ⟨lo, flagNone⟩
  else roundFrac (fixOf lo + (fixOf x - fixOf lo) % (fixOf hi - fixOf lo)) fixUnit

end Sys2Proof.Machine
end

