-- ==== Sys2Proof/Syntax.lean ====
section
/-! DEFINITION. Syntax.lean: the instructions of spec/opcode_table.json, one constructor per row (30_encoding.md R156).
Register fields are 3-bit indices; the constructor's docstring gives each field's class (30_encoding.md R154). -/

namespace Sys2Proof

/-- The 36 instructions of 30_encoding.md R156, operands in the order of its operands column. -/
inductive Instr where
  /-- END, 42_engine.md R315 -/
  | endp
  /-- NOP, 42_engine.md R316 -/
  | nop
  /-- SKIPEV `imm16 = n`, 42_engine.md R318 -/
  | skipev (n : BitVec 16)
  /-- LDI `d:F, imm16`, 40_sample_arith.md R241 -/
  | ldi (d : RegIdx) (imm : BitVec 16)
  /-- LDP `d:F, imm16 = p`, 40_sample_arith.md R240 -/
  | ldp (d : RegIdx) (p : BitVec 16)
  /-- OUTADD `a:S`, 42_engine.md R321 -/
  | outadd (a : RegIdx)
  /-- SADD `d:S, a:S, b:S`, 40_sample_arith.md R220 -/
  | sadd (d a b : RegIdx)
  /-- SSUB `d:S, a:S, b:S`, 40_sample_arith.md R221 -/
  | ssub (d a b : RegIdx)
  /-- SMUL `d:S, a:S, b:S`, 40_sample_arith.md R222 -/
  | smul (d a b : RegIdx)
  /-- SDIV `d:S, a:S, b:S`, 40_sample_arith.md R223 -/
  | sdiv (d a b : RegIdx)
  /-- SADDF `d:S, a:S, b:F`, 40_sample_arith.md R224 -/
  | saddf (d a b : RegIdx)
  /-- SSUBF `d:S, a:S, b:F`, 40_sample_arith.md R225 -/
  | ssubf (d a b : RegIdx)
  /-- SMULF `d:S, a:S, b:F`, 40_sample_arith.md R226 -/
  | smulf (d a b : RegIdx)
  /-- SDIVF `d:S, a:S, b:F`, 40_sample_arith.md R227 -/
  | sdivf (d a b : RegIdx)
  /-- SCLIP `d:S, a:S, b:F (lo), c:F (hi)`, 40_sample_arith.md R228 -/
  | sclip (d a b c : RegIdx)
  /-- SWRAP `d:S, a:S, b:F (lo), c:F (hi)`, 40_sample_arith.md R229 -/
  | swrap (d a b c : RegIdx)
  /-- SLIN `d:S, a:S, b:S, c:F, e:F`, 40_sample_arith.md R230 -/
  | slin (d a b c e : RegIdx)
  /-- SMOV `d:S, a:S`, 40_sample_arith.md R231 -/
  | smov (d a : RegIdx)
  /-- SPACK `d:S, a:F, b:F`, 40_sample_arith.md R232 -/
  | spack (d a b : RegIdx)
  /-- SGETL `d:F, a:S`, 40_sample_arith.md R233 -/
  | sgetl (d a : RegIdx)
  /-- SGETR `d:F, a:S`, 40_sample_arith.md R234 -/
  | sgetr (d a : RegIdx)
  /-- FADD `d:F, a:F, b:F`, 40_sample_arith.md R235 -/
  | fadd (d a b : RegIdx)
  /-- FSUB `d:F, a:F, b:F`, 40_sample_arith.md R236 -/
  | fsub (d a b : RegIdx)
  /-- FMUL `d:F, a:F, b:F`, 40_sample_arith.md R237 -/
  | fmul (d a b : RegIdx)
  /-- FDIV `d:F, a:F, b:F`, 40_sample_arith.md R238 -/
  | fdiv (d a b : RegIdx)
  /-- FMOV `d:F, a:F`, 40_sample_arith.md R239 -/
  | fmov (d a : RegIdx)
  /-- BRD `d:S, a:F`, 41_buffer.md R282 -/
  | brd (d a : RegIdx)
  /-- BRD1 `d:F, a:F, ch`, 41_buffer.md R283 (`ch = false` is channel 0) -/
  | brd1 (d a : RegIdx) (ch : Bool)
  /-- BWR `a:S, b:F`, 41_buffer.md R284 -/
  | bwr (a b : RegIdx)
  /-- RSCALE `d:F, a:F`, 41_buffer.md R285 -/
  | rscale (d a : RegIdx)
  /-- SEC2FR `d:F, a:F`, 42_engine.md R323 -/
  | sec2fr (d a : RegIdx)
  /-- FR2SEC `d:F, a:F`, 42_engine.md R324 -/
  | fr2sec (d a : RegIdx)
  /-- DLY `d:S, a:S`, 44_effects.md R421 -/
  | dly (d a : RegIdx)
  /-- COMB `d:S, a:S`, 44_effects.md R431 -/
  | comb (d a : RegIdx)
  /-- BIQ `d:S, a:S`, 44_effects.md R442 -/
  | biq (d a : RegIdx)
  /-- STFT `d:S, a:S`, 43_stft.md R345 -/
  | stft (d a : RegIdx)
deriving DecidableEq, Repr

end Sys2Proof
end

