-- ==== Sys2Proof/WellFormed.lean ====
section
/-! DEFINITION. WellFormed.lean: the operand checks of 30_encoding.md R155 and R157 that an instruction term must meet.
The register fields and the BRD1 channel are well formed by their types. -/

namespace Sys2Proof

/-- 30_encoding.md R155: SKIPEV needs `n != 0`, LDP needs `p < NPARAM`; every other operand is legal. -/
def Instr.wf : Instr → Bool
  | .skipev n => n != 0
  | .ldp _ p => p.toNat < Config.nparam
  | _ => true

end Sys2Proof
end

