-- ==== Sys2Proof/Decode.lean ====
section
/-! DEFINITION. Decode.lean: the decoder of 30_encoding.md R157, total on words and on bytes and rejecting by name, the
encoder, and the entry the host reads. -/

namespace Sys2Proof

/-- Why a word is no legal instruction (30_encoding.md R157-R159). Each one makes the sequencer raise ILLEGAL_INSN. -/
inductive DecodeError where
  /-- the opcode is not in the table of R156 (R158) -/
  | reservedOpcode
  /-- a required-zero bit is 1 (R159) -/
  | requiredZero
  /-- SKIPEV with `n = 0` (R159) -/
  | skipevZero
  /-- LDP with `p >= NPARAM` (R159) -/
  | ldpIndex
  /-- fewer than four bytes were given: no instruction word (R150) -/
  | truncated
deriving DecidableEq, Repr

/-- `v[lo+n-1 : lo]` of an instruction word (00_scope.md R7). -/
def bits (w : Word) (lo n : Nat) : BitVec n := w.extractLsb' lo n

/-! ## The fields of a word under formats R, I and Z (30_encoding.md R151-R153), and, for each operand shape, whether the
bits it requires to be zero are zero -/

/-- field `op`, bits 31:26 -/
def opField (w : Word) : BitVec 6 := bits w 26 6
/-- field `d`, bits 25:23 -/
def dField (w : Word) : RegIdx := bits w 23 3
/-- field `a`, bits 22:20 -/
def aField (w : Word) : RegIdx := bits w 20 3
/-- field `b`, bits 19:17 -/
def bField (w : Word) : RegIdx := bits w 17 3
/-- field `c`, bits 16:14 -/
def cField (w : Word) : RegIdx := bits w 14 3
/-- field `e`, bits 13:11 -/
def eField (w : Word) : RegIdx := bits w 11 3
/-- field `imm16`, bits 15:0 -/
def immField (w : Word) : BitVec 16 := bits w 0 16

/-- `i` if the required-zero bits are zero, the rejection by name otherwise (30_encoding.md R157, second check). -/
def ifZero (z : Bool) (i : Instr) : Except DecodeError Instr := if z then .ok i else .error .requiredZero

/-- Format R with `d, a, b, c, e`: `z11 = 0`. -/
def zero5 (w : Word) : Bool := bits w 0 11 == 0
/-- Format R with `d, a, b, c`: `e` and `z11` are 0. -/
def zero4 (w : Word) : Bool := bits w 0 14 == 0
/-- Format R with `d, a, b`: `c`, `e` and `z11` are 0. -/
def zero3 (w : Word) : Bool := bits w 0 17 == 0
/-- Format R with `d, a`: `b`, `c`, `e` and `z11` are 0. -/
def zero2 (w : Word) : Bool := bits w 0 20 == 0
/-- Format R with `a, b` and no destination: also `d = 0`. -/
def zeroAB (w : Word) : Bool := bits w 0 17 == 0 && dField w == 0
/-- Format R with `a` only: also `d = 0`. -/
def zeroA (w : Word) : Bool := bits w 0 20 == 0 && dField w == 0
/-- BRD1: bits 19:18 and everything below bit 17 are 0 (R155). -/
def zeroCh (w : Word) : Bool := bits w 0 17 == 0 && bits w 18 2 == 0
/-- Format I with a destination: `z7 = 0`. -/
def zeroI (w : Word) : Bool := bits w 16 7 == 0
/-- Format I without a destination: `z7 = 0` and `d = 0` (R152). -/
def zeroIn (w : Word) : Bool := bits w 16 10 == 0
/-- Format Z: bits 25:0 are 0 (R153). -/
def zeroZ (w : Word) : Bool := bits w 0 26 == 0

/-- The first two checks of 30_encoding.md R157: the opcode is in the table, the required-zero bits are zero. -/
def decodeFields (w : Word) : Except DecodeError Instr :=
  let d := dField w
  let a := aField w
  let b := bField w
  let c := cField w
  match (opField w).toNat with
  | 0x00 => ifZero (zeroZ w) .endp
  | 0x01 => ifZero (zeroZ w) .nop
  | 0x02 => ifZero (zeroIn w) (.skipev (immField w))
  | 0x04 => ifZero (zeroI w) (.ldi d (immField w))
  | 0x05 => ifZero (zeroI w) (.ldp d (immField w))
  | 0x06 => ifZero (zeroA w) (.outadd a)
  | 0x08 => ifZero (zero3 w) (.sadd d a b)
  | 0x09 => ifZero (zero3 w) (.ssub d a b)
  | 0x0A => ifZero (zero3 w) (.smul d a b)
  | 0x0B => ifZero (zero3 w) (.sdiv d a b)
  | 0x0C => ifZero (zero3 w) (.saddf d a b)
  | 0x0D => ifZero (zero3 w) (.ssubf d a b)
  | 0x0E => ifZero (zero3 w) (.smulf d a b)
  | 0x0F => ifZero (zero3 w) (.sdivf d a b)
  | 0x10 => ifZero (zero4 w) (.sclip d a b c)
  | 0x11 => ifZero (zero4 w) (.swrap d a b c)
  | 0x12 => ifZero (zero5 w) (.slin d a b c (eField w))
  | 0x13 => ifZero (zero2 w) (.smov d a)
  | 0x14 => ifZero (zero3 w) (.spack d a b)
  | 0x15 => ifZero (zero2 w) (.sgetl d a)
  | 0x16 => ifZero (zero2 w) (.sgetr d a)
  | 0x18 => ifZero (zero3 w) (.fadd d a b)
  | 0x19 => ifZero (zero3 w) (.fsub d a b)
  | 0x1A => ifZero (zero3 w) (.fmul d a b)
  | 0x1B => ifZero (zero3 w) (.fdiv d a b)
  | 0x1C => ifZero (zero2 w) (.fmov d a)
  | 0x20 => ifZero (zero2 w) (.brd d a)
  | 0x21 => ifZero (zeroCh w) (.brd1 d a (bits w 17 1 == 1))
  | 0x22 => ifZero (zeroAB w) (.bwr a b)
  | 0x23 => ifZero (zero2 w) (.rscale d a)
  | 0x24 => ifZero (zero2 w) (.sec2fr d a)
  | 0x25 => ifZero (zero2 w) (.fr2sec d a)
  | 0x28 => ifZero (zero2 w) (.dly d a)
  | 0x29 => ifZero (zero2 w) (.comb d a)
  | 0x2A => ifZero (zero2 w) (.biq d a)
  | 0x2B => ifZero (zero2 w) (.stft d a)
  | _ => .error .reservedOpcode

/-- The last two checks of 30_encoding.md R157: SKIPEV's period and LDP's index
(DEDUCED, assumption 16). -/
def checkOperands : Instr → Except DecodeError Instr
  | .skipev n => if n = 0 then .error .skipevZero else .ok (.skipev n)
  | .ldp d p => if p.toNat < Config.nparam then .ok (.ldp d p) else .error .ldpIndex
  | i => .ok i

/-- The decoder of 30_encoding.md R157, its checks in the rule's order. -/
def decode (w : Word) : Except DecodeError Instr :=
  match decodeFields w with
  | .ok i => checkOperands i
  | .error e => .error e

/-- The word whose bytes, lowest address first, are `b0 b1 b2 b3` (nominal little-endian order, 20_memory.md R109). -/
def wordOfBytes (b0 b1 b2 b3 : Byte) : Word := b3 ++ b2 ++ b1 ++ b0

/-- Byte `j` of a word, at byte address `4i + j` (20_memory.md R109). -/
def byteOfWord (w : Word) (j : Nat) : Byte := w.extractLsb' (8 * j) 8

/-- The decoder on bytes: the instruction at the front and the bytes after it (30_encoding.md R150: always one word). -/
def decodeBytes : List Byte → Except DecodeError (Instr × List Byte)
  | b0 :: b1 :: b2 :: b3 :: rest =>
    match decode (wordOfBytes b0 b1 b2 b3) with
    | .ok i => .ok (i, rest)
    | .error e => .error e
  | _ => .error .truncated

/-- The four bytes of a word as the hardware stores them, lowest address first. -/
def bytesOfWord (w : Word) : List Byte := [byteOfWord w 0, byteOfWord w 1, byteOfWord w 2, byteOfWord w 3]

/-- Format R (30_encoding.md R151). -/
def rWord (op : BitVec 6) (d a b c e : RegIdx) : Word :=
  BitVec.ofNat 32 (op.toNat * 2 ^ 26 + d.toNat * 2 ^ 23 + a.toNat * 2 ^ 20 + b.toNat * 2 ^ 17 + c.toNat * 2 ^ 14
    + e.toNat * 2 ^ 11)

/-- Format I (30_encoding.md R152). -/
def iWord (op : BitVec 6) (d : RegIdx) (imm : BitVec 16) : Word :=
  BitVec.ofNat 32 (op.toNat * 2 ^ 26 + d.toNat * 2 ^ 23 + imm.toNat)

/-- The word of an instruction, from the formats and opcodes of 30_encoding.md R151-R156. -/
def encode : Instr → Word
  | .endp => rWord 0x00 0 0 0 0 0
  | .nop => rWord 0x01 0 0 0 0 0
  | .skipev n => iWord 0x02 0 n
  | .ldi d imm => iWord 0x04 d imm
  | .ldp d p => iWord 0x05 d p
  | .outadd a => rWord 0x06 0 a 0 0 0
  | .sadd d a b => rWord 0x08 d a b 0 0
  | .ssub d a b => rWord 0x09 d a b 0 0
  | .smul d a b => rWord 0x0A d a b 0 0
  | .sdiv d a b => rWord 0x0B d a b 0 0
  | .saddf d a b => rWord 0x0C d a b 0 0
  | .ssubf d a b => rWord 0x0D d a b 0 0
  | .smulf d a b => rWord 0x0E d a b 0 0
  | .sdivf d a b => rWord 0x0F d a b 0 0
  | .sclip d a b c => rWord 0x10 d a b c 0
  | .swrap d a b c => rWord 0x11 d a b c 0
  | .slin d a b c e => rWord 0x12 d a b c e
  | .smov d a => rWord 0x13 d a 0 0 0
  | .spack d a b => rWord 0x14 d a b 0 0
  | .sgetl d a => rWord 0x15 d a 0 0 0
  | .sgetr d a => rWord 0x16 d a 0 0 0
  | .fadd d a b => rWord 0x18 d a b 0 0
  | .fsub d a b => rWord 0x19 d a b 0 0
  | .fmul d a b => rWord 0x1A d a b 0 0
  | .fdiv d a b => rWord 0x1B d a b 0 0
  | .fmov d a => rWord 0x1C d a 0 0 0
  | .brd d a => rWord 0x20 d a 0 0 0
  | .brd1 d a ch => rWord 0x21 d a (if ch then 1 else 0) 0 0
  | .bwr a b => rWord 0x22 0 a b 0 0
  | .rscale d a => rWord 0x23 d a 0 0 0
  | .sec2fr d a => rWord 0x24 d a 0 0 0
  | .fr2sec d a => rWord 0x25 d a 0 0 0
  | .dly d a => rWord 0x28 d a 0 0 0
  | .comb d a => rWord 0x29 d a 0 0 0
  | .biq d a => rWord 0x2A d a 0 0 0
  | .stft d a => rWord 0x2B d a 0 0 0

/-- The instruction the decoder reads from the table word `w` of `nbits` bits; the bits above `nbits` are 0. The word is
laid out in bytes and given to the byte decoder. -/
def decodeTableWord (nbits w : Nat) : Option Instr :=
  match decodeBytes (bytesOfWord (BitVec.ofNat 32 (w % 2 ^ nbits))) with
  | .ok (i, _) => some i
  | .error _ => none

end Sys2Proof
end

