-- ==== Sys2Proof/Machine/Memory.lean ====
section
/-! DEFINITION. Memory.lean: the named operations over the word arrays of the units (`Cells`) and over the byte memories
of the host bus space (`Memory`), each in one canonical form. -/

namespace Sys2Proof.Machine

/-! ## Association lists with strictly rising keys -/

/-- The value listed at key `k`. -/
def lookupKey {α : Type} (k : Nat) : List (Nat × α) → Option α
  | [] => none
  | (j, v) :: t => if j = k then some v else lookupKey k t

/-- List `v` at key `k`, keeping the keys strictly rising. -/
def insertKey {α : Type} (k : Nat) (v : α) : List (Nat × α) → List (Nat × α)
  | [] => [(k, v)]
  | (j, u) :: t => if k < j then (k, v) :: (j, u) :: t else if j = k then (k, v) :: t else (j, u) :: insertKey k v t

/-- List nothing at key `k`. -/
def eraseKey {α : Type} (k : Nat) : List (Nat × α) → List (Nat × α)
  | [] => []
  | (j, u) :: t => if k < j then (j, u) :: t else if j = k then t else (j, u) :: eraseKey k t

/-- The keys rise strictly, each above `lo`'s bound: every key is at least `lo`. -/
def risingFrom {α : Type} (lo : Nat) : List (Nat × α) → Bool
  | [] => true
  | (j, _) :: t => lo ≤ j && risingFrom (j + 1) t

/-! ## Word arrays -/

/-- Word `i` of an array; an unlisted word is `+0.0`. -/
def cellGet (c : Cells) (i : Nat) : Word := (lookupKey i c).getD zeroW

/-- Word `i` of an array becomes `v`. -/
def cellSet (c : Cells) (i : Nat) (v : Word) : Cells := if v = zeroW then eraseKey i c else insertKey i v c

/-- The canonical form of an array of `len` words: indices strictly rising and below `len`, no listed word zero. -/
def cellsWf (len : Nat) (c : Cells) : Bool := risingFrom 0 c && c.all fun e => e.1 < len && e.2 != zeroW

/-! ## Byte memory (20_memory.md R100-R102) -/

/-- The byte address is one the spec gives a memory byte, in `PMEM` or in `BUFMEM`. -/
def mapped (a : Nat) : Bool := Config.inPmem a || Config.inBuf a

/-- What an unlisted address reads as: `PMEM` resets to zero (10_state.md R87); `BUFMEM` is zero after BUF_INIT
(41_buffer.md R280) and has no value of the model's after power-on (R88); no other address holds a byte. -/
def unlisted (f : BufFill) (a : Nat) : Option Byte :=
  if Config.inPmem a then some 0
  else if Config.inBuf a then
    match f with
    | .powerOn _ => none
    | .zero => some 0
  else none

/-- The byte the memory holds at `a`, if it holds one. -/
def Memory.read? (m : Memory) (a : Nat) : Option Byte :=
  match lookupKey a m.cells with
  | some b => some b
  | none => unlisted m.fill a

/-- The unspecified byte of power-on (93_implementation_defined.md row 1: any value; DESIGN CHOICE, assumption 5). -/
def freeByte : BufFill → Nat → Byte
  | .powerOn draw, a => Config.bufPowerOn draw a
  | .zero, _ => 0

/-- Byte `a` as an access sees it: the byte held, or the free value of power-on. -/
def Memory.byte (m : Memory) (a : Nat) : Byte := (m.read? a).getD (freeByte m.fill a)

/-- Byte `a` becomes `v`; an address that holds no byte is left alone. -/
def Memory.setByte (m : Memory) (a : Nat) (v : Byte) : Memory :=
  if mapped a then
    { m with cells := if unlisted m.fill a = some v then eraseKey a m.cells else insertKey a v m.cells }
  else m

/-- The 32-bit word at byte address `a` (nominal little-endian order, 20_memory.md R109; DESIGN CHOICE, assumption 6). -/
def Memory.word (m : Memory) (a : Nat) : Word :=
  wordOfBytes (m.byte a) (m.byte (a + 1)) (m.byte (a + 2)) (m.byte (a + 3))

/-- The 32-bit word at byte address `a` becomes `v`. -/
def Memory.setWord (m : Memory) (a : Nat) (v : Word) : Memory :=
  (((m.setByte a (byteOfWord v 0)).setByte (a + 1) (byteOfWord v 1)).setByte (a + 2) (byteOfWord v 2)).setByte (a + 3)
    (byteOfWord v 3)

/-- The canonical form: addresses strictly rising, every listed address mapped, no listed byte equal to what its address
reads as unlisted. -/
def Memory.wf (m : Memory) : Bool :=
  risingFrom 0 m.cells && m.cells.all fun e => mapped e.1 && unlisted m.fill e.1 != some e.2

/-- Byte address of `PMEM[i]` (20_memory.md R102). -/
def pmemAddr (i : Nat) : Nat := Config.pmemBase + 4 * i

/-- Byte address of `BUFMEM[i]` (20_memory.md R102). -/
def bufAddr (i : Nat) : Nat := Config.bufBase + 4 * i

/-- `BUFMEM` all zero (41_buffer.md R280). -/
def Memory.bufInit (m : Memory) : Memory := ⟨m.cells.filter fun e => !Config.inBuf e.1, .zero⟩

/-- `PMEM` all zero, `BUFMEM` kept (70_reset_and_hazards.md R552). -/
def Memory.clearPmem (m : Memory) : Memory := { m with cells := m.cells.filter fun e => Config.inBuf e.1 }

/-- The memory after power-on reset number `draw` (70_reset_and_hazards.md R551). -/
def Memory.powerOn (draw : Nat) : Memory := ⟨[], .powerOn draw⟩

end Sys2Proof.Machine
end

