-- ==== Sys2Proof/Machine/Operands.lean ====
section
/-! DEFINITION. Operands.lean: every operand form of 30_encoding.md R154, R155: the two register files, the scalar used in
both lanes (40_sample_arith.md R209), the immediates, the parameter index and the channel number. -/

namespace Sys2Proof.Machine

/-- `S[i]` (00_scope.md R8). -/
def State.getS (s : State) (i : RegIdx) : Sample := s.sreg[i.toNat]'i.isLt

/-- `F[i]` (00_scope.md R8). -/
def State.getF (s : State) (i : RegIdx) : Word := s.freg[i.toNat]'i.isLt

/-- `S[i] <- v` (00_scope.md R8). -/
def State.setS (s : State) (i : RegIdx) (v : Sample) : State := { s with sreg := s.sreg.set i.toNat v i.isLt }

/-- `F[i] <- v` (00_scope.md R8). -/
def State.setF (s : State) (i : RegIdx) (v : Word) : State := { s with freg := s.freg.set i.toNat v i.isLt }

/-- A scalar operand, used unchanged in both lanes (40_sample_arith.md R209). -/
def bothLanes (w : Word) : Sample := ⟨w, w⟩

/-- LDI: `imm16 ‖ 0x0000` (30_encoding.md R155). -/
def ldiValue (imm : BitVec 16) : Word := imm ++ 0#16

/-- SKIPEV: `n = zext_32(imm16)` (30_encoding.md R155). -/
def skipPeriod (n : BitVec 16) : Nat := n.toNat

/-- LDP: `LIVE.P[p]` with `p = zext_32(imm16)` (30_encoding.md R155, 40_sample_arith.md R240). -/
def State.param (s : State) (p : BitVec 16) : Word := cellGet s.live.p p.toNat

/-- BRD1: the channel number, 0 or 1 (30_encoding.md R155). -/
def chanOf (ch : Bool) : Nat := if ch then 1 else 0

/-- A Sample result and the exceptions of both lanes. -/
structure SRes where
  /-- the result -/
  val : Sample
  /-- the exceptions of both lanes -/
  flags : FlagSet
deriving DecidableEq, Repr

/-- A Sample from the results of its two lanes, the exceptions of both ORed (40_sample_arith.md R208, R209). -/
def ofLanes (l r : FRes) : SRes := ⟨⟨l.val, r.val⟩, l.flags ||| r.flags⟩

/-- A two-operand operation on each lane (40_sample_arith.md R209). -/
def lanes2 (f : Word → Word → FRes) (x y : Sample) : SRes := ofLanes (f x.l y.l) (f x.r y.r)

/-- A three-operand operation with two scalars on each lane. -/
def lanesF2 (f : Word → Word → Word → FRes) (x : Sample) (u v : Word) : SRes := ofLanes (f x.l u v) (f x.r u v)

/-- `fadd(fmul(p, x), fmul(q, y))` with the exceptions of its three operations (40_sample_arith.md R205, R230). -/
def linF (p x q y : Word) : FRes :=
  let u := fmul p x
  let v := fmul q y
  let w := fadd u.val v.val
  ⟨w.val, u.flags ||| v.flags ||| w.flags⟩

/-- `fmul(x, fdiv(num, den))` with the exceptions of both operations (41_buffer.md R285). -/
def scaleF (x num den : Word) : FRes :=
  let ratio := fdiv num den
  let w := fmul x ratio.val
  ⟨w.val, ratio.flags ||| w.flags⟩

end Sys2Proof.Machine
end

