-- ==== Sys2Proof/Machine/Ops.lean ====
section
/-! DEFINITION. Ops.lean: the shared operations of the meanings: advancing, writing results, ending a frame, taking a
fault (60_exceptions.md R503) and recovering from one (R504), the interrupt line (R515), the ring cursor and the Buffer
port (41_buffer.md). -/

namespace Sys2Proof.Machine

/-- What an instruction answers: every one completes (40_sample_arith.md R210, 60_exceptions.md R506). -/
abbrev Result := Host.Outcome State Fault Refusal

/-! ## Completing an instruction -/

/-- `pc <- pc + 1` (10_state.md R55). -/
def State.advance (s : State) : State := { s with pc := s.pc + 1 }

/-- A Sample result: destination, flags, `pc`. -/
def State.retS (s : State) (d : RegIdx) (r : SRes) : State := ((s.setS d r.val).accrue r.flags).advance

/-- A scalar result: destination, flags, `pc`. -/
def State.retF (s : State) (d : RegIdx) (r : FRes) : State := ((s.setF d r.val).accrue r.flags).advance

/-- A Sample destination and `pc`, no flags. -/
def State.putS (s : State) (d : RegIdx) (v : Sample) : State := (s.setS d v).advance

/-- A scalar destination and `pc`, no flags. -/
def State.putF (s : State) (d : RegIdx) (v : Word) : State := (s.setF d v).advance

/-! ## Ending a frame, faults, the interrupt line -/

/-- BlockEnd (42_engine.md R303). -/
def State.blockEnd (s : State) : State := { s with inBlock := false, blkRun := false }

/-- The end of a frame step with output `y`: `POS <- POS + 1`, then BlockEnd after the last frame (42_engine.md R302). -/
def State.finishFrame (s : State) (y : Sample) : State :=
  let t := { s with inFrame := false, emitted := .frame y :: s.emitted, pos := s.pos + 1 }
  if t.pos = t.blkF then t.blockEnd else t

/-- Cause code ILLEGAL_INSN (60_exceptions.md R500). -/
def causeIllegal : BitVec 8 := 1
/-- Cause code PC_OVERRUN (60_exceptions.md R500). -/
def causeOverrun : BitVec 8 := 2

/-- `raise Fault(cause, (fpc, fw))` (60_exceptions.md R503): the capture registers, STATUS.FAULT, and the frame ends with
output `(+0.0, +0.0)`. -/
def State.raiseFault (s : State) (cause : BitVec 8) (fpc : BitVec 17) (fw : Word) : State :=
  { s with faultCause := cause, faultPc := fpc, faultInsn := fw, fault := true }.finishFrame Sample.zero

/-- Recovery (60_exceptions.md R504): the host's write-1-to-clear of STATUS bits 0 and 1 (10_state.md R63). The capture
registers and the units keep their values. -/
def State.clearStatus (s : State) (w : Word) : State :=
  { s with fault := s.fault && !w.getLsbD 0, busErr := s.busErr && !w.getLsbD 1 }

/-- The interrupt output (60_exceptions.md R515). -/
def State.irq (s : State) : Bool := (s.fault && s.irqEn.getLsbD 0) || (s.busErr && s.irqEn.getLsbD 1)

/-! ## Ring cursor (41_buffer.md R270) -/

/-- `ringAdv(cur, len)`. -/
def ringAdv (cur len : Nat) : Nat := (cur + 1) % len

/-- `ringAt(cur, off, len)`; `off` may be negative. -/
def ringAt (cur : Nat) (off : Int) (len : Nat) : Nat := (((cur : Int) + off) % (len : Int)).toNat

/-! ## Buffer port (41_buffer.md R272-R278) -/

/-- The port's channel count is two (R273: `chans ∈ {1, 2}`; DESIGN CHOICE, assumption 13, for the values no write stores).
-/
def State.stereo (s : State) : Bool := s.live.bufChans == 2

/-- `LEN_EFF` (R273). -/
def State.lenEff (s : State) : Nat := min s.live.bufLen.toNat (Config.bufCap / s.live.bufChans.toNat)

/-- `clampIdx(pos)` for an effective length `len >= 1` (R274). -/
def clampIdx (len : Nat) (pos : Word) : Nat :=
  if isNaN pos || (isInf pos && signBit pos) then 0
  else if isInf pos then len - 1
  else min (floorZ pos).toNat (len - 1)

/-- The word index of frame `i`, channel `c` (R272). -/
def State.frameWord (s : State) (i c : Nat) : Nat := if s.stereo then 2 * i + c else i

/-- `MemRead(a, 4)` (00_scope.md R9). -/
def State.bufGet (s : State) (a : Nat) : Word := s.mem.word (bufAddr a)

/-- `MemWrite(a, 4, v)` (00_scope.md R9). -/
def State.bufSet (s : State) (a : Nat) (v : Word) : State := { s with mem := s.mem.setWord (bufAddr a) v }

/-- `BufRead(pos)` (R275). -/
def State.bufRead (s : State) (pos : Word) : Sample :=
  if s.lenEff = 0 then Sample.zero
  else
    let i := clampIdx s.lenEff pos
    ⟨s.bufGet (s.frameWord i 0), s.bufGet (s.frameWord i 1)⟩

/-- `BufRead1(pos, ch)` (R276). -/
def State.bufRead1 (s : State) (pos : Word) (ch : Nat) : Word :=
  if s.lenEff = 0 then zeroW else s.bufGet (s.frameWord (clampIdx s.lenEff pos) ch)

/-- `BufWrite(pos, v)` (R277); the mono sum writes no flags. -/
def State.bufWrite (s : State) (pos : Word) (v : Sample) : State :=
  if s.lenEff = 0 then s
  else
    let i := clampIdx s.lenEff pos
    if s.stereo then (s.bufSet (s.frameWord i 0) v.l).bufSet (s.frameWord i 1) v.r
    else s.bufSet (s.frameWord i 0) (fadd v.l v.r).val

end Sys2Proof.Machine
end

