-- ==== Sys2Proof/Machine/Arith.lean ====
section
/-! DEFINITION. Arith.lean: the meanings of the Sample and scalar arithmetic, moves and loads (40_sample_arith.md
R220-R241). Each reads all its sources before it writes its destination (R211). -/

namespace Sys2Proof.Machine

/-- SADD, R220. -/
def execSadd (d a b : RegIdx) (s : State) : Result := .next (s.retS d (lanes2 fadd (s.getS a) (s.getS b)))
/-- SSUB, R221. -/
def execSsub (d a b : RegIdx) (s : State) : Result := .next (s.retS d (lanes2 fsub (s.getS a) (s.getS b)))
/-- SMUL, R222. -/
def execSmul (d a b : RegIdx) (s : State) : Result := .next (s.retS d (lanes2 fmul (s.getS a) (s.getS b)))
/-- SDIV, R223. -/
def execSdiv (d a b : RegIdx) (s : State) : Result := .next (s.retS d (lanes2 fdiv (s.getS a) (s.getS b)))
/-- SADDF, R224. -/
def execSaddf (d a b : RegIdx) (s : State) : Result := .next (s.retS d (lanes2 fadd (s.getS a) (bothLanes (s.getF b))))
/-- SSUBF, R225. -/
def execSsubf (d a b : RegIdx) (s : State) : Result := .next (s.retS d (lanes2 fsub (s.getS a) (bothLanes (s.getF b))))
/-- SMULF, R226. -/
def execSmulf (d a b : RegIdx) (s : State) : Result := .next (s.retS d (lanes2 fmul (s.getS a) (bothLanes (s.getF b))))
/-- SDIVF, R227. -/
def execSdivf (d a b : RegIdx) (s : State) : Result := .next (s.retS d (lanes2 fdiv (s.getS a) (bothLanes (s.getF b))))
/-- SCLIP, R228. -/
def execSclip (d a b c : RegIdx) (s : State) : Result :=
  .next (s.putS d ⟨clipF (s.getS a).l (s.getF b) (s.getF c), clipF (s.getS a).r (s.getF b) (s.getF c)⟩)
/-- SWRAP, R229. -/
def execSwrap (d a b c : RegIdx) (s : State) : Result :=
  .next (s.retS d (lanesF2 wrapF (s.getS a) (s.getF b) (s.getF c)))
/-- SLIN, R230. -/
def execSlin (d a b c e : RegIdx) (s : State) : Result :=
  .next (s.retS d (ofLanes (linF (s.getF c) (s.getS a).l (s.getF e) (s.getS b).l)
    (linF (s.getF c) (s.getS a).r (s.getF e) (s.getS b).r)))
/-- SMOV, R231. -/
def execSmov (d a : RegIdx) (s : State) : Result := .next (s.putS d (s.getS a))
/-- SPACK, R232. -/
def execSpack (d a b : RegIdx) (s : State) : Result := .next (s.putS d ⟨s.getF a, s.getF b⟩)
/-- SGETL, R233. -/
def execSgetl (d a : RegIdx) (s : State) : Result := .next (s.putF d (s.getS a).l)
/-- SGETR, R234. -/
def execSgetr (d a : RegIdx) (s : State) : Result := .next (s.putF d (s.getS a).r)
/-- FADD, R235. -/
def execFadd (d a b : RegIdx) (s : State) : Result := .next (s.retF d (fadd (s.getF a) (s.getF b)))
/-- FSUB, R236. -/
def execFsub (d a b : RegIdx) (s : State) : Result := .next (s.retF d (fsub (s.getF a) (s.getF b)))
/-- FMUL, R237. -/
def execFmul (d a b : RegIdx) (s : State) : Result := .next (s.retF d (fmul (s.getF a) (s.getF b)))
/-- FDIV, R238. -/
def execFdiv (d a b : RegIdx) (s : State) : Result := .next (s.retF d (fdiv (s.getF a) (s.getF b)))
/-- FMOV, R239. -/
def execFmov (d a : RegIdx) (s : State) : Result := .next (s.putF d (s.getF a))
/-- LDP, R240. -/
def execLdp (d : RegIdx) (p : BitVec 16) (s : State) : Result := .next (s.putF d (s.param p))
/-- LDI, R241. -/
def execLdi (d : RegIdx) (imm : BitVec 16) (s : State) : Result := .next (s.putF d (ldiValue imm))

end Sys2Proof.Machine
end

