-- ==== Sys2Proof/Machine/Buffer.lean ====
section
/-! DEFINITION. Buffer.lean: the meanings of the Buffer instructions (41_buffer.md R282-R285). -/

namespace Sys2Proof.Machine

/-- BRD, R282. -/
def execBrd (d a : RegIdx) (s : State) : Result := .next (s.putS d (s.bufRead (s.getF a)))
/-- BRD1, R283. -/
def execBrd1 (d a : RegIdx) (ch : Bool) (s : State) : Result := .next (s.putF d (s.bufRead1 (s.getF a) (chanOf ch)))
/-- BWR, R284. -/
def execBwr (a b : RegIdx) (s : State) : Result := .next (s.bufWrite (s.getF b) (s.getS a)).advance
/-- RSCALE, R285. -/
def execRscale (d a : RegIdx) (s : State) : Result :=
  .next (s.retF d (scaleF (s.getF a) s.live.bufRate s.live.rate))

end Sys2Proof.Machine
end

