-- ==== Sys2Proof/Machine/FuncUnits.lean ====
section
/-! DEFINITION. FuncUnits.lean: the correctly rounded function units `fsin`, `fcos`, `fexp2`, `fatan2` (40_sample_arith.md
R206), `wrapPi` (43_stft.md R356) and the real constants behind the ROMs (00_scope.md R6). Each real value is enclosed
between two dyadic numbers; when both ends round to the same binary32 that is `RN` of the value. The precision rises
until they do (DESIGN CHOICE, assumption 8). -/

namespace Sys2Proof.Machine

/-- `RN` of the dyadic `z * 2^e`. -/
def rnDyadic (z e : Int) : Word :=
  if 0 ≤ e then (roundFrac (z * 2 ^ e.toNat) 1).val else (roundFrac z (2 ^ (-e).toNat)).val

/-- An enclosure of a real number: it lies in `[lo * 2^e, hi * 2^e]`. -/
structure Encl where
  /-- lower end -/
  lo : Int
  /-- upper end -/
  hi : Int
  /-- the exponent of one unit -/
  e : Int
deriving DecidableEq, Repr

/-- The enclosure `z ± w` in units of `2^e`. -/
def enclAround (z : Int) (w : Nat) (e : Int) : Encl := ⟨z - w, z + w, e⟩

/-- The common rounding of both ends, if they have one. -/
def Encl.round? (x : Encl) : Option Word :=
  if rnDyadic x.lo x.e = rnDyadic x.hi x.e then some (rnDyadic x.lo x.e) else none

/-- The first precision of the list at which the enclosure decides the rounding. -/
def roundAtFirst (f : Nat → Option Encl) : List Nat → Option Word
  | [] => none
  | p :: ps =>
    match (f p).bind Encl.round? with
    | some w => some w
    | none => roundAtFirst f ps

/-- The working precisions, in bits below the point. -/
def precisions : List Nat := [96, 192, 384, 768, 1536]

/-- `RN` of the real number that `f` encloses at every precision; the free value if no precision decides it. -/
def roundReal (unit : Nat) (x y : Word) (f : Nat → Option Encl) : Word :=
  (roundAtFirst f precisions).getD (Config.undecidedRounding unit x y)

/-! ## Series, in units of 2^-p -/

/-- Euler's series of the arctangent: `t = num * a^2 * (2n) / (den * (2n+1))` is the next term from `t`. -/
def atanLoop (a2 den : Nat) : Nat → Nat → Nat → Nat → Nat
  | 0, _, _, acc => acc
  | fuel + 1, n, t, acc =>
    if t = 0 then acc
    else
      let t' := t * (2 * n) * a2 / ((2 * n + 1) * den)
      atanLoop a2 den fuel (n + 1) t' (acc + t')

/-- `atan(a/b)` for `0 <= a <= b`, `0 < b`, from below, in units of 2^-p: `sum 2^(2n) (n!)^2/(2n+1)! t^(2n+1)/(1+t^2)^(n+1)`.
Each term is short of its value by less than 2 units and the tail is below 2, so the value lies within `2p + 8` above. -/
def atanFix (a b p : Nat) : Nat :=
  let den := a * a + b * b
  let t0 := a * b * 2 ^ p / den
  atanLoop (a * a) den (p + 2) 1 t0 t0

/-- `pi` in units of 2^-p, to within 2 units: `16 atan(1/5) - 4 atan(1/239)` with 32 guard bits. -/
def piFix (p : Nat) : Nat := (16 * atanFix 1 5 (p + 32) - 4 * atanFix 1 239 (p + 32)) / 2 ^ 32

/-- A lower end of `pi` in units of 2^-p. -/
def piLo (p : Nat) : Nat := piFix p - 2
/-- An upper end of `pi` in units of 2^-p. -/
def piHi (p : Nat) : Nat := piFix p + 2

/-- The alternating Taylor sum of the terms after `t`, each `t * r^2 / ((k+1)(k+2))`. -/
def taylorLoop (r2 p : Nat) : Nat → Nat → Nat → Bool → Int → Int
  | 0, _, _, _, acc => acc
  | fuel + 1, k, t, neg, acc =>
    if t = 0 then acc
    else
      let t' := t * r2 / 2 ^ (2 * p) / ((k + 1) * (k + 2))
      taylorLoop r2 p fuel (k + 2) t' (!neg) (if neg then acc - t' else acc + t')

/-- `sin(r)` for `|r| <= 1`, `r` in units of 2^-p; within `2p + 8` units. -/
def sinFix (r : Int) (p : Nat) : Int :=
  let m := r.natAbs
  let s := taylorLoop (m * m) p p 1 m true m
  if r < 0 then -s else s

/-- `cos(r)` for `|r| <= 1`, `r` in units of 2^-p; within `2p + 8` units. -/
def cosFix (r : Int) (p : Nat) : Int := taylorLoop (r.natAbs * r.natAbs) p p 0 (2 ^ p) true (2 ^ p : Nat)

/-- The width given to every enclosure at precision `p`: twice the bound of the series and of the reduced argument. -/
def slack (p : Nat) : Nat := 4 * p + 32

/-- The sum `y^0/0! + y^1/1! + ...`, `y` in units of 2^-p. -/
def expLoop (y p : Nat) : Nat → Nat → Nat → Nat → Nat
  | 0, _, _, acc => acc
  | fuel + 1, k, t, acc =>
    if t = 0 then acc
    else
      let t' := t * y / 2 ^ p / (k + 1)
      expLoop y p fuel (k + 1) t' (acc + t')

/-- The sum of `2 / ((2k+1) 9^k 3)` in units of 2^-p. -/
def ln2Loop : Nat → Nat → Nat → Nat → Nat
  | 0, _, _, acc => acc
  | fuel + 1, k, t, acc => if t = 0 then acc else ln2Loop fuel (k + 1) (t / 9) (acc + t / (2 * k + 1))

/-- `ln 2 = 2 atanh(1/3)` in units of 2^-p, within 2 units (32 guard bits). -/
def ln2Fix (p : Nat) : Nat := ln2Loop (p + 32) 0 (2 ^ (p + 33) / 3) 0 / 2 ^ 32

/-! ## Enclosures of the unit functions -/

/-- The sine (`isCos = false`) or cosine at the reduced argument `r` in units of 2^-p, in quadrant `n mod 4`. -/
def quadrantEncl (isCos : Bool) (n r : Int) (p : Nat) : Encl :=
  let q := (n + if isCos then 1 else 0) % 4
  let v := if q = 0 then sinFix r p else if q = 1 then cosFix r p else if q = 2 then -sinFix r p else -cosFix r p
  enclAround v (slack p) (-p)

/-- `sin x` or `cos x` for `x = z/2^149`: reduced by the nearest multiple `n` of `pi/2`, with `pi` to `p + 160` bits. -/
def trigEncl (isCos : Bool) (z : Int) (p : Nat) : Encl :=
  let w := p + 160
  let n := (4 * z * 2 ^ w + (piFix w : Int) * 2 ^ 149) / (2 * (piFix w : Int) * 2 ^ 149)
  let r := (z * 2 ^ (w + 1) - n * (piFix w : Int) * 2 ^ 149) / 2 ^ (w + 150 - p)
  quadrantEncl isCos n r p

/-- `2^x` for `x = z/2^149`: `2^floor(x)` times `exp(frac(x) ln 2)`. -/
def exp2Encl (z : Int) (p : Nat) : Encl :=
  let n := z / 2 ^ 149
  let f := (z % 2 ^ 149).toNat * 2 ^ p / 2 ^ 149
  let y := f * ln2Fix p / 2 ^ p
  enclAround (expLoop y p p 0 (2 ^ p) (2 ^ p) : Nat) (slack p) (n - p)

/-- The principal `atan2(y, x)` of magnitudes `y, x > 0` with the signs given. -/
def atan2Encl (ny nx : Bool) (y x p : Nat) : Encl :=
  let base : Int := if y ≤ x then (atanFix y x p : Int) else (piFix p : Int) / 2 - (atanFix x y p : Int)
  let th : Int := if nx then (piFix p : Int) - base else base
  enclAround (if ny then -th else th) (slack p) (-p)

/-! ## The units (R206) -/

/-- Unit numbers of the free value `Config.undecidedRounding`. -/
def unitSin : Nat := 0
/-- `fcos` -/
def unitCos : Nat := 1
/-- `fexp2` -/
def unitExp2 : Nat := 2
/-- `fatan2` -/
def unitAtan2 : Nat := 3
/-- `wrapPi` -/
def unitWrapPi : Nat := 4
/-- a ROM constant -/
def unitRom : Nat := 5

/-- `fsin` (40_sample_arith.md R206). -/
def fsin (x : Word) : Word :=
  if !isFinite x then canonNaN
  else if isZero x then x
  else roundReal unitSin x zeroW fun p => some (trigEncl false (fixOf x) p)

/-- `fcos` (40_sample_arith.md R206). -/
def fcos (x : Word) : Word :=
  if !isFinite x then canonNaN
  else if isZero x then oneF
  else roundReal unitCos x zeroW fun p => some (trigEncl true (fixOf x) p)

/-- `fexp2` (40_sample_arith.md R206): exact at integers; `2^x >= 2^128` overflows and `2^x < 2^-150` rounds to `+0`
(DEDUCED, assumption 10). -/
def fexp2 (x : Word) : Word :=
  if isNaN x then canonNaN
  else if isInf x then (if signBit x then zeroW else posInf)
  else if 128 ≤ floorZ x then posInf
  else if floorZ x < -150 then zeroW
  else if fixOf x % 2 ^ 149 = 0 then rnDyadic 1 (floorZ x)
  else roundReal unitExp2 x zeroW fun p => some (exp2Encl (fixOf x) p)

/-- `RN(pi)` (40_sample_arith.md R206). -/
def rnPi : Word := 0x40490FDB#32
/-- `RN(pi/2)` -/
def rnHalfPi : Word := 0x3FC90FDB#32
/-- `RN(pi/4)` -/
def rnQuarterPi : Word := 0x3F490FDB#32
/-- `RN(3pi/4)` -/
def rnThreeQuarterPi : Word := 0x4016CBE4#32

/-- `fatan2(y, x)` (40_sample_arith.md R206). -/
def fatan2 (y x : Word) : Word :=
  if isNaN y || isNaN x then canonNaN
  else if isZero y then
    withSign (signBit y) (if signBit x then rnPi else zeroW)
  else if isInf y then
    withSign (signBit y) (if isInf x then (if signBit x then rnThreeQuarterPi else rnQuarterPi) else rnHalfPi)
  else if isZero x then withSign (signBit y) rnHalfPi
  else if isInf x then withSign (signBit y) (if signBit x then rnPi else zeroW)
  else roundReal unitAtan2 y x fun p => some (atan2Encl (signBit y) (signBit x) (magOf y) (magOf x) p)

/-! ## Phase wrapping (43_stft.md R356) -/

/-- `ceil((x - pi) / (2 pi))` for `x = z/2^149` and `pi = c/2^w`. -/
def wrapCount (z : Int) (c w : Nat) : Int :=
  -((((c : Int) * 2 ^ 149 - z * 2 ^ w)) / (2 * (c : Int) * 2 ^ 149))

/-- `x - 2 pi m` enclosed, if both ends of `pi` give the same count `m`. -/
def wrapEncl (z : Int) (p : Nat) : Option Encl :=
  let w := p + 160
  let m := wrapCount z (piLo w) w
  if m = wrapCount z (piHi w) w then
    let u : Int := z * 2 ^ w - 2 * m * (piLo w : Int) * 2 ^ 149
    let v : Int := z * 2 ^ w - 2 * m * (piHi w : Int) * 2 ^ 149
    some ⟨min u v, max u v, -((w : Int) + 149)⟩
  else none

/-- `x` lies in `(-pi, pi]` for sure: `m = 0` (43_stft.md R356). -/
def insidePi (z : Int) : Bool := z.natAbs * 2 ^ 96 < piLo 96 * 2 ^ 149

/-- `wrapPi` (43_stft.md R356). -/
def wrapPi (x : Word) : Word :=
  if !isFinite x then canonNaN
  else if insidePi (fixOf x) then x
  else roundReal unitWrapPi x zeroW fun p => wrapEncl (fixOf x) p

end Sys2Proof.Machine
end

