-- ==== Sys2Proof/Machine/Rom.lean ====
section
/-! DEFINITION. Rom.lean: the ROM constants of 00_scope.md R6, each `RN` of its exact real value. -/

namespace Sys2Proof.Machine

/-- `W[i] = RN(1 - (1 - 2i/(N-1))^2)`, the window ROM. -/
def windowRom (i : Nat) : Word :=
  let m : Int := (Config.fftN : Int) - 1
  (roundFrac (m * m - (m - 2 * i) * (m - 2 * i)) (m * m).toNat).val

/-- `RN(pi * num / den)`. -/
def rnPiTimes (num den : Nat) : Word :=
  if num = 0 then zeroW
  else roundReal unitRom (BitVec.ofNat 32 num) (BitVec.ofNat 32 den) fun p =>
    some ⟨(num * piLo (p + 32) / den : Nat), (num * piHi (p + 32) / den + 1 : Nat), -((p : Int) + 32)⟩

/-- `RN(num / (pi * den))`. -/
def rnOverPi (num den : Nat) : Word :=
  roundReal unitRom (BitVec.ofNat 32 num) (BitVec.ofNat 32 den) fun p =>
    some ⟨(num * 2 ^ (2 * p) / (piHi p * den) : Nat), (num * 2 ^ (2 * p) / (piLo p * den) + 1 : Nat), -(p : Int)⟩

/-- `NOM[k] = RN(2 pi k H / N)`, the nominal per-hop phase advance of bin `k`. -/
def nomRom (k : Nat) : Word := rnPiTimes (2 * k * Config.hop) Config.fftN

/-- `DEVK = RN(N / (2 pi H))`, radians to fractional bins. -/
def devK : Word := rnOverPi Config.fftN (2 * Config.hop)

/-- `SYNK = RN(2 pi H / N)`, fractional bins to radians. -/
def synK : Word := rnPiTimes (2 * Config.hop) Config.fftN

/-- `TWO_PI = RN(2 pi)`. -/
def twoPi : Word := 0x40C90FDB#32

/-- `ENV_BETA = fsub(1.0, ENV_ALPHA)`. -/
def envBeta : Word := (fsub oneF Config.params.envAlpha).val

/-- `RN(BQ_FMAXR)` (44_effects.md R440). -/
def bqFmaxRn : Word := (roundFrac Config.params.bqFmaxR.1 Config.params.bqFmaxR.2).val

/-- `RN` of the sine or cosine of `2 pi j / N`; at a multiple of `pi/2` the value is exactly 0, 1 or -1. -/
def twiddlePart (isCos : Bool) (j : Nat) : Word :=
  let n : Int := ((4 * j + Config.fftN / 2) / Config.fftN : Nat)
  let m : Int := 4 * (j : Int) - n * Config.fftN
  if m = 0 then
    let q := (n + if isCos then 1 else 0) % 4
    if q = 1 then oneF else if q = 3 then negOneF else zeroW
  else roundReal unitRom (BitVec.ofNat 32 j) (if isCos then 1 else 0) fun p =>
    some (quadrantEncl isCos n (m * (piFix p : Int) / (2 * Config.fftN)) p)

/-- `TW[j] = (RN(cos(2 pi j/N)), RN(sin(2 pi j/N)))`, the twiddle ROM. -/
def twiddleRom (j : Nat) : Word × Word := (twiddlePart true j, twiddlePart false j)

/-- The window ROM `W[0..N-1]` as one table. -/
def windowTable : Array Word := ((List.range Config.fftN).map windowRom).toArray

/-- The twiddle ROM `TW[0..N/2-1]` as one table. -/
def twiddleTable : Array (Word × Word) := ((List.range (Config.fftN / 2)).map twiddleRom).toArray

/-- The nominal advances `NOM[0..NB-1]` as one table. -/
def nomTable : Array Word := ((List.range Config.numBins).map nomRom).toArray

end Sys2Proof.Machine
end

