-- ==== Sys2Proof/Machine/Effects.lean ====
section
/-! DEFINITION. Effects.lean: the Delay, Comb and Biquad units (44_effects.md): the length and coefficient computations
of a commit and the meanings of DLY, COMB and BIQ. No operation of this file writes FFLAGS. -/

namespace Sys2Proof.Machine

/-! ## Computations of a commit -/

/-- Seconds times rate to a tap distance in `[1, len - 1]` (R420, R430; DESIGN CHOICE, assumption 13, for a negative
product). -/
def tapFrames (seconds rate : Word) (len : Nat) : BitVec 32 :=
  let v := (fmul seconds rate).val
  if isNaN v then 1
  else if isInf v && !signBit v then BitVec.ofNat 32 (len - 1)
  else BitVec.ofNat 32 (min (max (truncZ v) 1) ((len : Int) - 1)).toNat

/-- DLY_FRAMES (R420). -/
def dlyFramesOf (p : Params) : BitVec 32 := tapFrames p.dlyTime p.rate Config.dlyLen

/-- COMB_FRAMES (R430). -/
def combFramesOf (p : Params) : BitVec 32 := tapFrames p.combTime p.rate Config.combLen

/-- The frequency the coefficients use: BQ_FREQ under its ceiling (R440). -/
def bqFc (p : Params) : Word :=
  let fmax := (fmul bqFmaxRn p.rate).val
  if flt fmax p.bqFreq then fmax else p.bqFreq

/-- The coefficient computation (R440), one binary32 operation at a time. -/
def bqCompute (p : Params) : BqCoef :=
  let w0 := (fdiv (fmul twoPi (bqFc p)).val p.rate).val
  let cw := fcos w0
  let sw := fsin w0
  let alpha := (fdiv sw (fmul twoF p.bqQ).val).val
  let a0 := (fadd oneF alpha).val
  let a1 := (fmul negTwoF cw).val
  let a2 := (fsub oneF alpha).val
  let b : Word × Word × Word :=
    if p.bqMode = 0 then
      let t := (fsub oneF cw).val
      ((fmul t halfF).val, t, (fmul t halfF).val)
    else if p.bqMode = 1 then
      let t := (fadd oneF cw).val
      ((fmul t halfF).val, fneg t, (fmul t halfF).val)
    else (alpha, zeroW, fneg alpha)
  { b0 := (fdiv b.1 a0).val, b1 := (fdiv b.2.1 a0).val, b2 := (fdiv b.2.2 a0).val,
    a1 := (fdiv a1 a0).val, a2 := (fdiv a2 a0).val }

/-! ## Unit invocations -/

/-- `crossfade(x, tap, m)` (R421). -/
def crossfade (x tap m : Word) : Word := (fadd (fmul (fsub oneF m).val x).val (fmul m tap).val).val

/-- One invocation of the Delay unit with mix `m` and tap distance `dist` (R421): the tap is read before the wet value is
written back. -/
def delayStep (m : Word) (dist : Nat) (x : Sample) (u : RingUnit) : Sample × RingUnit :=
  let p := ringAt u.w (-(dist : Int)) Config.dlyLen
  let y : Sample := ⟨crossfade x.l (cellGet u.l p) m, crossfade x.r (cellGet u.r p) m⟩
  (y, ⟨cellSet u.l u.w y.l, cellSet u.r u.w y.r, ringAdv u.w Config.dlyLen⟩)

/-- One invocation of the Comb unit (R431): the dry input is written back. -/
def combStep (dist : Nat) (x : Sample) (u : RingUnit) : Sample × RingUnit :=
  let p := ringAt u.w (-(dist : Int)) Config.combLen
  let y : Sample := ⟨(fadd x.l (cellGet u.l p)).val, (fadd x.r (cellGet u.r p)).val⟩
  (y, ⟨cellSet u.l u.w x.l, cellSet u.r u.w x.r, ringAdv u.w Config.combLen⟩)

/-- The difference equation of the Biquad, direct form I (R442). -/
def bqOut (k : BqCoef) (x : Word) (h : BqHist) : Word :=
  let s1 := (fmul k.b0 x).val
  let s2 := (fadd s1 (fmul k.b1 h.x1).val).val
  let s3 := (fadd s2 (fmul k.b2 h.x2).val).val
  let s4 := (fsub s3 (fmul k.a1 h.y1).val).val
  (fsub s4 (fmul k.a2 h.y2).val).val

/-- One channel of a Biquad invocation (R442). -/
def bqStep (k : BqCoef) (x : Word) (h : BqHist) : Word × BqHist :=
  let y := bqOut k x h
  (y, ⟨x, h.x1, y, h.y1⟩)

/-- DLY, R421. -/
def execDly (d a : RegIdx) (s : State) : Result :=
  let r := delayStep s.live.dlyMix s.dlyFrames.toNat (s.getS a) s.dly
  .next ({ s with dly := r.2 }.putS d r.1)

/-- COMB, R431. -/
def execComb (d a : RegIdx) (s : State) : Result :=
  let r := combStep s.combFrames.toNat (s.getS a) s.comb
  .next ({ s with comb := r.2 }.putS d r.1)

/-- BIQ, R442. -/
def execBiq (d a : RegIdx) (s : State) : Result :=
  let l := bqStep s.bqCoef (s.getS a).l s.bqL
  let r := bqStep s.bqCoef (s.getS a).r s.bqR
  .next ({ s with bqL := l.2, bqR := r.2 }.putS d ⟨l.1, r.1⟩)

end Sys2Proof.Machine
end

