-- ==== Sys2Proof/Machine/Engine.lean ====
section
/-! DEFINITION. Engine.lean: the meanings of the control and time-conversion instructions (42_engine.md R315-R324). -/

namespace Sys2Proof.Machine

/-- END, R315: the frame ends with output OACC; `pc` is not advanced. -/
def execEnd (s : State) : Result := .next (s.finishFrame s.oacc)
/-- NOP, R316. -/
def execNop (s : State) : Result := .next s.advance
/-- SKIPEV, R318: the next instruction runs only if `POS mod n = 0`. `n = 0` never
decodes (DESIGN CHOICE, assumption 15). -/
def execSkipev (n : BitVec 16) (s : State) : Result :=
  .next { s with pc := if s.pos.toNat % skipPeriod n = 0 then s.pc + 1 else s.pc + 2 }
/-- OUTADD, R321: no flags. -/
def execOutadd (a : RegIdx) (s : State) : Result :=
  .next { s with oacc := (lanes2 fadd s.oacc (s.getS a)).val }.advance
/-- SEC2FR, R323. -/
def execSec2fr (d a : RegIdx) (s : State) : Result := .next (s.retF d (fmul (s.getF a) s.live.rate))
/-- FR2SEC, R324. -/
def execFr2sec (d a : RegIdx) (s : State) : Result := .next (s.retF d (fdiv (s.getF a) s.live.rate))

end Sys2Proof.Machine
end

