-- ==== Sys2Proof/Machine/Stft.lean ====
section
/-! DEFINITION. Stft.lean: the STFT phase-vocoder unit (43_stft.md) and the meaning of STFT. Every binary32 operation is
one rounding, in the order the rules write them; none writes FFLAGS. -/

namespace Sys2Proof.Machine

/-- A complex value `(re, im)`. -/
abbrev Cplx := Word × Word

/-! ## FFT/IFFT engine (R350-R353) -/

/-- The low `k` bits of `i` reversed, onto `acc`. -/
def bitrevLoop : Nat → Nat → Nat → Nat
  | 0, _, acc => acc
  | k + 1, i, acc => bitrevLoop k (i / 2) (2 * acc + i % 2)

/-- `bitrev_k(i)` (R350). -/
def bitrev (k i : Nat) : Nat := bitrevLoop k i 0

/-- Element `i` of a work array. -/
def cplxAt (a : Array Cplx) (i : Nat) : Cplx := a.getD i (zeroW, zeroW)

/-- `Butterfly(A, p, q, t, dir)` (R351); `fwd` is the forward direction. -/
def butterfly (fwd : Bool) (a : Array Cplx) (p q t : Nat) : Array Cplx :=
  let tw := twiddleTable.getD t (zeroW, zeroW)
  let wr := tw.1
  let wi := if fwd then fneg tw.2 else tw.2
  let u := cplxAt a p
  let v := cplxAt a q
  let tr := (fsub (fmul wr v.1).val (fmul wi v.2).val).val
  let ti := (fadd (fmul wr v.2).val (fmul wi v.1).val).val
  (a.setIfInBounds p ((fadd u.1 tr).val, (fadd u.2 ti).val)).setIfInBounds q ((fsub u.1 tr).val, (fsub u.2 ti).val)

/-- The butterflies of one group of length `2 * half` from `base` (R350). -/
def fftGroup (fwd : Bool) (half step base : Nat) (a : Array Cplx) : Array Cplx :=
  (List.range half).foldl (fun a j => butterfly fwd a (base + j) (base + j + half) (j * step)) a

/-- The stage of length `len` (R350). -/
def fftStage (fwd : Bool) (len : Nat) (a : Array Cplx) : Array Cplx :=
  (List.range (Config.fftN / len)).foldl (fun a g => fftGroup fwd (len / 2) (Config.fftN / len) (g * len) a) a

/-- `FFT(a, dir)` (R350): bit-reversed input, then the stages of length 2, 4, ..., N. -/
def fft (fwd : Bool) (a : Array Cplx) : Array Cplx :=
  let k := Config.fftN.log2
  let start := ((List.range Config.fftN).map fun i => cplxAt a (bitrev k i)).toArray
  (List.range k).foldl (fun a j => fftStage fwd (2 ^ (j + 1)) a) start

/-! ## Extraction (R348) -/

/-- The windowed frame of the `N` most recent inputs, oldest first; `hw` is the cursor after the current write. -/
def extractFrame (hw : Nat) (hist : Cells) : Array Cplx :=
  ((List.range Config.fftN).map fun (n : Nat) =>
    ((fmul (cellGet hist (ringAt hw ((n : Int) - Config.fftN) Config.ringLen)) (windowTable.getD n zeroW)).val,
      zeroW)).toArray

/-! ## Analysis (R360-R366) -/

/-- `Analyse(c, k, (re, im))` (R360). -/
def analyseBin (k : Nat) (x : Cplx) (ch : StftChan) : StftChan :=
  let mag := (fsqrt (fadd (fmul x.1 x.1).val (fmul x.2 x.2).val).val).val
  let ph := fatan2 x.2 x.1
  let d := (fsub ph (cellGet ch.anaPh k)).val
  let r := (fsub d (nomTable.getD k zeroW)).val
  let w := wrapPi r
  let dev := (fmul w devK).val
  { ch with
    anaFrq := cellSet ch.anaFrq k (fadd (toF k) dev).val
    anaMag := cellSet ch.anaMag k mag
    anaPh := cellSet ch.anaPh k ph
    env := cellSet ch.env k
      (fadd (fmul Config.params.envAlpha (cellGet ch.env k)).val (fmul envBeta mag).val).val }

/-- The analysis of every bin, in ascending order (R346). -/
def analyse (x : Array Cplx) (ch : StftChan) : StftChan :=
  (List.range Config.numBins).foldl (fun ch k => analyseBin k (cplxAt x k) ch) ch

/-! ## Shift (R370-R374) -/

/-- The shift factor (R372). -/
def shiftFactor (p : Params) : Word := fexp2 (fmul p.stftRange p.stftCtrl).val

/-- One source bin of `Shift(c, f)` (R371): magnitudes accumulate, the frequency is overwritten. A product that is not
finite, which R371 excludes, maps nowhere (DESIGN CHOICE, assumption 13). -/
def shiftBin (f : Word) (k : Nat) (ch : StftChan) : StftChan :=
  let v := (fmul (toF k) f).val
  let dst := roundHA v
  if isFinite v && 0 ≤ dst && dst ≤ (Config.fftN / 2 : Nat) then
    let j := dst.toNat
    { ch with
      synMag := cellSet ch.synMag j (fadd (cellGet ch.synMag j) (cellGet ch.anaMag k)).val
      synFrq := cellSet ch.synFrq j (fmul (cellGet ch.anaFrq k) f).val }
  else ch

/-- `Shift(c, f)`: SYN_MAG and SYN_FRQ cleared (R370), then every source bin in ascending order (R371). -/
def shiftBins (f : Word) (ch : StftChan) : StftChan :=
  (List.range Config.numBins).foldl (fun ch k => shiftBin f k ch) { ch with synMag := [], synFrq := [] }

/-! ## Resynthesis (R378-R381) -/

/-- The phase increment of bin `j` for one hop (R378). -/
def phaseInc (j : Nat) (ch : StftChan) : Word :=
  (fadd (fmul (fsub (cellGet ch.synFrq j) (toF j)).val synK).val (nomTable.getD j zeroW)).val

/-- Phase accumulation of bin `j` (R379). -/
def accumulatePhase (j : Nat) (ch : StftChan) : StftChan :=
  { ch with synPh := cellSet ch.synPh j (wrapPi (fadd (cellGet ch.synPh j) (phaseInc j ch)).val) }

/-- The accumulated phases of every bin. -/
def accumulatePhases (ch : StftChan) : StftChan :=
  (List.range Config.numBins).foldl (fun ch j => accumulatePhase j ch) ch

/-- The complex value of bin `j` (R380). -/
def synthValue (ch : StftChan) (j : Nat) : Cplx :=
  ((fmul (cellGet ch.synMag j) (fcos (cellGet ch.synPh j))).val,
    (fmul (cellGet ch.synMag j) (fsin (cellGet ch.synPh j))).val)

/-- The completed spectrum: bins `0..N/2` as built, `N/2+1..N-1` the conjugates of `N/2-1..1` (R381). -/
def spectrum (ch : StftChan) : Array Cplx :=
  let y := ((List.range Config.numBins).map (synthValue ch)).toArray
  ((List.range Config.fftN).map fun i =>
    if i ≤ Config.fftN / 2 then cplxAt y i
    else ((cplxAt y (Config.fftN - i)).1, fneg (cplxAt y (Config.fftN - i)).2)).toArray

/-! ## Overlap-add (R385, R386) -/

/-- One sample of the overlap-add (R386). -/
def overlapBin (ow : Nat) (z : Array Cplx) (n : Nat) (out : Cells) : Cells :=
  let o := (fdiv (fmul (cplxAt z n).1 (windowTable.getD n zeroW)).val (toF Config.fftN)).val
  let p := ringAt ow n Config.ringLen
  cellSet out p (fadd (cellGet out p) o).val

/-- `OverlapAdd(c, z)` (R386). -/
def overlapAdd (ow : Nat) (z : Array Cplx) (ch : StftChan) : StftChan :=
  { ch with out := (List.range Config.fftN).foldl (fun out n => overlapBin ow z n out) ch.out }

/-! ## Shift step and invocation (R345, R346) -/

/-- The shift step of one channel (R346). -/
def shiftChan (f : Word) (hw ow : Nat) (ch : StftChan) : StftChan :=
  let ch1 := accumulatePhases (shiftBins f (analyse (fft true (extractFrame hw ch.hist)) ch))
  overlapAdd ow (fft false (spectrum ch1)) ch1

/-- `ShiftStep()` without its HOP_CNT (R346): `ow` advances before either channel's frame is added. -/
def shiftStep (f : Word) (u : Stft) : Stft :=
  let ow := ringAt u.ow Config.hop Config.ringLen
  { u with ow := ow, l := shiftChan f u.hw ow u.l, r := shiftChan f u.hw ow u.r }

/-- The input appended at the history write cursor, and `hc` counted (R345). -/
def stftAppend (x : Sample) (u : Stft) : Stft :=
  { u with
    l := { u.l with hist := cellSet u.l.hist u.hw x.l }
    r := { u.r with hist := cellSet u.r.hist u.hw x.r }
    hw := ringAdv u.hw Config.ringLen
    hc := u.hc + 1 }

/-- The output emitted at the read cursor, its slot zeroed, the cursor advanced (R345). -/
def stftEmit (u : Stft) : Sample × Stft :=
  (⟨cellGet u.l.out u.orr, cellGet u.r.out u.orr⟩,
    { u with
      l := { u.l with out := cellSet u.l.out u.orr zeroW }
      r := { u.r with out := cellSet u.r.out u.orr zeroW }
      orr := ringAdv u.orr Config.ringLen })

/-- The unit after the append: a shift step is due (R345: `hc = H`). -/
def shiftDue (u : Stft) : Bool := u.hc == Config.hop

/-- One invocation of the unit (R345). -/
def stftInvoke (p : Params) (x : Sample) (u : Stft) : Sample × Stft :=
  let u1 := stftAppend x u
  stftEmit (if shiftDue u1 then shiftStep (shiftFactor p) { u1 with hc := 0 } else u1)

/-- STFT, R345, R346. -/
def execStft (d a : RegIdx) (s : State) : Result :=
  let r := stftInvoke s.live (s.getS a) s.stft
  let hops := if shiftDue (stftAppend (s.getS a) s.stft) then s.hopCnt + 1 else s.hopCnt
  .next ({ s with stft := r.2, hopCnt := hops }.putS d r.1)

end Sys2Proof.Machine
end

