-- ==== Sys2Proof/Machine/Dispatch.lean ====
section
/-! DEFINITION. Dispatch.lean: one arm per instruction. -/

namespace Sys2Proof.Machine

/-- The meaning of an instruction. -/
def exec (i : Instr) (s : State) : Host.Outcome State Fault Refusal :=
  match i with
  | .endp => Sys2Proof.Machine.execEnd s
  | .nop => Sys2Proof.Machine.execNop s
  | .skipev n => Sys2Proof.Machine.execSkipev n s
  | .ldi d imm => Sys2Proof.Machine.execLdi d imm s
  | .ldp d p => Sys2Proof.Machine.execLdp d p s
  | .outadd a => Sys2Proof.Machine.execOutadd a s
  | .sadd d a b => Sys2Proof.Machine.execSadd d a b s
  | .ssub d a b => Sys2Proof.Machine.execSsub d a b s
  | .smul d a b => Sys2Proof.Machine.execSmul d a b s
  | .sdiv d a b => Sys2Proof.Machine.execSdiv d a b s
  | .saddf d a b => Sys2Proof.Machine.execSaddf d a b s
  | .ssubf d a b => Sys2Proof.Machine.execSsubf d a b s
  | .smulf d a b => Sys2Proof.Machine.execSmulf d a b s
  | .sdivf d a b => Sys2Proof.Machine.execSdivf d a b s
  | .sclip d a b c => Sys2Proof.Machine.execSclip d a b c s
  | .swrap d a b c => Sys2Proof.Machine.execSwrap d a b c s
  | .slin d a b c e => Sys2Proof.Machine.execSlin d a b c e s
  | .smov d a => Sys2Proof.Machine.execSmov d a s
  | .spack d a b => Sys2Proof.Machine.execSpack d a b s
  | .sgetl d a => Sys2Proof.Machine.execSgetl d a s
  | .sgetr d a => Sys2Proof.Machine.execSgetr d a s
  | .fadd d a b => Sys2Proof.Machine.execFadd d a b s
  | .fsub d a b => Sys2Proof.Machine.execFsub d a b s
  | .fmul d a b => Sys2Proof.Machine.execFmul d a b s
  | .fdiv d a b => Sys2Proof.Machine.execFdiv d a b s
  | .fmov d a => Sys2Proof.Machine.execFmov d a s
  | .brd d a => Sys2Proof.Machine.execBrd d a s
  | .brd1 d a ch => Sys2Proof.Machine.execBrd1 d a ch s
  | .bwr a b => Sys2Proof.Machine.execBwr a b s
  | .rscale d a => Sys2Proof.Machine.execRscale d a s
  | .sec2fr d a => Sys2Proof.Machine.execSec2fr d a s
  | .fr2sec d a => Sys2Proof.Machine.execFr2sec d a s
  | .dly d a => Sys2Proof.Machine.execDly d a s
  | .comb d a => Sys2Proof.Machine.execComb d a s
  | .biq d a => Sys2Proof.Machine.execBiq d a s
  | .stft d a => Sys2Proof.Machine.execStft d a s

end Sys2Proof.Machine
end

