-- ==== Sys2Proof/Machine/Sequencer.lean ====
section
/-! DEFINITION. Sequencer.lean: the block and frame protocol of 42_engine.md R300-R306, fetch and decode (R302,
30_encoding.md R157, 60_exceptions.md R501, R502) and the two resets (70_reset_and_hazards.md R550-R552). -/

namespace Sys2Proof.Machine

/-! ## Commit and blocks -/

/-- None of the four inputs of the coefficients differs in its bit pattern (R306). -/
def sameBqInputs (p q : Params) : Bool :=
  p.bqMode == q.bqMode && p.bqFreq == q.bqFreq && p.bqQ == q.bqQ && p.rate == q.rate

/-- `Commit()`: LIVE <- SHADOW (R305), then the derived values (R306; DEDUCED, assumption 12: LIVE before the copy is the
value at the previous commit). -/
def State.commit (s : State) : State :=
  { s with
    live := s.shadow
    dlyFrames := dlyFramesOf s.shadow
    combFrames := combFramesOf s.shadow
    bqCoef := if sameBqInputs s.live s.shadow then s.bqCoef else bqCompute s.shadow }

/-- `BlockStart(F)` (R300). -/
def State.blockStart (s : State) (frames : BitVec 32) : State :=
  let t := { { s with blockCnt := s.blockCnt + 1 }.commit with
    blkRun := s.ctrlRun, blkF := frames, pos := 0, inBlock := true }
  if frames = 0 then t.blockEnd else t

/-! ## Frames -/

/-- A frame step is enabled (R302): `IN_BLOCK = 1` and `POS < BLK_F`. -/
def State.frameEnabled (s : State) : Bool := s.inBlock && s.pos.toNat < s.blkF.toNat

/-- The program runs in this frame (R302): `BLK_RUN = 1` and `STATUS.FAULT = 0`. -/
def State.programRuns (s : State) : Bool := s.blkRun && !s.fault

/-- The opening of `FrameStep(xin)` (R302): the frame is counted; if the program runs, `S[0]`, `OACC` and `pc` are set and
the instruction loop begins, otherwise the frame ends with output `(+0.0, +0.0)`. -/
def State.frameOpen (s : State) (x : Sample) : State :=
  let t := { s with frameCnt := s.frameCnt + 1 }
  if s.programRuns then { (t.setS 0 x) with oacc := Sample.zero, pc := 0, inFrame := true }
  else t.finishFrame Sample.zero

/-! ## Fetch and decode -/

/-- `PMEM[i]` (00_scope.md R9). -/
def State.pmem (s : State) (i : Nat) : Word := s.mem.word (pmemAddr i)

/-- What the fetch at `pc` gives (R302): the instruction to execute, or the state after the fault it raises. -/
inductive Fetched where
  /-- the decoded instruction -/
  | instr (i : Instr)
  /-- the state after PC_OVERRUN or ILLEGAL_INSN -/
  | faulted (s : State)
deriving DecidableEq, Repr

/-- Fetch and decode at `pc` (R302; 60_exceptions.md R506 for the order of the checks). -/
def State.fetch (s : State) : Fetched :=
  if Config.progLen ≤ s.pc.toNat then .faulted (s.raiseFault causeOverrun s.pc 0)
  else
    let w := s.pmem s.pc.toNat
    match decode w with
    | .ok i => .instr i
    | .error _ => .faulted (s.raiseFault causeIllegal s.pc w)

/-! ## Resets -/

/-- Soft reset (70_reset_and_hazards.md R552): every state element at its reset value but `BUFMEM`, `IN_BLOCK`, `BLK_F`
and `POS`. The MODEL fields are no state of the spec's and are kept (DESIGN CHOICE, assumption 17). -/
def State.softReset (s : State) : State :=
  { State.reset with
    mem := s.mem.clearPmem
    inBlock := s.inBlock
    blkF := s.blkF
    pos := s.pos
    inFrame := s.inFrame
    draws := s.draws
    inputs := s.inputs
    emitted := s.emitted }

/-- Power-on reset (70_reset_and_hazards.md R551): a fresh draw of the unspecified `BUFMEM`
(DESIGN CHOICE, assumptions 5, 17). -/
def State.powerOnReset (s : State) : State :=
  { State.reset with
    mem := Memory.powerOn (s.draws + 1)
    draws := s.draws + 1
    inputs := s.inputs
    emitted := s.emitted }

end Sys2Proof.Machine
end

