-- ==== Sys2Proof/Machine/HostBus.lean ====
section
/-! DEFINITION. HostBus.lean: the host bus (20_memory.md): the address map, the register map of 10_state.md R59, the setter
clamps, the STOP condition, HostRead and HostWrite with their bus errors (60_exceptions.md R510). -/

namespace Sys2Proof.Machine

/-! ## Address map -/

/-- The control registers of 10_state.md R59. -/
inductive Reg where
  | id | version | ctrl | status | faultCause | faultPc | faultInsn | irqEn | fflags | frameCnt | blockCnt | hopCnt
  | rate | bufLen | bufChans | bufRate | dlyTime | dlyMix | combTime | bqMode | bqFreq | bqQ | stftCtrl | stftRange
  | bqB0 | bqB1 | bqB2 | bqA1 | bqA2 | dlyFrames | combFrames
deriving DecidableEq, Repr

/-- The register at a control offset (10_state.md R59); every other offset is unmapped (20_memory.md R103). -/
def regAt : Nat → Option Reg
  | 0x000 => some .id
  | 0x004 => some .version
  | 0x008 => some .ctrl
  | 0x00C => some .status
  | 0x010 => some .faultCause
  | 0x014 => some .faultPc
  | 0x018 => some .faultInsn
  | 0x01C => some .irqEn
  | 0x020 => some .fflags
  | 0x024 => some .frameCnt
  | 0x028 => some .blockCnt
  | 0x02C => some .hopCnt
  | 0x030 => some .rate
  | 0x034 => some .bufLen
  | 0x038 => some .bufChans
  | 0x03C => some .bufRate
  | 0x040 => some .dlyTime
  | 0x044 => some .dlyMix
  | 0x048 => some .combTime
  | 0x050 => some .bqMode
  | 0x054 => some .bqFreq
  | 0x058 => some .bqQ
  | 0x060 => some .stftCtrl
  | 0x064 => some .stftRange
  | 0x070 => some .bqB0
  | 0x074 => some .bqB1
  | 0x078 => some .bqB2
  | 0x07C => some .bqA1
  | 0x080 => some .bqA2
  | 0x084 => some .dlyFrames
  | 0x088 => some .combFrames
  | _ => none

/-- What a host address names (20_memory.md R102). -/
inductive HostLoc where
  /-- a control register -/
  | reg (r : Reg)
  /-- `SHADOW.P[i]` -/
  | param (i : Nat)
  /-- `PMEM[i]` -/
  | pmem (i : Nat)
  /-- `ENV[c][k]`, `k < N` -/
  | env (c k : Nat)
  /-- `BUFMEM[i]` -/
  | buf (i : Nat)
deriving DecidableEq, Repr

/-- The location at a host byte address; nothing if it is misaligned or unmapped (20_memory.md R102, R108, R111). -/
def hostLoc (addr : Word) : Option HostLoc :=
  let a := addr.toNat
  if a % 4 ≠ 0 then none
  else if a < 0x1000 then (regAt a).map .reg
  else if Config.paramBase ≤ a ∧ a < Config.paramBase + 4 * Config.nparam then some (.param ((a - Config.paramBase) / 4))
  else if Config.inPmem a then some (.pmem ((a - Config.pmemBase) / 4))
  else if Config.envBase ≤ a ∧ a < Config.envBase + 4 * (Config.chans * Config.fftN) then
    some (.env ((a - Config.envBase) / 4 / Config.fftN) ((a - Config.envBase) / 4 % Config.fftN))
  else if Config.inBuf a then some (.buf ((a - Config.bufBase) / 4))
  else none

/-! ## Setter clamps (20_memory.md R116) -/

/-- `clampF(v, lo, hi, dflt)`. -/
def clampF (v lo hi dflt : Word) : Word :=
  if isNaN v then dflt else if flt v lo then lo else if flt hi v then hi else v

/-- `clampU(v, lo, hi)`. -/
def clampU (v lo hi : Word) : Word := BitVec.ofNat 32 (min (max v.toNat lo.toNat) hi.toNat)

/-- RATE and BUF_RATE (10_state.md R72, R75). -/
def clampRate (v : Word) : Word :=
  clampF v Config.params.rateMin Config.params.rateMax Config.params.rateReset
/-- BUF_LEN (R73). -/
def clampBufLen (v : Word) : Word := clampU v 0 (BitVec.ofNat 32 Config.bufCap)
/-- BUF_CHANS (R74): 0 and 1 store 1, `>= 2` stores 2. -/
def clampBufChans (v : Word) : BitVec 2 := (clampU v 1 2).setWidth 2
/-- DLY_TIME (R76). -/
def clampDlyTime (v : Word) : Word := clampF v zeroW maxF 0x3E800000#32
/-- DLY_MIX (R77). -/
def clampDlyMix (v : Word) : Word := clampF v zeroW oneF zeroW
/-- COMB_TIME (R78). -/
def clampCombTime (v : Word) : Word := clampF v zeroW maxF 0x3C23D70A#32
/-- BQ_MODE (R79): any value `>= 2` stores 2. -/
def clampBqMode (v : Word) : BitVec 2 := (clampU v 0 2).setWidth 2
/-- BQ_FREQ (R80). -/
def clampBqFreq (v : Word) : Word := clampF v Config.params.bqFmin maxF 0x447A0000#32
/-- BQ_Q (R81). -/
def clampBqQ (v : Word) : Word := clampF v Config.params.bqQmin Config.params.bqQmax oneF
/-- STFT_CTRL (R82). -/
def clampStftCtrl (v : Word) : Word := clampF v negOneF oneF zeroW
/-- STFT_RANGE (R83). -/
def clampStftRange (v : Word) : Word := clampF v zeroW Config.params.rangeMax Config.params.rReset

/-! ## Reads -/

/-- STATUS as the host reads it (10_state.md R63). -/
def State.statusWord (s : State) : Word :=
  (BitVec.ofBool s.blkRun ++ BitVec.ofBool s.busErr ++ BitVec.ofBool s.fault).setWidth 32

/-- What a host read of a register returns (10_state.md R58-R85): a shadowed register its SHADOW copy, a reserved bit 0. -/
def State.readReg (s : State) : Reg → Word
  | .id => Config.idConst
  | .version => Config.versionConst
  | .ctrl => (BitVec.ofBool s.ctrlRun).setWidth 32
  | .status => s.statusWord
  | .faultCause => s.faultCause.setWidth 32
  | .faultPc => s.faultPc.setWidth 32
  | .faultInsn => s.faultInsn
  | .irqEn => s.irqEn.setWidth 32
  | .fflags => s.fflags.setWidth 32
  | .frameCnt => s.frameCnt
  | .blockCnt => s.blockCnt
  | .hopCnt => s.hopCnt
  | .rate => s.shadow.rate
  | .bufLen => s.shadow.bufLen
  | .bufChans => s.shadow.bufChans.setWidth 32
  | .bufRate => s.shadow.bufRate
  | .dlyTime => s.shadow.dlyTime
  | .dlyMix => s.shadow.dlyMix
  | .combTime => s.shadow.combTime
  | .bqMode => s.shadow.bqMode.setWidth 32
  | .bqFreq => s.shadow.bqFreq
  | .bqQ => s.shadow.bqQ
  | .stftCtrl => s.shadow.stftCtrl
  | .stftRange => s.shadow.stftRange
  | .bqB0 => s.bqCoef.b0
  | .bqB1 => s.bqCoef.b1
  | .bqB2 => s.bqCoef.b2
  | .bqA1 => s.bqCoef.a1
  | .bqA2 => s.bqCoef.a2
  | .dlyFrames => s.dlyFrames
  | .combFrames => s.combFrames

/-- The envelope of channel `c`. -/
def Stft.envOf (u : Stft) (c : Nat) : Cells := if c = 0 then u.l.env else u.r.env

/-- What a host read of a location returns (20_memory.md R103-R107). -/
def State.readLoc (s : State) : HostLoc → Word
  | .reg r => s.readReg r
  | .param i => cellGet s.shadow.p i
  | .pmem i => s.pmem i
  | .env c k => if k < Config.numBins then cellGet (s.stft.envOf c) k else 0
  | .buf i => s.bufGet i

/-! ## Writes -/

/-- The STOP condition (20_memory.md R117). -/
def State.stopped (s : State) : Bool := !s.ctrlRun && !s.blkRun

/-- A write of a STOP location: accepted only while stopped (20_memory.md R117). -/
def State.ifStopped (s t : State) : Option State := if s.stopped then some t else none

/-- A write of CTRL (10_state.md R62): SRST overrides the other bits; BUF_INIT is judged against RUN's old value, and if it
is refused the whole write is. -/
def State.writeCtrl (s : State) (w : Word) : Option State :=
  if w.getLsbD 1 then some s.softReset
  else if w.getLsbD 2 then s.ifStopped { s with mem := s.mem.bufInit, ctrlRun := w.getLsbD 0 }
  else some { s with ctrlRun := w.getLsbD 0 }

/-- The state with the SHADOW copies `p`. -/
def State.setShadow (s : State) (p : Params) : State := { s with shadow := p }

/-- A host write of a register (10_state.md R58-R85): `none` is a bus error (20_memory.md R117, R118). -/
def State.writeReg (s : State) (r : Reg) (w : Word) : Option State :=
  match r with
  | .ctrl => s.writeCtrl w
  | .status => some (s.clearStatus w)
  | .irqEn => some { s with irqEn := w.extractLsb' 0 2 }
  | .fflags => some (s.clearFlags w)
  | .rate => s.ifStopped (s.setShadow { s.shadow with rate := clampRate w })
  | .bufLen => s.ifStopped (s.setShadow { s.shadow with bufLen := clampBufLen w })
  | .bufChans => s.ifStopped (s.setShadow { s.shadow with bufChans := clampBufChans w })
  | .bufRate => s.ifStopped (s.setShadow { s.shadow with bufRate := clampRate w })
  | .dlyTime => some (s.setShadow { s.shadow with dlyTime := clampDlyTime w })
  | .dlyMix => some (s.setShadow { s.shadow with dlyMix := clampDlyMix w })
  | .combTime => some (s.setShadow { s.shadow with combTime := clampCombTime w })
  | .bqMode => some (s.setShadow { s.shadow with bqMode := clampBqMode w })
  | .bqFreq => some (s.setShadow { s.shadow with bqFreq := clampBqFreq w })
  | .bqQ => some (s.setShadow { s.shadow with bqQ := clampBqQ w })
  | .stftCtrl => some (s.setShadow { s.shadow with stftCtrl := clampStftCtrl w })
  | .stftRange => some (s.setShadow { s.shadow with stftRange := clampStftRange w })
  | .id => none
  | .version => none
  | .faultCause => none
  | .faultPc => none
  | .faultInsn => none
  | .frameCnt => none
  | .blockCnt => none
  | .hopCnt => none
  | .bqB0 => none
  | .bqB1 => none
  | .bqB2 => none
  | .bqA1 => none
  | .bqA2 => none
  | .dlyFrames => none
  | .combFrames => none

/-- A host write of a location: `none` is a bus error (20_memory.md R104-R107). -/
def State.writeLoc (s : State) (loc : HostLoc) (w : Word) : Option State :=
  match loc with
  | .reg r => s.writeReg r w
  | .param i => some (s.setShadow { s.shadow with p := cellSet s.shadow.p i w })
  | .pmem i => s.ifStopped { s with mem := s.mem.setWord (pmemAddr i) w }
  | .env _ _ => none
  | .buf i => s.ifStopped (s.bufSet i w)

/-! ## The two bus operations (20_memory.md R101) -/

/-- The block's answer is handed out. -/
def State.emit (s : State) (o : Output) : State := { s with emitted := o :: s.emitted }

/-- `raise BusError`: STATUS.BUSERR and nothing else (60_exceptions.md R510). -/
def State.busError (s : State) : State := { s with busErr := true }

/-- `HostRead(addr)`: no side effect but the bus error's (20_memory.md R113). -/
def State.hostRead (s : State) (addr : Word) : State :=
  match hostLoc addr with
  | some loc => s.emit (.readResp (s.readLoc loc) true)
  | none => s.busError.emit (.readResp 0 false)

/-- `HostWrite(addr, w)`. -/
def State.hostWrite (s : State) (addr w : Word) : State :=
  match (hostLoc addr).bind fun loc => s.writeLoc loc w with
  | some t => t.emit (.writeResp true)
  | none => s.busError.emit (.writeResp false)

end Sys2Proof.Machine
end

