-- ==== Sys2Proof/Machine/Environment.lean ====
section
/-! DEFINITION. Environment.lean: what one offer of the world outside does (00_scope.md R13, 20_memory.md R119, R121), and
the placing of one instruction word where the next step fetches. -/

namespace Sys2Proof.Machine

/-- One offer of the driver, a host agent or the platform, between two sequencer steps. A driver call that the protocol
does not enable stops the machine (42_engine.md R300-R302; DEDUCED, assumption 4). -/
def State.accept (s : State) : Input → Result
  | .blockStart frames => if s.inBlock then .fault .blockStartNotEnabled else .next (s.blockStart frames)
  | .frame x => if s.frameEnabled then .next (s.frameOpen x) else .fault .frameNotEnabled
  | .hostRead addr => .next (s.hostRead addr)
  | .hostWrite addr w => .next (s.hostWrite addr w)
  | .powerOn => .next s.powerOnReset

/-- A step outside a frame program: the next offer, or nothing if there is none (60_exceptions.md R524). -/
def State.acceptNext (s : State) : Result :=
  match s.inputs with
  | [] => .next s
  | i :: rest => ({ s with inputs := rest } : State).accept i

/-- `s` in a frame whose program is running, its `pc` in range: what a fetch takes (42_engine.md R302; DESIGN CHOICE, assumption 14). -/
def State.openForFetch (s : State) : State :=
  { s with
    inFrame := true
    inBlock := true
    blkRun := true
    fault := false
    blkF := if s.pos.toNat < s.blkF.toNat then s.blkF else s.pos + 1
    pc := if s.pc.toNat < Config.progLen then s.pc else 0 }

/-- The word placed where the next fetch reads it. -/
def State.placeWord (s : State) (w : Word) : State :=
  let t := s.openForFetch
  { t with mem := t.mem.setWord (pmemAddr t.pc.toNat) w }

end Sys2Proof.Machine
end

