-- ==== Sys2Proof/Machine/Step.lean ====
section
/-! DEFINITION. Step.lean: one step of the machine. Inside a frame program a step is one instruction (or the fault its fetch
raises); outside, a step is one offer of the world outside (DESIGN CHOICE, assumption 1). -/

namespace Sys2Proof.Machine

/-- One step: 42_engine.md R302's loop body inside a frame, one driver call or host access outside (20_memory.md R119). -/
def step (s : State) : Host.Outcome State Fault Refusal :=
  if s.inFrame then
    match s.fetch with
    | .instr i => exec i s
    | .faulted t => .next t
  else s.acceptNext

/-- `s` with the `nbits`-bit table word `w` (the bits above are 0) where the next step fetches. -/
def State.withFetchWord (s : State) (nbits w : Nat) : State := s.placeWord (BitVec.ofNat 32 (w % 2 ^ nbits))

end Sys2Proof.Machine
end

