-- ==== Sys2Proof/Safety.lean ====
section
/-! DEFINITION. Safety.lean: the invariant of the block's state and the run of one frame program, the terms in which the
whole-machine claims are made. -/

namespace Sys2Proof.Machine

/-- `v` is no NaN and lies in `[lo, hi]` in the sense of the setter clamp (20_memory.md R116). -/
def inRangeF (v lo hi : Word) : Bool := !isNaN v && !flt v lo && !flt hi v

/-- Every shadowed register holds a value its setter clamp can leave (10_state.md R72-R83) and `P` has `NPARAM` words. -/
def Params.inRange (p : Params) : Bool :=
  inRangeF p.rate Config.params.rateMin Config.params.rateMax
    && p.bufLen.toNat ≤ Config.bufCap
    && (p.bufChans == 1 || p.bufChans == 2)
    && inRangeF p.bufRate Config.params.rateMin Config.params.rateMax
    && inRangeF p.dlyTime zeroW maxF
    && inRangeF p.dlyMix zeroW oneF
    && inRangeF p.combTime zeroW maxF
    && p.bqMode.toNat ≤ 2
    && inRangeF p.bqFreq Config.params.bqFmin maxF
    && inRangeF p.bqQ Config.params.bqQmin Config.params.bqQmax
    && inRangeF p.stftCtrl negOneF oneF
    && inRangeF p.stftRange zeroW Config.params.rangeMax
    && cellsWf Config.nparam p.p

/-- A Delay or Comb unit with a ring of `len` words: the cursor stays in the ring (41_buffer.md R270). -/
def RingUnit.wf (len : Nat) (u : RingUnit) : Bool := cellsWf len u.l && cellsWf len u.r && decide (u.w < len)

/-- The arrays of one STFT channel have the lengths of 10_state.md R89. -/
def StftChan.wf (ch : StftChan) : Bool :=
  cellsWf Config.ringLen ch.hist && cellsWf Config.ringLen ch.out
    && cellsWf Config.numBins ch.anaPh && cellsWf Config.numBins ch.anaMag && cellsWf Config.numBins ch.anaFrq
    && cellsWf Config.numBins ch.synPh && cellsWf Config.numBins ch.synMag && cellsWf Config.numBins ch.synFrq
    && cellsWf Config.numBins ch.env

/-- The STFT cursors lie in their ring and `hc` in `[0, H)` (10_state.md R89). -/
def Stft.wf (u : Stft) : Bool :=
  u.l.wf && u.r.wf && decide (u.hw < Config.ringLen) && decide (u.orr < Config.ringLen)
    && decide (u.ow < Config.ringLen) && decide (u.hc < Config.hop)

/-- The invariant of the block: what every step keeps. -/
structure State.Inv (s : State) : Prop where
  /-- the byte memory is in its canonical form -/
  memory : s.mem.wf = true
  /-- `pc` lies in `[0, PROG_LEN + 1]` (10_state.md R55) -/
  pcRange : s.pc.toNat ≤ Config.progLen + 1
  /-- the SHADOW copies lie in their setters' ranges -/
  shadowRange : s.shadow.inRange = true
  /-- the LIVE copies lie in their setters' ranges -/
  liveRange : s.live.inRange = true
  /-- the STFT unit's cursors and arrays are in range -/
  stftUnit : s.stft.wf = true
  /-- the Delay unit's cursor and ring are in range -/
  delayUnit : s.dly.wf Config.dlyLen = true
  /-- the Comb unit's cursor and ring are in range -/
  combUnit : s.comb.wf Config.combLen = true
  /-- `DLY_FRAMES` lies in `[1, DLY_LEN - 1]` (44_effects.md R420) -/
  delayTap : 1 ≤ s.dlyFrames.toNat ∧ s.dlyFrames.toNat ≤ Config.dlyLen - 1
  /-- `COMB_FRAMES` lies in `[1, COMB_LEN - 1]` (44_effects.md R430) -/
  combTap : 1 ≤ s.combFrames.toNat ∧ s.combFrames.toNat ≤ Config.combLen - 1
  /-- an open block has frames left: `POS < BLK_F` (42_engine.md R300,
  R302, R303) -/
  blockOpen : s.inBlock = true → s.pos.toNat < s.blkF.toNat
  /-- `BLK_RUN` stands only inside a block (42_engine.md R303) -/
  runInBlock : s.blkRun = true → s.inBlock = true
  /-- a frame program runs only inside a running block and with no fault pending (42_engine.md R302) -/
  frameRuns : s.inFrame = true → s.blkRun = true ∧ s.fault = false
  /-- only the defined cause codes are produced, and a pending fault has one (60_exceptions.md R500) -/
  causeCode : s.faultCause.toNat ≤ 2 ∧ (s.fault = true → s.faultCause ≠ 0)

/-- At most `k` steps of the frame program in progress, stopping where the frame ends. -/
def runFrame : Nat → State → Host.Outcome State Fault Refusal
  | 0, s => .next s
  | k + 1, s =>
    if s.inFrame then
      match step s with
      | .next t => runFrame k t
      | .fault f => .fault f
      | .refused r => .refused r
    else .next s

end Sys2Proof.Machine
end

