-- ==== Sys2Proof/Certificates/Slice0/Obligations.lean ====
section
/-! DEFINITION. Obligations.lean: the statements for the provers, with the few terms they share. -/

namespace Sys2Proof.Claims

open Sys2Proof.Machine

/-! ## Shared terms -/

/-- The state after fault entry, written out from 60_exceptions.md R503 and 42_engine.md R302, R303: the capture
registers, STATUS.FAULT, the frame's output zero, `POS` advanced, and the block ended after its last frame. Nothing else
changes. -/
def afterFault (s : State) (cause : BitVec 8) (fpc : BitVec 17) (fw : Word) : State :=
  { s with
    faultCause := cause
    faultPc := fpc
    faultInsn := fw
    fault := true
    inFrame := false
    emitted := .frame Sample.zero :: s.emitted
    pos := s.pos + 1
    inBlock := if s.pos + 1 = s.blkF then false else s.inBlock
    blkRun := if s.pos + 1 = s.blkF then false else s.blkRun }

/-- The state after a Sample result: destination, flags ORed in, `pc + 1`; everything else, every byte of memory among it,
as before. -/
def sampleDone (s : State) (d : RegIdx) (v : Sample) (f : FlagSet) : State :=
  { s with sreg := s.sreg.set d.toNat v d.isLt, fflags := s.fflags ||| f, pc := s.pc + 1 }

/-- The state after a scalar result: destination, flags ORed in, `pc + 1`; everything else as before. -/
def scalarDone (s : State) (d : RegIdx) (v : Word) (f : FlagSet) : State :=
  { s with freg := s.freg.set d.toNat v d.isLt, fflags := s.fflags ||| f, pc := s.pc + 1 }

/-- The state after a Sample destination is written and no flag raised. -/
def sampleMoved (s : State) (d : RegIdx) (v : Sample) : State :=
  { s with sreg := s.sreg.set d.toNat v d.isLt, pc := s.pc + 1 }

/-- The state after a scalar destination is written and no flag raised. -/
def scalarMoved (s : State) (d : RegIdx) (v : Word) : State :=
  { s with freg := s.freg.set d.toNat v d.isLt, pc := s.pc + 1 }

/-- The reserved opcodes of 30_encoding.md R156. -/
def reservedOp (n : Nat) : Prop :=
  n ∈ [0x03, 0x07, 0x17, 0x1D, 0x1E, 0x1F, 0x26, 0x27] ∨ (0x2C ≤ n ∧ n ≤ 0x3F)

/-- `match` and `mask` of every row of spec/opcode_table.json. -/
def opcodeTable : List (Nat × Nat) :=
  [(0x00000000, 0xFFFFFFFF), (0x04000000, 0xFFFFFFFF), (0x08000000, 0xFFFF0000), (0x10000000, 0xFC7F0000),
   (0x14000000, 0xFC7FFFC0), (0x18000000, 0xFF8FFFFF), (0x20000000, 0xFC01FFFF), (0x24000000, 0xFC01FFFF),
   (0x28000000, 0xFC01FFFF), (0x2C000000, 0xFC01FFFF), (0x30000000, 0xFC01FFFF), (0x34000000, 0xFC01FFFF),
   (0x38000000, 0xFC01FFFF), (0x3C000000, 0xFC01FFFF), (0x40000000, 0xFC003FFF), (0x44000000, 0xFC003FFF),
   (0x48000000, 0xFC0007FF), (0x4C000000, 0xFC0FFFFF), (0x50000000, 0xFC01FFFF), (0x54000000, 0xFC0FFFFF),
   (0x58000000, 0xFC0FFFFF), (0x60000000, 0xFC01FFFF), (0x64000000, 0xFC01FFFF), (0x68000000, 0xFC01FFFF),
   (0x6C000000, 0xFC01FFFF), (0x70000000, 0xFC0FFFFF), (0x80000000, 0xFC0FFFFF), (0x84000000, 0xFC0DFFFF),
   (0x88000000, 0xFF81FFFF), (0x8C000000, 0xFC0FFFFF), (0x90000000, 0xFC0FFFFF), (0x94000000, 0xFC0FFFFF),
   (0xA0000000, 0xFC0FFFFF), (0xA4000000, 0xFC0FFFFF), (0xA8000000, 0xFC0FFFFF), (0xAC000000, 0xFC0FFFFF)]

/-- The instructions that write FFLAGS (40_sample_arith.md R208). -/
def writesFlags : Instr → Bool
  | .sadd .. | .ssub .. | .smul .. | .sdiv .. | .saddf .. | .ssubf .. | .smulf .. | .sdivf .. | .swrap .. | .slin ..
  | .fadd .. | .fsub .. | .fmul .. | .fdiv .. | .rscale .. | .sec2fr .. | .fr2sec .. => true
  | _ => false

/-- The Sample operations that work lane by lane (40_sample_arith.md R209). -/
def isLaneOp : Instr → Bool
  | .sadd .. | .ssub .. | .smul .. | .sdiv .. | .saddf .. | .ssubf .. | .smulf .. | .sdivf .. | .sclip .. | .swrap ..
  | .slin .. | .smov .. => true
  | _ => false

/-- A Sample with its lanes exchanged. -/
def swapLanes (x : Sample) : Sample := ⟨x.r, x.l⟩

/-- The offsets of the control registers that are read-only (10_state.md R59), STATUS not among them. -/
def readOnlyOffsets : List Nat :=
  [0x000, 0x004, 0x010, 0x014, 0x018, 0x024, 0x028, 0x02C, 0x070, 0x074, 0x078, 0x07C, 0x080, 0x084, 0x088]

/-- The offsets of the stopped-only control registers (10_state.md R59). -/
def stopOffsets : List Nat := [0x030, 0x034, 0x038, 0x03C]

/-- The offsets of the other control registers (10_state.md R59). -/
def writableOffsets : List Nat :=
  [0x008, 0x00C, 0x01C, 0x020, 0x040, 0x044, 0x048, 0x050, 0x054, 0x058, 0x060, 0x064]

/-- An aligned byte address of the host map (20_memory.md R102, R103, R111). -/
def hostMapped (a : Nat) : Prop :=
  a % 4 = 0 ∧
    (a ∈ readOnlyOffsets ∨ a ∈ stopOffsets ∨ a ∈ writableOffsets ∨ (0x20000 ≤ a ∧ a < 0x20100) ∨
      (0x40000 ≤ a ∧ a < 0x40400) ∨ (0x80000 ≤ a ∧ a < 0x82000) ∨ (0x100000 ≤ a ∧ a < 0x200000))

/-- The state in which the world outside offers `i` next. -/
def offer (s : State) (i : Input) : State := { s with inFrame := false, inputs := i :: s.inputs }

/-- The state outside a frame. -/
def idle (s : State) : State := { s with inFrame := false }

/-! ### The shift step of one channel (43_stft.md R346 to R386) -/

/-- The source bins that `Shift` maps to bin `j`, in ascending order (R371). A product that is not finite, which R371
excludes, maps nowhere (DESIGN CHOICE, assumption 13). -/
def sourcesOf (f : Word) (j : Nat) : List Nat :=
  (List.range 513).filter fun k => isFinite (fmul (toF k) f).val && roundHA (fmul (toF k) f).val == (j : Int)

/-- R360 to R366: bin `k` of the analysis, from its spectrum value `x` and the channel before (`ch`) to the one after. -/
def analysisMakes (x : Cplx) (k : Nat) (ch c : StftChan) : Prop :=
  let mag := (fsqrt (fadd (fmul x.1 x.1).val (fmul x.2 x.2).val).val).val
  let ph := fatan2 x.2 x.1
  let w := wrapPi (fsub (fsub ph (cellGet ch.anaPh k)).val (nomRom k)).val
  cellGet c.anaMag k = mag ∧ cellGet c.anaPh k = ph ∧
  cellGet c.anaFrq k = (fadd (toF k) (fmul w devK).val).val ∧
  cellGet c.env k = (fadd (fmul 0x3F666666 (cellGet ch.env k)).val (fmul 0x3DCCCCD0 mag).val).val

/-- R370, R371, R378, R379: bin `j` of the synthesis: the magnitudes of its sources summed from `+0.0` in ascending order,
the last one's frequency (`+0.0` with no source), and the phase moved on by one hop and wrapped. -/
def synthesisMakes (f : Word) (j : Nat) (ch c : StftChan) : Prop :=
  cellGet c.synMag j = (sourcesOf f j).foldl (fun m k => (fadd m (cellGet c.anaMag k)).val) 0 ∧
  cellGet c.synFrq j = (sourcesOf f j).getLast?.elim 0 (fun k => (fmul (cellGet c.anaFrq k) f).val) ∧
  cellGet c.synPh j = wrapPi (fadd (cellGet ch.synPh j)
    (fadd (fmul (fsub (cellGet c.synFrq j) (toF j)).val synK).val (nomRom j)).val).val

/-- R380, R381: entry `i` of the completed spectrum. -/
def spectrumValue (c : StftChan) (i : Nat) : Cplx :=
  let y := fun j => ((fmul (cellGet c.synMag j) (fcos (cellGet c.synPh j))).val,
    (fmul (cellGet c.synMag j) (fsin (cellGet c.synPh j))).val)
  if i ≤ 512 then y i else ((y (1024 - i)).1, fneg (y (1024 - i)).2)

/-- R346 for one channel `ch` that becomes `c`: R348's windowed frame through the forward engine, analysis, shift,
resynthesis, the inverse engine, and R386's overlap-add from slot `ow` on; the history is left alone. -/
def shiftStepMakes (f : Word) (hw ow : Nat) (ch c : StftChan) : Prop :=
  ∃ frame spec : Array Cplx, frame.size = 1024 ∧ spec.size = 1024 ∧
    (∀ n, n < 1024 → cplxAt frame n =
      ((fmul (cellGet ch.hist (((hw : Int) - 1024 + n) % 2048).toNat) (windowRom n)).val, 0)) ∧
    (∀ k, k < 513 → analysisMakes (cplxAt (fft true frame) k) k ch c ∧ synthesisMakes f k ch c) ∧
    (∀ i, i < 1024 → cplxAt spec i = spectrumValue c i) ∧
    (∀ p, p < 2048 → cellGet c.out p =
      let n := (((p : Int) - ow) % 2048).toNat
      if n < 1024 then
        (fadd (cellGet ch.out p) (fdiv (fmul (cplxAt (fft false spec) n).1 (windowRom n)).val 0x44800000).val).val
      else cellGet ch.out p) ∧
    c.hist = ch.hist

/-- R350: the engine's order of work: the input in bit-reversed places, then the stages of length 2, 4, ..., 1024, each group
by group, each group butterfly by butterfly. -/
def engineMakes (fwd : Bool) (a r : Array Cplx) : Prop :=
  ∃ start : Array Cplx, start.size = 1024 ∧
    (∀ i, i < 1024 → ∃ j, j < 1024 ∧ (∀ b, b < 10 → j.testBit b = i.testBit (9 - b)) ∧ cplxAt start i = cplxAt a j) ∧
    r = (List.range 10).foldl (fun A s => (List.range (1024 / 2 ^ (s + 1))).foldl (fun A g =>
      (List.range (2 ^ s)).foldl (fun A j =>
        butterfly fwd A (g * 2 ^ (s + 1) + j) (g * 2 ^ (s + 1) + j + 2 ^ s) (j * (1024 / 2 ^ (s + 1)))) A) A) start

/-- R351: the butterfly of two places `p` and `q` of a work array with twiddle `t`; every other place keeps its value. -/
def butterflyMakes (fwd : Bool) (a : Array Cplx) (p q t : Nat) (b : Array Cplx) : Prop :=
  p < a.size → q < a.size → p ≠ q → t < 512 →
    let wr := (twiddleRom t).1
    let wi := if fwd then fneg (twiddleRom t).2 else (twiddleRom t).2
    let u := cplxAt a p
    let v := cplxAt a q
    let tr := (fsub (fmul wr v.1).val (fmul wi v.2).val).val
    let ti := (fadd (fmul wr v.2).val (fmul wi v.1).val).val
    cplxAt b p = ((fadd u.1 tr).val, (fadd u.2 ti).val) ∧ cplxAt b q = ((fsub u.1 tr).val, (fsub u.2 ti).val) ∧
    b.size = a.size ∧ ∀ i, i ≠ p → i ≠ q → cplxAt b i = cplxAt a i

end Sys2Proof.Claims

open Sys2Proof Sys2Proof.Machine Sys2Proof.Claims

/-! ## Encoding -/

/-- 30_encoding.md sections 1-3: the decoder gives back every well-formed instruction from its word, every operand at every
value. -/
def Obligations.DecodeInvertsEncode : Prop :=
  ∀ i : Instr, i.wf = true → decode (encode i) = .ok i

/-- 30_encoding.md sections 1-3: a word that decodes is the encoding of the well-formed instruction it decodes to, so no
two words mean one instruction. -/
def Obligations.DecodedWordIsItsEncoding : Prop :=
  ∀ (w : Word) (i : Instr), decode w = .ok i → i.wf = true ∧ encode i = w

/-- R165: "A word decodes to the row whose `(w AND mask) = match`, subject to the row's constraints." The masks are those of
the default configuration, and the one constraint they do not hold is SKIPEV's `n != 0`. -/
def Obligations.LegalWordsAreTheTableRows : Prop :=
  ∀ w : Word, (∃ i, decode w = .ok i) ↔
    ∃ row ∈ opcodeTable, w &&& BitVec.ofNat 32 row.2 = BitVec.ofNat 32 row.1 ∧
      (row.1 = 0x08000000 → w.extractLsb' 0 16 ≠ 0)

/-- R164: the worked encodings. -/
def Obligations.WorkedEncodings : Prop :=
  decode 0x20840000 = .ok (.sadd 1 0 2) ∧ decode 0x39B20000 = .ok (.smulf 3 3 1) ∧
  decode 0x10803F00 = .ok (.ldi 1 0x3F00) ∧ decode 0x15000005 = .ok (.ldp 2 5) ∧ decode 0x08000004 = .ok (.skipev 4) ∧
  decode 0x84120000 = .ok (.brd1 0 1 true) ∧ decode 0xAE000000 = .ok (.stft 4 0) ∧ decode 0x18400000 = .ok (.outadd 4) ∧
  decode 0x00000000 = .ok .endp

/-! ## The step, faults and frames -/

/-- 42_engine.md R302, 30_encoding.md R157: inside a frame program (the model's mark `inFrame`, assumption 1), when the word at `pc` decodes, the step is the
instruction's meaning and nothing around it. -/
def Obligations.StepRunsTheDecodedInstruction : Prop :=
  ∀ (s : State) (i : Instr), s.inFrame = true → s.pc.toNat < Config.progLen →
    decode (s.mem.word (0x40000 + 4 * s.pc.toNat)) = .ok i → step s = exec i s

/-- R158: a word with a reserved opcode raises ILLEGAL_INSN. -/
def Obligations.ReservedOpcodeFaults : Prop :=
  ∀ s : State, s.inFrame = true → s.pc.toNat < Config.progLen →
    reservedOp ((s.mem.word (0x40000 + 4 * s.pc.toNat)).extractLsb' 26 6).toNat →
    step s = .next (afterFault s 1 s.pc (s.mem.word (0x40000 + 4 * s.pc.toNat)))

/-- R502: ILLEGAL_INSN is raised by decode, before the instruction has any effect. -/
def Obligations.UndecodableWordFaultsPrecisely : Prop :=
  ∀ (s : State) (e : DecodeError), s.inFrame = true → s.pc.toNat < Config.progLen →
    decode (s.mem.word (0x40000 + 4 * s.pc.toNat)) = .error e →
    step s = .next (afterFault s 1 s.pc (s.mem.word (0x40000 + 4 * s.pc.toNat)))

/-- 60_exceptions.md R501: a fetch with `pc >= PROG_LEN` raises PC_OVERRUN with FAULT_INSN 0. -/
def Obligations.FetchPastTheProgramFaults : Prop :=
  ∀ s : State, s.inFrame = true → Config.progLen ≤ s.pc.toNat → step s = .next (afterFault s 2 s.pc 0)

/-- 42_engine.md R302, 10_state.md R52, R54: an enabled frame of a running block with no fault pending counts the frame,
writes the input into `S[0]`, zeroes `OACC` and `pc` and starts the program. -/
def Obligations.FrameStartsTheProgram : Prop :=
  ∀ (s : State) (x : Sample), s.inBlock = true → s.pos.toNat < s.blkF.toNat → s.blkRun = true → s.fault = false →
    step (offer s (.frame x)) = .next
      { s with
        frameCnt := s.frameCnt + 1
        sreg := s.sreg.set 0 x
        oacc := Sample.zero
        pc := 0
        inFrame := true }

/-- 42_engine.md R302, 60_exceptions.md R503, R524: with the block stopped or a fault pending, an enabled frame counts
itself, outputs `(+0.0, +0.0)` and changes nothing of the datapath. -/
def Obligations.SilentFrame : Prop :=
  ∀ (s : State) (x : Sample), s.inBlock = true → s.pos.toNat < s.blkF.toNat → (s.blkRun = false ∨ s.fault = true) →
    step (offer s (.frame x)) = .next
      { s with
        frameCnt := s.frameCnt + 1
        inFrame := false
        emitted := .frame Sample.zero :: s.emitted
        pos := s.pos + 1
        inBlock := if s.pos + 1 = s.blkF then false else true
        blkRun := if s.pos + 1 = s.blkF then false else s.blkRun }

/-- 42_engine.md R300, R305, R306, R303: BlockStart outside a block commits SHADOW to LIVE, recomputes the derived values,
samples CTRL.RUN and opens the block; a block of no frames ends at once. The coefficients are recomputed if one of their
four inputs differs between SHADOW and LIVE as it stands before the copy: that is the model's reading of R306's "changed"
(DEDUCED, assumption 12). -/
def Obligations.BlockStartCommits : Prop :=
  ∀ (s : State) (frames : BitVec 32), s.inBlock = false →
    step (offer s (.blockStart frames)) = .next
      { s with
        inFrame := false
        blockCnt := s.blockCnt + 1
        live := s.shadow
        dlyFrames := dlyFramesOf s.shadow
        combFrames := combFramesOf s.shadow
        bqCoef := if s.live.bqMode = s.shadow.bqMode ∧ s.live.bqFreq = s.shadow.bqFreq ∧ s.live.bqQ = s.shadow.bqQ ∧
          s.live.rate = s.shadow.rate then s.bqCoef else bqCompute s.shadow
        blkRun := if frames = 0 then false else s.ctrlRun
        blkF := frames
        pos := 0
        inBlock := if frames = 0 then false else true }

/-- 42_engine.md R300, R302: a driver call the protocol does not enable is no step; the model stops by name (DEDUCED, assumption 4
is the model's reading of "enabled only when"). -/
def Obligations.DisabledDriverCallsStop : Prop :=
  (∀ (s : State) (frames : BitVec 32), s.inBlock = true →
    step (offer s (.blockStart frames)) = .fault .blockStartNotEnabled) ∧
  (∀ (s : State) (x : Sample), (s.inBlock = false ∨ s.blkF.toNat ≤ s.pos.toNat) →
    step (offer s (.frame x)) = .fault .frameNotEnabled)

/-- 42_engine.md R304: from every state, at most `PROG_LEN` instructions and one faulting fetch end the frame. -/
def Obligations.FrameProgramTerminates : Prop :=
  ∀ s : State, ∃ t, runFrame (Config.progLen + 1) s = .next t ∧ t.inFrame = false

/-! ## Instruction results, each with its completion and its frame -/

/-- 42_engine.md R315, R316, R318, R321: END, NOP, SKIPEV (every period) and OUTADD. -/
def Obligations.ControlInstructionResults : Prop :=
  (∀ s : State, exec .endp s = .next
    { s with
      inFrame := false
      emitted := .frame s.oacc :: s.emitted
      pos := s.pos + 1
      inBlock := if s.pos + 1 = s.blkF then false else s.inBlock
      blkRun := if s.pos + 1 = s.blkF then false else s.blkRun }) ∧
  (∀ s : State, exec .nop s = .next { s with pc := s.pc + 1 }) ∧
  (∀ (s : State) (n : BitVec 16), n ≠ 0 → s.pos.toNat % n.toNat = 0 → exec (.skipev n) s = .next { s with pc := s.pc + 1 }) ∧
  (∀ (s : State) (n : BitVec 16), n ≠ 0 → s.pos.toNat % n.toNat ≠ 0 → exec (.skipev n) s = .next { s with pc := s.pc + 2 }) ∧
  (∀ (s : State) (a : RegIdx), exec (.outadd a) s = .next
    { s with
      oacc := ⟨(fadd s.oacc.l (s.getS a).l).val, (fadd s.oacc.r (s.getS a).r).val⟩
      pc := s.pc + 1 })

/-- 40_sample_arith.md R220-R223: SADD, SSUB, SMUL, SDIV. -/
def Obligations.SampleArithmeticResults : Prop :=
  ∀ (s : State) (d a b : RegIdx),
    exec (.sadd d a b) s = .next (sampleDone s d
      ⟨(fadd (s.getS a).l (s.getS b).l).val, (fadd (s.getS a).r (s.getS b).r).val⟩
      ((fadd (s.getS a).l (s.getS b).l).flags ||| (fadd (s.getS a).r (s.getS b).r).flags)) ∧
    exec (.ssub d a b) s = .next (sampleDone s d
      ⟨(fsub (s.getS a).l (s.getS b).l).val, (fsub (s.getS a).r (s.getS b).r).val⟩
      ((fsub (s.getS a).l (s.getS b).l).flags ||| (fsub (s.getS a).r (s.getS b).r).flags)) ∧
    exec (.smul d a b) s = .next (sampleDone s d
      ⟨(fmul (s.getS a).l (s.getS b).l).val, (fmul (s.getS a).r (s.getS b).r).val⟩
      ((fmul (s.getS a).l (s.getS b).l).flags ||| (fmul (s.getS a).r (s.getS b).r).flags)) ∧
    exec (.sdiv d a b) s = .next (sampleDone s d
      ⟨(fdiv (s.getS a).l (s.getS b).l).val, (fdiv (s.getS a).r (s.getS b).r).val⟩
      ((fdiv (s.getS a).l (s.getS b).l).flags ||| (fdiv (s.getS a).r (s.getS b).r).flags))

/-- 40_sample_arith.md R224-R227: SADDF, SSUBF, SMULF, SDIVF. -/
def Obligations.SampleScalarResults : Prop :=
  ∀ (s : State) (d a b : RegIdx),
    exec (.saddf d a b) s = .next (sampleDone s d
      ⟨(fadd (s.getS a).l (s.getF b)).val, (fadd (s.getS a).r (s.getF b)).val⟩
      ((fadd (s.getS a).l (s.getF b)).flags ||| (fadd (s.getS a).r (s.getF b)).flags)) ∧
    exec (.ssubf d a b) s = .next (sampleDone s d
      ⟨(fsub (s.getS a).l (s.getF b)).val, (fsub (s.getS a).r (s.getF b)).val⟩
      ((fsub (s.getS a).l (s.getF b)).flags ||| (fsub (s.getS a).r (s.getF b)).flags)) ∧
    exec (.smulf d a b) s = .next (sampleDone s d
      ⟨(fmul (s.getS a).l (s.getF b)).val, (fmul (s.getS a).r (s.getF b)).val⟩
      ((fmul (s.getS a).l (s.getF b)).flags ||| (fmul (s.getS a).r (s.getF b)).flags)) ∧
    exec (.sdivf d a b) s = .next (sampleDone s d
      ⟨(fdiv (s.getS a).l (s.getF b)).val, (fdiv (s.getS a).r (s.getF b)).val⟩
      ((fdiv (s.getS a).l (s.getF b)).flags ||| (fdiv (s.getS a).r (s.getF b)).flags))

/-- 40_sample_arith.md R228-R230: SCLIP (two comparisons and a selection, no flags), SWRAP and SLIN (three roundings a lane,
the flags of all six operations). -/
def Obligations.ClipWrapLinResults : Prop :=
  ∀ (s : State) (d a b c e : RegIdx),
    exec (.sclip d a b c) s = .next (sampleMoved s d
      ⟨if flt (s.getS a).l (s.getF b) then s.getF b else if flt (s.getF c) (s.getS a).l then s.getF c else (s.getS a).l,
       if flt (s.getS a).r (s.getF b) then s.getF b
        else if flt (s.getF c) (s.getS a).r then s.getF c else (s.getS a).r⟩) ∧
    exec (.swrap d a b c) s = .next (sampleDone s d
      ⟨(wrapF (s.getS a).l (s.getF b) (s.getF c)).val, (wrapF (s.getS a).r (s.getF b) (s.getF c)).val⟩
      ((wrapF (s.getS a).l (s.getF b) (s.getF c)).flags ||| (wrapF (s.getS a).r (s.getF b) (s.getF c)).flags)) ∧
    exec (.slin d a b c e) s = .next (sampleDone s d
      ⟨(fadd (fmul (s.getF c) (s.getS a).l).val (fmul (s.getF e) (s.getS b).l).val).val,
       (fadd (fmul (s.getF c) (s.getS a).r).val (fmul (s.getF e) (s.getS b).r).val).val⟩
      ((fmul (s.getF c) (s.getS a).l).flags ||| (fmul (s.getF e) (s.getS b).l).flags |||
        (fadd (fmul (s.getF c) (s.getS a).l).val (fmul (s.getF e) (s.getS b).l).val).flags |||
        ((fmul (s.getF c) (s.getS a).r).flags ||| (fmul (s.getF e) (s.getS b).r).flags |||
          (fadd (fmul (s.getF c) (s.getS a).r).val (fmul (s.getF e) (s.getS b).r).val).flags)))

/-- 40_sample_arith.md R231-R234, R239-R241: the moves and loads, bits unchanged and no flags; LDP for every legal index. -/
def Obligations.MoveAndLoadResults : Prop :=
  ∀ (s : State) (d a b : RegIdx) (imm p : BitVec 16), p.toNat < Config.nparam →
    exec (.smov d a) s = .next (sampleMoved s d (s.getS a)) ∧
    exec (.spack d a b) s = .next (sampleMoved s d ⟨s.getF a, s.getF b⟩) ∧
    exec (.sgetl d a) s = .next (scalarMoved s d (s.getS a).l) ∧
    exec (.sgetr d a) s = .next (scalarMoved s d (s.getS a).r) ∧
    exec (.fmov d a) s = .next (scalarMoved s d (s.getF a)) ∧
    exec (.ldi d imm) s = .next (scalarMoved s d (BitVec.ofNat 32 (imm.toNat * 65536))) ∧
    exec (.ldp d p) s = .next (scalarMoved s d (cellGet s.live.p p.toNat))

/-- 40_sample_arith.md R235-R238: FADD, FSUB, FMUL, FDIV. -/
def Obligations.ScalarArithmeticResults : Prop :=
  ∀ (s : State) (d a b : RegIdx),
    exec (.fadd d a b) s =
      .next (scalarDone s d (fadd (s.getF a) (s.getF b)).val (fadd (s.getF a) (s.getF b)).flags) ∧
    exec (.fsub d a b) s =
      .next (scalarDone s d (fsub (s.getF a) (s.getF b)).val (fsub (s.getF a) (s.getF b)).flags) ∧
    exec (.fmul d a b) s =
      .next (scalarDone s d (fmul (s.getF a) (s.getF b)).val (fmul (s.getF a) (s.getF b)).flags) ∧
    exec (.fdiv d a b) s =
      .next (scalarDone s d (fdiv (s.getF a) (s.getF b)).val (fdiv (s.getF a) (s.getF b)).flags)

/-- 42_engine.md R323, R324, 41_buffer.md R285: SEC2FR, FR2SEC, RSCALE from the LIVE rates; the ratio of RSCALE is rounded
before the multiply and both operations' flags accrue. -/
def Obligations.RateConversionResults : Prop :=
  ∀ (s : State) (d a : RegIdx),
    exec (.sec2fr d a) s =
      .next (scalarDone s d (fmul (s.getF a) s.live.rate).val (fmul (s.getF a) s.live.rate).flags) ∧
    exec (.fr2sec d a) s =
      .next (scalarDone s d (fdiv (s.getF a) s.live.rate).val (fdiv (s.getF a) s.live.rate).flags) ∧
    exec (.rscale d a) s = .next (scalarDone s d
      (fmul (s.getF a) (fdiv s.live.bufRate s.live.rate).val).val
      ((fdiv s.live.bufRate s.live.rate).flags ||| (fmul (s.getF a) (fdiv s.live.bufRate s.live.rate).val).flags))

/-- 41_buffer.md R275, R276, R278, R282, R283: BRD and BRD1 of an empty, a stereo and a mono Buffer; frame `i` of a stereo
Buffer is words `2i` and `2i+1`, of a mono Buffer word `i`, which both channels read. -/
def Obligations.BufferReadResults : Prop :=
  ∀ (s : State) (d a : RegIdx) (ch : Bool),
    (s.lenEff = 0 → exec (.brd d a) s = .next (sampleMoved s d ⟨0, 0⟩) ∧
      exec (.brd1 d a ch) s = .next (scalarMoved s d 0)) ∧
    (s.lenEff ≠ 0 → s.live.bufChans = 2 →
      exec (.brd d a) s = .next (sampleMoved s d
        ⟨s.mem.word (0x100000 + 4 * (2 * clampIdx s.lenEff (s.getF a))),
         s.mem.word (0x100000 + 4 * (2 * clampIdx s.lenEff (s.getF a) + 1))⟩) ∧
      exec (.brd1 d a ch) s = .next (scalarMoved s d
        (s.mem.word (0x100000 + 4 * (2 * clampIdx s.lenEff (s.getF a) + ch.toNat))))) ∧
    (s.lenEff ≠ 0 → s.live.bufChans = 1 →
      exec (.brd d a) s = .next (sampleMoved s d
        ⟨s.mem.word (0x100000 + 4 * clampIdx s.lenEff (s.getF a)),
         s.mem.word (0x100000 + 4 * clampIdx s.lenEff (s.getF a))⟩) ∧
      exec (.brd1 d a ch) s = .next (scalarMoved s d (s.mem.word (0x100000 + 4 * clampIdx s.lenEff (s.getF a)))))

/-- 41_buffer.md R277, R278, R284: BWR of an empty, a stereo and a mono Buffer: the words stored, every other byte of memory
as before, and nothing else changed but `pc`. -/
def Obligations.BufferWriteResults : Prop :=
  ∀ (s : State) (a b : RegIdx), s.mem.wf = true →
    (s.lenEff = 0 → exec (.bwr a b) s = .next { s with pc := s.pc + 1 }) ∧
    (s.lenEff ≠ 0 → s.live.bufChans = 2 → ∃ m : Memory,
      exec (.bwr a b) s = .next { s with mem := m, pc := s.pc + 1 } ∧
      m.word (0x100000 + 4 * (2 * clampIdx s.lenEff (s.getF b))) = (s.getS a).l ∧
      m.word (0x100000 + 4 * (2 * clampIdx s.lenEff (s.getF b) + 1)) = (s.getS a).r ∧
      ∀ x, (x < 0x100000 + 8 * clampIdx s.lenEff (s.getF b) ∨ 0x100000 + 8 * clampIdx s.lenEff (s.getF b) + 8 ≤ x) →
        m.byte x = s.mem.byte x) ∧
    (s.lenEff ≠ 0 → s.live.bufChans = 1 → ∃ m : Memory,
      exec (.bwr a b) s = .next { s with mem := m, pc := s.pc + 1 } ∧
      m.word (0x100000 + 4 * clampIdx s.lenEff (s.getF b)) = (fadd (s.getS a).l (s.getS a).r).val ∧
      ∀ x, (x < 0x100000 + 4 * clampIdx s.lenEff (s.getF b) ∨ 0x100000 + 4 * clampIdx s.lenEff (s.getF b) + 4 ≤ x) →
        m.byte x = s.mem.byte x)

/-- 44_effects.md R421: DLY. The tap is `D` slots behind the write cursor and is read before the crossfaded value is
written back; only the ring, its cursor, the destination and `pc` change. -/
def Obligations.DelayResult : Prop :=
  ∀ (s : State) (d a : RegIdx), s.dly.wf Config.dlyLen = true →
    let p := (((s.dly.w : Int) - (s.dlyFrames.toNat : Int)) % 96000).toNat
    let m := s.live.dlyMix
    let mix := fun x tap => (fadd (fmul (fsub oneF m).val x).val (fmul m tap).val).val
    let y : Sample := ⟨mix (s.getS a).l (cellGet s.dly.l p), mix (s.getS a).r (cellGet s.dly.r p)⟩
    ∃ u : RingUnit, exec (.dly d a) s = .next { sampleMoved s d y with dly := u } ∧
      u.w = (s.dly.w + 1) % 96000 ∧
      (∀ i, cellGet u.l i = if i = s.dly.w then y.l else cellGet s.dly.l i) ∧
      (∀ i, cellGet u.r i = if i = s.dly.w then y.r else cellGet s.dly.r i)

/-- 44_effects.md R431: COMB. The output adds the tap; the DRY input is written back, bits unchanged. -/
def Obligations.CombResult : Prop :=
  ∀ (s : State) (d a : RegIdx), s.comb.wf Config.combLen = true →
    let p := (((s.comb.w : Int) - (s.combFrames.toNat : Int)) % 4800).toNat
    let y : Sample := ⟨(fadd (s.getS a).l (cellGet s.comb.l p)).val, (fadd (s.getS a).r (cellGet s.comb.r p)).val⟩
    ∃ u : RingUnit, exec (.comb d a) s = .next { sampleMoved s d y with comb := u } ∧
      u.w = (s.comb.w + 1) % 4800 ∧
      (∀ i, cellGet u.l i = if i = s.comb.w then (s.getS a).l else cellGet s.comb.l i) ∧
      (∀ i, cellGet u.r i = if i = s.comb.w then (s.getS a).r else cellGet s.comb.r i)

/-- 44_effects.md R442: BIQ, direct form I, each operation rounded in the order written, and the history moved on. -/
def Obligations.BiquadResult : Prop :=
  ∀ (s : State) (d a : RegIdx),
    let k := s.bqCoef
    let out := fun (x : Word) (h : BqHist) =>
      (fsub (fsub (fadd (fadd (fmul k.b0 x).val (fmul k.b1 h.x1).val).val (fmul k.b2 h.x2).val).val
        (fmul k.a1 h.y1).val).val (fmul k.a2 h.y2).val).val
    exec (.biq d a) s = .next
      { sampleMoved s d ⟨out (s.getS a).l s.bqL, out (s.getS a).r s.bqR⟩ with
        bqL := ⟨(s.getS a).l, s.bqL.x1, out (s.getS a).l s.bqL, s.bqL.y1⟩
        bqR := ⟨(s.getS a).r, s.bqR.x1, out (s.getS a).r s.bqR, s.bqR.y1⟩ }

/-- 43_stft.md R345, R346: STFT. Every invocation appends the input, emits and zeroes the slot at the read cursor and
advances both cursors; the invocation that makes `hc = H` runs the shift step first, counts it and advances `ow` by `H`,
the others leave the spectral state, `ow` and HOP_CNT alone. What the shift step makes of a channel is `shiftStepMakes`
and what the engine makes of a frame `engineMakes`, both written out above from R348 to R386. -/
def Obligations.StftResult : Prop :=
  (∀ (s : State) (d a : RegIdx), s.stft.wf = true →
    ∃ (u : Stft) (y : Sample) (hops : BitVec 32),
      exec (.stft d a) s = .next { sampleMoved s d y with stft := u, hopCnt := hops } ∧
      u.hw = (s.stft.hw + 1) % 2048 ∧ u.orr = (s.stft.orr + 1) % 2048 ∧
      (∀ i, cellGet u.l.hist i = if i = s.stft.hw then (s.getS a).l else cellGet s.stft.l.hist i) ∧
      (∀ i, cellGet u.r.hist i = if i = s.stft.hw then (s.getS a).r else cellGet s.stft.r.hist i) ∧
      cellGet u.l.out s.stft.orr = 0 ∧ cellGet u.r.out s.stft.orr = 0 ∧
      (s.stft.hc + 1 ≠ 256 →
        hops = s.hopCnt ∧ u.hc = s.stft.hc + 1 ∧ u.ow = s.stft.ow ∧
        y = ⟨cellGet s.stft.l.out s.stft.orr, cellGet s.stft.r.out s.stft.orr⟩ ∧
        (∀ i, i ≠ s.stft.orr → cellGet u.l.out i = cellGet s.stft.l.out i ∧
          cellGet u.r.out i = cellGet s.stft.r.out i) ∧
        { u.l with hist := [], out := [] } = { s.stft.l with hist := [], out := [] } ∧
        { u.r with hist := [], out := [] } = { s.stft.r with hist := [], out := [] }) ∧
      (s.stft.hc + 1 = 256 →
        let f := fexp2 (fmul s.live.stftRange s.live.stftCtrl).val
        let lch := shiftChan f u.hw u.ow { s.stft.l with hist := u.l.hist }
        let rch := shiftChan f u.hw u.ow { s.stft.r with hist := u.r.hist }
        hops = s.hopCnt + 1 ∧ u.hc = 0 ∧ u.ow = (s.stft.ow + 256) % 2048 ∧
        y = ⟨cellGet lch.out s.stft.orr, cellGet rch.out s.stft.orr⟩ ∧
        (∀ i, i ≠ s.stft.orr → cellGet u.l.out i = cellGet lch.out i ∧ cellGet u.r.out i = cellGet rch.out i) ∧
        { u.l with out := [] } = { lch with out := [] } ∧ { u.r with out := [] } = { rch with out := [] })) ∧
  (∀ (f : Word) (hw ow : Nat) (ch : StftChan), ch.wf = true → shiftStepMakes f hw ow ch (shiftChan f hw ow ch)) ∧
  (∀ (fwd : Bool) (a : Array Cplx), engineMakes fwd a (fft fwd a)) ∧
  (∀ (fwd : Bool) (a : Array Cplx) (p q t : Nat), butterflyMakes fwd a p q t (butterfly fwd a p q t))

/-! ## Rules over all instructions -/

/-- 60_exceptions.md R505, R506, 40_sample_arith.md R210: every instruction completes, from every state, and none touches
the fault latch or the capture registers. -/
def Obligations.EveryInstructionCompletes : Prop :=
  ∀ (i : Instr) (s : State), ∃ t, exec i s = .next t ∧ t.fault = s.fault ∧ t.busErr = s.busErr ∧
    t.faultCause = s.faultCause ∧ t.faultPc = s.faultPc ∧ t.faultInsn = s.faultInsn

/-- 40_sample_arith.md R208, 10_state.md R57: no instruction clears a flag, and one that is not among the seventeen listed
leaves FFLAGS alone. -/
def Obligations.FlagAccrual : Prop :=
  ∀ (i : Instr) (s t : State), exec i s = .next t →
    s.fflags &&& t.fflags = s.fflags ∧ (writesFlags i = false → t.fflags = s.fflags)

/-- 10_state.md R55: how each instruction moves `pc`. -/
def Obligations.ProgramCounterRule : Prop :=
  ∀ (i : Instr) (s t : State), exec i s = .next t →
    (i = .endp → t.pc = s.pc) ∧
    ((∃ n, i = .skipev n) → t.pc = s.pc + 1 ∨ t.pc = s.pc + 2) ∧
    (i ≠ .endp → (∀ n, i ≠ .skipev n) → t.pc = s.pc + 1)

/-- 60_exceptions.md R520, 20_memory.md R100: no instruction reaches a control register, SHADOW, LIVE, a derived register, a
block counter, the world outside or a byte of `PMEM`. -/
def Obligations.ProgramCannotReachControlState : Prop :=
  ∀ (i : Instr) (s t : State), exec i s = .next t →
    t.ctrlRun = s.ctrlRun ∧ t.irqEn = s.irqEn ∧ t.frameCnt = s.frameCnt ∧ t.blockCnt = s.blockCnt ∧
    t.shadow = s.shadow ∧ t.live = s.live ∧ t.bqCoef = s.bqCoef ∧ t.dlyFrames = s.dlyFrames ∧
    t.combFrames = s.combFrames ∧ t.blkF = s.blkF ∧ t.inputs = s.inputs ∧ t.draws = s.draws ∧
    (∀ x, Config.inPmem x = true → t.mem.byte x = s.mem.byte x)

/-- 20_memory.md R100, 10_state.md R54, 42_engine.md R312: only BWR writes memory, only OUTADD writes `OACC`, and each unit's
state changes only at its own instruction. -/
def Obligations.EachStateHasItsWriter : Prop :=
  ∀ (i : Instr) (s t : State), exec i s = .next t →
    ((∀ a b, i ≠ .bwr a b) → t.mem = s.mem) ∧
    ((∀ a, i ≠ .outadd a) → t.oacc = s.oacc) ∧
    ((∀ d a, i ≠ .dly d a) → t.dly = s.dly) ∧
    ((∀ d a, i ≠ .comb d a) → t.comb = s.comb) ∧
    ((∀ d a, i ≠ .biq d a) → t.bqL = s.bqL ∧ t.bqR = s.bqR) ∧
    ((∀ d a, i ≠ .stft d a) → t.stft = s.stft ∧ t.hopCnt = s.hopCnt)

/-- R209: two runs that agree on one lane of every sample register and on the scalars agree on that lane after, and
exchanging the lanes of every sample register before a Sample operation exchanges them after. -/
def Obligations.LanesAreIndependent : Prop :=
  (∀ (i : Instr) (s₁ s₂ t₁ t₂ : State), isLaneOp i = true → s₁.freg = s₂.freg →
    exec i s₁ = .next t₁ → exec i s₂ = .next t₂ →
    ((∀ j, (s₁.getS j).l = (s₂.getS j).l) → ∀ j, (t₁.getS j).l = (t₂.getS j).l) ∧
    ((∀ j, (s₁.getS j).r = (s₂.getS j).r) → ∀ j, (t₁.getS j).r = (t₂.getS j).r)) ∧
  (∀ (i : Instr) (s t : State), isLaneOp i = true → exec i s = .next t →
    ∃ t', exec i { s with sreg := s.sreg.map swapLanes } = .next t' ∧ t'.sreg = t.sreg.map swapLanes ∧
      t'.fflags = t.fflags)

/-- 43_stft.md section 11: the STFT channels share only the cursors and the shift factor: two runs that agree on one
channel's state and input, the cursors and LIVE agree on that channel after. -/
def Obligations.StftChannelsAreIndependent : Prop :=
  ∀ (s₁ s₂ t₁ t₂ : State) (d a : RegIdx), s₁.live = s₂.live → s₁.stft.hw = s₂.stft.hw → s₁.stft.orr = s₂.stft.orr →
    s₁.stft.ow = s₂.stft.ow → s₁.stft.hc = s₂.stft.hc →
    exec (.stft d a) s₁ = .next t₁ → exec (.stft d a) s₂ = .next t₂ →
    (s₁.stft.l = s₂.stft.l → (s₁.getS a).l = (s₂.getS a).l → t₁.stft.l = t₂.stft.l ∧ (t₁.getS d).l = (t₂.getS d).l) ∧
    (s₁.stft.r = s₂.stft.r → (s₁.getS a).r = (s₂.getS a).r → t₁.stft.r = t₂.stft.r ∧ (t₁.getS d).r = (t₂.getS d).r)

/-! ## Rules over all steps -/

/-- The invariant of the block (Safety.lean) holds after every step from a state in which it holds. -/
def Obligations.StepKeepsInvariant : Prop :=
  ∀ s t : State, s.Inv → step s = .next t → t.Inv

/-- The invariant holds after power-on reset. -/
def Obligations.ResetMeetsInvariant : Prop := State.reset.Inv

/-- 42_engine.md R305, 20_memory.md R122: LIVE changes only at a BlockStart, where it becomes SHADOW, and at a reset. -/
def Obligations.LiveChangesOnlyAtCommit : Prop :=
  ∀ s t : State, step s = .next t → t.live ≠ s.live →
    s.inFrame = false ∧
      ((∃ frames rest, s.inputs = .blockStart frames :: rest ∧ t.live = s.shadow) ∨
       ((∃ rest, s.inputs = .powerOn :: rest) ∧ t.live = Params.reset) ∨
       ((∃ w rest, s.inputs = .hostWrite 8 w :: rest ∧ w.getLsbD 1 = true) ∧ t.live = Params.reset))

/-- 20_memory.md R117, R127, 41_buffer.md R281: while RUN or BLK_RUN stands, no step but a reset changes a byte of `PMEM`,
and no step outside a frame program changes a byte of `BUFMEM`. -/
def Obligations.MemoryIsFixedWhileRunning : Prop :=
  ∀ s t : State, (s.ctrlRun = true ∨ s.blkRun = true) → step s = .next t →
    (∀ rest, s.inputs ≠ .powerOn :: rest) → (∀ w rest, s.inputs = .hostWrite 8 w :: rest → w.getLsbD 1 = false) →
    (∀ x, Config.inPmem x = true → t.mem.byte x = s.mem.byte x) ∧
    (s.inFrame = false → ∀ x, t.mem.byte x = s.mem.byte x)

/-- 60_exceptions.md R503, 42_engine.md R302: while STATUS.FAULT stands outside a frame, no offer starts a program and only
a host write or a reset clears or overwrites the latch; the registers, memory and the state of all four units (R504) stay.
-/
def Obligations.FaultLatchHolds : Prop :=
  ∀ s t : State, s.inFrame = false → s.fault = true → step s = .next t →
    (∀ rest, s.inputs ≠ .powerOn :: rest) → (∀ a w rest, s.inputs ≠ .hostWrite a w :: rest) →
    t.inFrame = false ∧ t.fault = true ∧ t.faultCause = s.faultCause ∧ t.faultPc = s.faultPc ∧
      t.faultInsn = s.faultInsn ∧ t.sreg = s.sreg ∧ t.freg = s.freg ∧ t.fflags = s.fflags ∧ t.mem = s.mem ∧
      t.stft = s.stft ∧ t.hopCnt = s.hopCnt ∧ t.dly = s.dly ∧ t.comb = s.comb ∧ t.bqL = s.bqL ∧ t.bqR = s.bqR ∧
      t.oacc = s.oacc ∧ t.pc = s.pc

/-! ## The binary32 datapath -/

/-- 40_sample_arith.md R201, R202: `RN` of `±n/d` below the overflow threshold is the nearest binary32 (magnitudes in units
of 2^-149), ties to the even fraction; from the threshold on it is infinity with overflow and inexact. On finite operands
the sum, difference, product and quotient, where they are not zero, are `RN` of the exact one. The root of a finite
positive value is the binary32 nearest to the exact root, ties to even: the sum of two magnitudes `r + w` is at least
twice the root `sqrt m` exactly if `4m <= (r + w)^2`; it is inexact exactly if its square is not `m`. -/
def Obligations.RoundingIsToNearestEven : Prop :=
  (∀ (neg : Bool) (n d : Nat), 0 < n → 0 < d →
    (d * (2 ^ 128 - 2 ^ 103) ≤ n →
      roundPos neg n d = ⟨withSign neg posInf, flagOF ||| flagNX⟩) ∧
    (n < d * (2 ^ 128 - 2 ^ 103) →
      let r := (roundPos neg n d).val
      isFinite r = true ∧ signBit r = neg ∧
      ∀ w : Word, isFinite w = true →
        ((magOf r : Int) * d - n * 2 ^ 149).natAbs ≤ ((magOf w : Int) * d - n * 2 ^ 149).natAbs ∧
        (((magOf r : Int) * d - n * 2 ^ 149).natAbs = ((magOf w : Int) * d - n * 2 ^ 149).natAbs →
          magOf w ≠ magOf r → r.getLsbD 0 = false))) ∧
  (∀ a b : Word, isFinite a = true → isFinite b = true →
    (fixOf a + fixOf b ≠ 0 →
      fadd a b = roundPos (decide (fixOf a + fixOf b < 0)) (fixOf a + fixOf b).natAbs (2 ^ 149)) ∧
    (fixOf a - fixOf b ≠ 0 →
      fsub a b = roundPos (decide (fixOf a - fixOf b < 0)) (fixOf a - fixOf b).natAbs (2 ^ 149)) ∧
    (isZero a = false → isZero b = false →
      fmul a b = roundPos (signBit a != signBit b) (magOf a * magOf b) (2 ^ 298) ∧
      fdiv a b = roundPos (signBit a != signBit b) (magOf a) (magOf b))) ∧
  (∀ a : Word, isFinite a = true → 0 < fixOf a →
    let r := fsqrt a
    let m := magOf a * 2 ^ 149
    isFinite r.val = true ∧ signBit r.val = false ∧
    (∀ w : Word, isFinite w = true →
      (magOf r.val < magOf w → 4 * m ≤ (magOf r.val + magOf w) ^ 2) ∧
      (magOf w < magOf r.val → (magOf r.val + magOf w) ^ 2 ≤ 4 * m) ∧
      (magOf w ≠ magOf r.val → (magOf r.val + magOf w) ^ 2 = 4 * m → r.val.getLsbD 0 = false)) ∧
    r.flags = if magOf r.val ^ 2 = m then flagNone else flagNX)

/-- 40_sample_arith.md R208, 10_state.md R57: below the overflow threshold NX says that the delivered value differs from
`n/d`, and UF that it differs and `n/d` rounded to 24 bits stays below 2^-126, that is `n/d < 2^-126 - 2^-151`. -/
def Obligations.InexactAndUnderflowFlags : Prop :=
  ∀ (neg : Bool) (n d : Nat), 0 < n → 0 < d → n < d * (2 ^ 128 - 2 ^ 103) →
    let r := roundPos neg n d
    (r.flags.getLsbD 0 = true ↔ magOf r.val * d ≠ n * 2 ^ 149) ∧
    (r.flags.getLsbD 1 = true ↔ magOf r.val * d ≠ n * 2 ^ 149 ∧ n * 2 ^ 151 < d * (2 ^ 25 - 1)) ∧
    r.flags.getLsbD 2 = false ∧ r.flags.getLsbD 3 = false ∧ r.flags.getLsbD 4 = false

/-- 40_sample_arith.md R201, R202: the signs of exact zeros and the special cases of the five operations, which with the
finite cases of RoundingIsToNearestEven are all their operands. An infinity with an operand that R202 does not name is the
model's reading of IEEE 754 (DEDUCED, assumption 11), and so is the sign of a zero difference (DEDUCED, assumption 9). -/
def Obligations.FloatSpecialCases : Prop :=
  (∀ a b : Word, isFinite a = true → isFinite b = true →
    (fixOf a + fixOf b = 0 → fadd a b =
      ⟨if a = 0x80000000 ∧ b = 0x80000000 then 0x80000000 else 0, flagNone⟩) ∧
    (fixOf a - fixOf b = 0 → fsub a b = ⟨if a = 0x80000000 ∧ b = 0 then 0x80000000 else 0, flagNone⟩) ∧
    (isZero a = true ∨ isZero b = true → fmul a b = ⟨withSign (signBit a != signBit b) 0, flagNone⟩) ∧
    (isZero a = true → isZero b = false → fdiv a b = ⟨withSign (signBit a != signBit b) 0, flagNone⟩) ∧
    (isZero a = false → isZero b = true → fdiv a b = ⟨withSign (signBit a != signBit b) posInf, flagDZ⟩) ∧
    (isZero a = true → isZero b = true → fdiv a b = ⟨canonNaN, flagNV⟩)) ∧
  (∀ a b : Word, isInf a = true → isInf b = true →
    fadd a b = (if signBit a = signBit b then ⟨a, flagNone⟩ else ⟨canonNaN, flagNV⟩) ∧
    fsub a b = (if signBit a = signBit b then ⟨canonNaN, flagNV⟩ else ⟨a, flagNone⟩) ∧
    fmul a b = ⟨withSign (signBit a != signBit b) posInf, flagNone⟩ ∧ fdiv a b = ⟨canonNaN, flagNV⟩) ∧
  (∀ a b : Word, isInf a = true → isFinite b = true →
    fadd a b = ⟨a, flagNone⟩ ∧ fadd b a = ⟨a, flagNone⟩ ∧ fsub a b = ⟨a, flagNone⟩ ∧ fsub b a = ⟨fneg a, flagNone⟩ ∧
    fmul a b = (if isZero b then ⟨canonNaN, flagNV⟩ else ⟨withSign (signBit a != signBit b) posInf, flagNone⟩) ∧
    fmul b a = fmul a b ∧ fdiv a b = ⟨withSign (signBit a != signBit b) posInf, flagNone⟩ ∧
    fdiv b a = ⟨withSign (signBit a != signBit b) 0, flagNone⟩) ∧
  (∀ a : Word, flt a 0 = true → fsqrt a = ⟨canonNaN, flagNV⟩) ∧
  fsqrt 0 = ⟨0, flagNone⟩ ∧ fsqrt 0x80000000 = ⟨0x80000000, flagNone⟩ ∧ fsqrt posInf = ⟨posInf, flagNone⟩ ∧
  (∀ a b : Word, isNaN a = true ∨ isNaN b = true →
    let r : FRes := ⟨canonNaN, if isSNaN a = true ∨ isSNaN b = true then flagNV else flagNone⟩
    fadd a b = r ∧ fsub a b = r ∧ fmul a b = r ∧ fdiv a b = r) ∧
  (∀ a : Word, isNaN a = true → fsqrt a = ⟨canonNaN, if isSNaN a = true then flagNV else flagNone⟩) ∧
  (∀ (a : Word) (k : Nat), k < 32 → (fneg a).getLsbD k = (a.getLsbD k != decide (k = 31)))

/-- 40_sample_arith.md R203: a NaN result of an arithmetic operation or of SWRAP is 0x7FC00000. -/
def Obligations.NaNResultsAreCanonical : Prop :=
  ∀ a b c : Word,
    (isNaN (fadd a b).val = true → (fadd a b).val = 0x7FC00000) ∧
    (isNaN (fsub a b).val = true → (fsub a b).val = 0x7FC00000) ∧
    (isNaN (fmul a b).val = true → (fmul a b).val = 0x7FC00000) ∧
    (isNaN (fdiv a b).val = true → (fdiv a b).val = 0x7FC00000) ∧
    (isNaN (fsqrt a).val = true → (fsqrt a).val = 0x7FC00000) ∧
    (isNaN (wrapF a b c).val = true → (wrapF a b c).val = 0x7FC00000)

/-- 40_sample_arith.md R229: SWRAP of a lane. A lane already in `[lo, hi)` keeps its exact value and raises nothing;
`x = hi` gives `lo`; any other finite `x` is moved by the whole number of spans that brings it into `[lo, hi)` and rounded
once; an empty range gives `lo`, and a NaN or infinite operand the canonical NaN with NV. A value that is exactly zero is
`+0.0` (DEDUCED, assumption 7). -/
def Obligations.WrapKeepsValuesInRange : Prop :=
  ∀ x lo hi : Word,
    (isFinite x = false ∨ isFinite lo = false ∨ isFinite hi = false → wrapF x lo hi = ⟨canonNaN, flagNV⟩) ∧
    (isFinite x = true → isFinite lo = true → isFinite hi = true →
      (flt lo hi = false → wrapF x lo hi = ⟨lo, flagNone⟩) ∧
      (flt lo hi = true →
        (∃ y m : Int, y = fixOf x - m * (fixOf hi - fixOf lo) ∧ fixOf lo ≤ y ∧ y < fixOf hi ∧
          wrapF x lo hi = if y = 0 then ⟨0, flagNone⟩ else roundPos (decide (y < 0)) y.natAbs (2 ^ 149)) ∧
        (flt x lo = false → flt x hi = true →
          fixOf (wrapF x lo hi).val = fixOf x ∧ isFinite (wrapF x lo hi).val = true ∧ (wrapF x lo hi).flags = 0) ∧
        (fixOf x = fixOf hi →
          fixOf (wrapF x lo hi).val = fixOf lo ∧ isFinite (wrapF x lo hi).val = true ∧ (wrapF x lo hi).flags = 0)))

/-- 40_sample_arith.md R206: the special values of the function units, for every operand they cover. -/
def Obligations.FunctionUnitSpecialValues : Prop :=
  fsin 0 = 0 ∧ fsin 0x80000000 = 0x80000000 ∧ fcos 0 = oneF ∧ fcos 0x80000000 = oneF ∧
  (∀ x, isInf x = true → fsin x = canonNaN ∧ fcos x = canonNaN) ∧
  fexp2 posInf = posInf ∧ fexp2 0xFF800000 = 0 ∧
  (∀ y x, isZero y = true → fatan2 y x = if isNaN x then canonNaN else
    withSign (signBit y) (if signBit x then 0x40490FDB else 0)) ∧
  (∀ y x, isZero x = true → isNaN y = false → isZero y = false → fatan2 y x = withSign (signBit y) 0x3FC90FDB) ∧
  (∀ y x, isFinite y = true → isZero y = false → isInf x = true →
    fatan2 y x = withSign (signBit y) (if signBit x then 0x40490FDB else 0)) ∧
  (∀ y x, isInf y = true → isFinite x = true → fatan2 y x = withSign (signBit y) 0x3FC90FDB) ∧
  (∀ y x, isInf y = true → isInf x = true →
    fatan2 y x = withSign (signBit y) (if signBit x then 0x4016CBE4 else 0x3F490FDB)) ∧
  (∀ x, isNaN x = true → fsin x = canonNaN ∧ fcos x = canonNaN ∧ fexp2 x = canonNaN ∧
    ∀ y, fatan2 x y = canonNaN ∧ fatan2 y x = canonNaN)

/-- 43_stft.md R372, R371, R373: `STFT_CTRL = 0` or `STFT_RANGE = 0` gives the shift factor 1.0 exactly, and that factor
maps every source bin `k` to bin `k`. -/
def Obligations.ZeroControlKeepsEveryBin : Prop :=
  ∀ p : Params, p.inRange = true → isZero p.stftCtrl = true ∨ isZero p.stftRange = true →
    shiftFactor p = 0x3F800000 ∧
    ∀ k : Nat, k < Config.numBins →
      isFinite (fmul (toF k) (shiftFactor p)).val = true ∧ roundHA (fmul (toF k) (shiftFactor p)).val = (k : Int)

/-- 44_effects.md R440, R441: the coefficient computation, operation by operation, in each of its three modes and with the
frequency under its ceiling `RN(0.49) * RATE`; on the reset values of its inputs it gives the reset values of
BQ_B0..BQ_A2. R420, R430: on the reset values the tap distances are those of DLY_FRAMES and COMB_FRAMES. -/
def Obligations.ResetDerivedRegisters : Prop :=
  (∀ p : Params,
    let fmax := (fmul 0x3EFAE148 p.rate).val
    let fc := if flt fmax p.bqFreq then fmax else p.bqFreq
    let w0 := (fdiv (fmul 0x40C90FDB fc).val p.rate).val
    let cw := fcos w0
    let alpha := (fdiv (fsin w0) (fmul 0x40000000 p.bqQ).val).val
    let a0 := (fadd 0x3F800000 alpha).val
    let A1 := (fdiv (fmul 0xC0000000 cw).val a0).val
    let A2 := (fdiv (fsub 0x3F800000 alpha).val a0).val
    let low := (fsub 0x3F800000 cw).val
    let high := (fadd 0x3F800000 cw).val
    (p.bqMode = 0 → bqCompute p =
      ⟨(fdiv (fmul low 0x3F000000).val a0).val, (fdiv low a0).val, (fdiv (fmul low 0x3F000000).val a0).val, A1, A2⟩) ∧
    (p.bqMode = 1 → bqCompute p = ⟨(fdiv (fmul high 0x3F000000).val a0).val, (fdiv (fneg high) a0).val,
      (fdiv (fmul high 0x3F000000).val a0).val, A1, A2⟩) ∧
    (p.bqMode = 2 → bqCompute p = ⟨(fdiv alpha a0).val, (fdiv 0 a0).val, (fdiv (fneg alpha) a0).val, A1, A2⟩)) ∧
  bqCompute State.reset.live = ⟨0x3B839466, 0x3C039466, 0x3B839466, 0xBFEE42A1, 0x3F60A1E7⟩ ∧
  dlyFramesOf State.reset.live = 12000 ∧ combFramesOf State.reset.live = 480

/-- 44_effects.md R420, R430: the tap distances: 1 for a NaN product of time and rate, `len - 1` for `+inf`, and for a
finite product its integer part, toward zero, clamped into `[1, len - 1]`; so they stay in `[1, len - 1]` for every
parameter value. For values no setter stores the answer is the model's (DESIGN CHOICE, assumption 13). -/
def Obligations.TapDistancesStayInTheRing : Prop :=
  ∀ p : Params,
    let tap := fun (v : Word) (last : Nat) (r : BitVec 32) =>
      (isNaN v = true → r.toNat = 1) ∧ (v = 0x7F800000 → r.toNat = last) ∧
      (isFinite v = true → (r.toNat : Int) = min (max ((fixOf v).tdiv (2 ^ 149)) 1) last) ∧
      1 ≤ r.toNat ∧ r.toNat ≤ last
    tap (fmul p.dlyTime p.rate).val 95999 (dlyFramesOf p) ∧ tap (fmul p.combTime p.rate).val 4799 (combFramesOf p)

/-! ## The ring cursor and the Buffer port -/

/-- R270: the two index operations, and that a cursor never leaves the ring. -/
def Obligations.RingCursorOperations : Prop :=
  ∀ (cur len : Nat) (off : Int), 1 ≤ len →
    ringAdv cur len = (cur + 1) % len ∧ (ringAt cur off len : Int) = ((cur : Int) + off) % (len : Int) ∧
    ringAdv cur len < len ∧ ringAt cur off len < len

/-- R273, R274: the frame index is the floor of the position clamped into `[0, LEN_EFF - 1]`, NaN and `-inf` give 0, `+inf`
the last frame; every word the port forms is below `BUF_CAP`. -/
def Obligations.BufferIndexSaturates : Prop :=
  ∀ (s : State) (pos : Word), s.live.bufChans = 1 ∨ s.live.bufChans = 2 →
    s.lenEff = min s.live.bufLen.toNat (262144 / s.live.bufChans.toNat) ∧
    (1 ≤ s.lenEff →
      (isNaN pos = true ∨ pos = 0xFF800000 → clampIdx s.lenEff pos = 0) ∧
      (pos = 0x7F800000 → clampIdx s.lenEff pos = s.lenEff - 1) ∧
      (isFinite pos = true →
        (clampIdx s.lenEff pos : Int) = min (max (fixOf pos / (2 ^ 149 : Int)) 0) ((s.lenEff : Int) - 1)) ∧
      ∀ c, c < s.live.bufChans.toNat → s.frameWord (clampIdx s.lenEff pos) c < 262144)

/-- 41_buffer.md R284, 20_memory.md R120: a BWR and then a BRD at the same position: a stereo Buffer gives the Sample back,
a mono Buffer the sum in both channels. -/
def Obligations.BufferReadsBackWhatWasWritten : Prop :=
  ∀ (s t u : State) (a b d : RegIdx), s.mem.wf = true → s.lenEff ≠ 0 →
    exec (.bwr a b) s = .next t → exec (.brd d b) t = .next u →
    (s.live.bufChans = 2 → u.getS d = s.getS a) ∧
    (s.live.bufChans = 1 → u.getS d = ⟨(fadd (s.getS a).l (s.getS a).r).val, (fadd (s.getS a).l (s.getS a).r).val⟩)

/-! ## The host bus -/

/-- R510: the causes of a bus error and its effect. A read errs exactly at a misaligned or unmapped address, with data 0,
and changes nothing but STATUS.BUSERR; a write errs exactly there, at a read-only location, and at a stopped-only one or a
BUF_INIT trigger while RUN or BLK_RUN stands, and then changes nothing but STATUS.BUSERR. -/
def Obligations.BusErrors : Prop :=
  ∀ (s : State) (a w : Word),
    let erring := ¬ hostMapped a.toNat ∨ a.toNat ∈ readOnlyOffsets ∨ (0x80000 ≤ a.toNat ∧ a.toNat < 0x82000) ∨
      ((s.ctrlRun = true ∨ s.blkRun = true) ∧
        (a.toNat ∈ stopOffsets ∨ (0x40000 ≤ a.toNat ∧ a.toNat < 0x40400) ∨ (0x100000 ≤ a.toNat ∧ a.toNat < 0x200000) ∨
          (a.toNat = 8 ∧ w.getLsbD 1 = false ∧ w.getLsbD 2 = true)))
    (¬ hostMapped a.toNat → step (offer s (.hostRead a)) =
      .next { idle s with busErr := true, emitted := .readResp 0 false :: s.emitted }) ∧
    (hostMapped a.toNat → ∃ data, step (offer s (.hostRead a)) =
      .next { idle s with emitted := .readResp data true :: s.emitted }) ∧
    (erring → step (offer s (.hostWrite a w)) =
      .next { idle s with busErr := true, emitted := .writeResp false :: s.emitted }) ∧
    (¬ erring → ∃ t, step (offer s (.hostWrite a w)) = .next t ∧ t.emitted = .writeResp true :: s.emitted)

/-- R104-R107 of 20_memory.md and the windows of R102: what a host read of each control register (10_state.md R58-R85), of
`P`, `PMEM`, `ENV` and `BUFMEM` returns. A shadowed register gives its SHADOW copy, STATUS.ACTIVE is BLK_RUN, and every
reserved bit is 0. -/
def Obligations.HostReadWindows : Prop :=
  ∀ s : State,
    (let gives := fun (a v : Word) =>
       step (offer s (.hostRead a)) = .next { idle s with emitted := .readResp v true :: s.emitted }
     gives 0x000 0x434D504B ∧ gives 0x004 0x00010A08 ∧
     gives 0x008 (BitVec.ofNat 32 s.ctrlRun.toNat) ∧
     gives 0x00C (BitVec.ofNat 32 (s.fault.toNat + 2 * s.busErr.toNat + 4 * s.blkRun.toNat)) ∧
     gives 0x010 (BitVec.ofNat 32 s.faultCause.toNat) ∧ gives 0x014 (BitVec.ofNat 32 s.faultPc.toNat) ∧
     gives 0x018 s.faultInsn ∧ gives 0x01C (BitVec.ofNat 32 s.irqEn.toNat) ∧
     gives 0x020 (BitVec.ofNat 32 s.fflags.toNat) ∧
     gives 0x024 s.frameCnt ∧ gives 0x028 s.blockCnt ∧ gives 0x02C s.hopCnt ∧
     gives 0x030 s.shadow.rate ∧ gives 0x034 s.shadow.bufLen ∧
     gives 0x038 (BitVec.ofNat 32 s.shadow.bufChans.toNat) ∧ gives 0x03C s.shadow.bufRate ∧
     gives 0x040 s.shadow.dlyTime ∧ gives 0x044 s.shadow.dlyMix ∧ gives 0x048 s.shadow.combTime ∧
     gives 0x050 (BitVec.ofNat 32 s.shadow.bqMode.toNat) ∧ gives 0x054 s.shadow.bqFreq ∧ gives 0x058 s.shadow.bqQ ∧
     gives 0x060 s.shadow.stftCtrl ∧ gives 0x064 s.shadow.stftRange ∧
     gives 0x070 s.bqCoef.b0 ∧ gives 0x074 s.bqCoef.b1 ∧ gives 0x078 s.bqCoef.b2 ∧ gives 0x07C s.bqCoef.a1 ∧
     gives 0x080 s.bqCoef.a2 ∧ gives 0x084 s.dlyFrames ∧ gives 0x088 s.combFrames) ∧
    (∀ i, i < 64 → step (offer s (.hostRead (BitVec.ofNat 32 (0x20000 + 4 * i)))) =
      .next { idle s with emitted := .readResp (cellGet s.shadow.p i) true :: s.emitted }) ∧
    (∀ i, i < 256 → step (offer s (.hostRead (BitVec.ofNat 32 (0x40000 + 4 * i)))) =
      .next { idle s with emitted := .readResp (s.mem.word (0x40000 + 4 * i)) true :: s.emitted }) ∧
    (∀ k, k < 513 → step (offer s (.hostRead (BitVec.ofNat 32 (0x80000 + 4 * k)))) =
      .next { idle s with emitted := .readResp (cellGet s.stft.l.env k) true :: s.emitted }) ∧
    (∀ k, k < 513 → step (offer s (.hostRead (BitVec.ofNat 32 (0x80000 + 4 * (1024 + k))))) =
      .next { idle s with emitted := .readResp (cellGet s.stft.r.env k) true :: s.emitted }) ∧
    (∀ c k, c < 2 → 513 ≤ k → k < 1024 → step (offer s (.hostRead (BitVec.ofNat 32 (0x80000 + 4 * (c * 1024 + k))))) =
      .next { idle s with emitted := .readResp 0 true :: s.emitted }) ∧
    (∀ i, i < 262144 → step (offer s (.hostRead (BitVec.ofNat 32 (0x100000 + 4 * i)))) =
      .next { idle s with emitted := .readResp (s.mem.word (0x100000 + 4 * i)) true :: s.emitted })

/-- R106, R107 of 20_memory.md: while stopped, a host write stores its word in `PMEM` or `BUFMEM` and changes no other
byte. -/
def Obligations.StoppedHostWritesStore : Prop :=
  ∀ (s : State) (a w : Word), s.ctrlRun = false → s.blkRun = false → s.mem.wf = true → a.toNat % 4 = 0 →
    (0x40000 ≤ a.toNat ∧ a.toNat < 0x40400) ∨ (0x100000 ≤ a.toNat ∧ a.toNat < 0x200000) →
    ∃ m : Memory, step (offer s (.hostWrite a w)) =
        .next { idle s with mem := m, emitted := .writeResp true :: s.emitted } ∧
      m.word a.toNat = w ∧ ∀ x, (x < a.toNat ∨ a.toNat + 4 ≤ x) → m.byte x = s.mem.byte x

/-- 10_state.md R72-R83, R58: a host write of a shadowed register stores the clamped value in SHADOW and leaves LIVE alone;
the stopped-only ones while stopped. `P[i]` takes the word unchanged (20_memory.md R104). -/
def Obligations.ShadowedRegisterWrites : Prop :=
  ∀ (s : State) (w : Word),
    let put := fun (a : Word) (p : Params) => step (offer s (.hostWrite a w)) =
      .next { idle s with shadow := p, emitted := .writeResp true :: s.emitted }
    put 0x040 { s.shadow with dlyTime := clampF w 0 maxF 0x3E800000 } ∧
    put 0x044 { s.shadow with dlyMix := clampF w 0 0x3F800000 0 } ∧
    put 0x048 { s.shadow with combTime := clampF w 0 maxF 0x3C23D70A } ∧
    put 0x050 { s.shadow with bqMode := BitVec.ofNat 2 (min w.toNat 2) } ∧
    put 0x054 { s.shadow with bqFreq := clampF w 0x3F800000 maxF 0x447A0000 } ∧
    put 0x058 { s.shadow with bqQ := clampF w 0x3C23D70A 0x447A0000 0x3F800000 } ∧
    put 0x060 { s.shadow with stftCtrl := clampF w 0xBF800000 0x3F800000 0 } ∧
    put 0x064 { s.shadow with stftRange := clampF w 0 0x41800000 0x40800000 } ∧
    (s.ctrlRun = false → s.blkRun = false →
      put 0x030 { s.shadow with rate := clampF w 0x3F800000 0x49742400 0x473B8000 } ∧
      put 0x034 { s.shadow with bufLen := BitVec.ofNat 32 (min w.toNat 262144) } ∧
      put 0x038 { s.shadow with bufChans := if w.toNat < 2 then 1 else 2 } ∧
      put 0x03C { s.shadow with bufRate := clampF w 0x3F800000 0x49742400 0x473B8000 }) ∧
    (∀ i, i < 64 → cellsWf 64 s.shadow.p = true → ∃ p : Cells,
      put (BitVec.ofNat 32 (0x20000 + 4 * i)) { s.shadow with p := p } ∧
      ∀ j, cellGet p j = if j = i then w else cellGet s.shadow.p j)

/-- R116: the clamp's result for each kind of operand, and that clamping twice is clamping once. -/
def Obligations.SetterClampBehaviour : Prop :=
  ∀ v lo hi dflt : Word,
    (isNaN v = true → clampF v lo hi dflt = dflt) ∧
    (flt v lo = true → clampF v lo hi dflt = lo) ∧
    (flt v lo = false → flt hi v = true → clampF v lo hi dflt = hi) ∧
    (isNaN v = false → flt v lo = false → flt hi v = false → clampF v lo hi dflt = v) ∧
    (isNaN lo = false → isNaN hi = false → flt hi lo = false → inRangeF dflt lo hi = true →
      inRangeF (clampF v lo hi dflt) lo hi = true ∧
      clampF (clampF v lo hi dflt) lo hi dflt = clampF v lo hi dflt) ∧
    (lo.toNat ≤ hi.toNat → (clampU v lo hi).toNat = min (max v.toNat lo.toNat) hi.toNat)

/-- 10_state.md R57, R63, R67, 60_exceptions.md R504: writing 1 clears a flag or a status bit and 0 leaves it, STATUS.ACTIVE
and the capture registers stay; IRQ_EN stores its two bits. -/
def Obligations.StatusAndFlagWrites : Prop :=
  ∀ (s : State) (w : Word),
    step (offer s (.hostWrite 0x00C w)) = .next
      { idle s with
        fault := s.fault && !w.getLsbD 0
        busErr := s.busErr && !w.getLsbD 1
        emitted := .writeResp true :: s.emitted } ∧
    (∃ f : FlagSet, step (offer s (.hostWrite 0x020 w)) =
        .next { idle s with fflags := f, emitted := .writeResp true :: s.emitted } ∧
      ∀ k, k < 5 → f.getLsbD k = (s.fflags.getLsbD k && !w.getLsbD k)) ∧
    step (offer s (.hostWrite 0x01C w)) =
      .next { idle s with irqEn := BitVec.ofNat 2 w.toNat, emitted := .writeResp true :: s.emitted }

/-- 10_state.md R62, 41_buffer.md R280: a CTRL write without SRST stores RUN; with BUF_INIT, accepted while stopped, every
`BUFMEM` word is zero first and `PMEM` keeps its bytes. -/
def Obligations.ControlWrites : Prop :=
  ∀ (s : State) (w : Word), w.getLsbD 1 = false →
    (w.getLsbD 2 = false → step (offer s (.hostWrite 0x008 w)) =
      .next { idle s with ctrlRun := w.getLsbD 0, emitted := .writeResp true :: s.emitted }) ∧
    (w.getLsbD 2 = true → s.ctrlRun = false → s.blkRun = false → ∃ m : Memory,
      step (offer s (.hostWrite 0x008 w)) =
        .next { idle s with ctrlRun := w.getLsbD 0, mem := m, emitted := .writeResp true :: s.emitted } ∧
      (∀ i, i < 262144 → m.word (0x100000 + 4 * i) = 0) ∧
      (∀ x, Config.inPmem x = true → m.byte x = s.mem.byte x))

/-- R552: a soft reset puts every state element at its reset value but `BUFMEM`, `IN_BLOCK`, `BLK_F` and `POS`, whatever the
other bits of the write are. The model's own fields (assumptions 1, 2, 3, 5) are kept. -/
def Obligations.SoftReset : Prop :=
  ∀ (s : State) (w : Word), w.getLsbD 1 = true → ∃ m : Memory,
    step (offer s (.hostWrite 0x008 w)) = .next
      { State.reset with
        mem := m
        inBlock := s.inBlock
        blkF := s.blkF
        pos := s.pos
        draws := s.draws
        inputs := s.inputs
        emitted := .writeResp true :: s.emitted } ∧
    (∀ x, Config.inBuf x = true → m.byte x = s.mem.byte x) ∧
    (∀ i, i < 256 → m.word (0x40000 + 4 * i) = 0)

/-- R550, R551, R553: the reset values the spec gives, and that the step which takes the power-on reset, from whatever
state, is one atomic step that puts every state element at its reset value: `PMEM` all zero, `BUFMEM` a fresh draw of
unspecified bytes (the free value of assumption 5), `irq` low. The model's own fields are kept (assumption 17). -/
def Obligations.ResetValues : Prop :=
  (let s := State.reset
   (∀ i, s.getS i = ⟨0, 0⟩) ∧ (∀ i, s.getF i = 0) ∧ s.oacc = ⟨0, 0⟩ ∧ s.pc = 0 ∧
   s.inBlock = false ∧ s.blkRun = false ∧ s.blkF = 0 ∧ s.pos = 0 ∧ s.fflags = 0 ∧
   s.readReg .id = 0x434D504B ∧ s.readReg .version = 0x00010A08 ∧ s.readReg .ctrl = 0 ∧ s.readReg .status = 0 ∧
   s.faultCause = 0 ∧ s.faultPc = 0 ∧ s.faultInsn = 0 ∧ s.irqEn = 0 ∧
   s.frameCnt = 0 ∧ s.blockCnt = 0 ∧ s.hopCnt = 0 ∧
   s.live = s.shadow ∧ s.live.rate = 0x473B8000 ∧ s.live.bufLen = 0 ∧ s.live.bufChans = 2 ∧ s.live.bufRate = 0x473B8000 ∧
   s.live.dlyTime = 0x3E800000 ∧ s.live.dlyMix = 0 ∧ s.live.combTime = 0x3C23D70A ∧
   s.live.bqMode = 0 ∧ s.live.bqFreq = 0x447A0000 ∧ s.live.bqQ = 0x3F800000 ∧
   s.live.stftCtrl = 0 ∧ s.live.stftRange = 0x40800000 ∧ (∀ i, cellGet s.live.p i = 0) ∧
   s.bqCoef = ⟨0x3B839466, 0x3C039466, 0x3B839466, 0xBFEE42A1, 0x3F60A1E7⟩ ∧
   s.dlyFrames = 12000 ∧ s.combFrames = 480 ∧ (∀ i, i < 256 → s.mem.word (0x40000 + 4 * i) = 0) ∧
   s.stft.hw = 0 ∧ s.stft.orr = 0 ∧ s.stft.hc = 0 ∧ s.stft.ow = 256 ∧
   (∀ ch ∈ [s.stft.l, s.stft.r], ∀ arr ∈ [ch.hist, ch.out, ch.anaPh, ch.anaMag, ch.anaFrq, ch.synPh, ch.synMag, ch.synFrq,
     ch.env], ∀ i, cellGet arr i = 0) ∧
   (∀ u ∈ [s.dly, s.comb], u.w = 0 ∧ ∀ i, cellGet u.l i = 0 ∧ cellGet u.r i = 0) ∧
   s.bqL = ⟨0, 0, 0, 0⟩ ∧ s.bqR = ⟨0, 0, 0, 0⟩) ∧
  (∀ s : State, ∃ m : Memory,
    let t : State := { State.reset with mem := m, draws := s.draws + 1, inputs := s.inputs, emitted := s.emitted }
    step (offer s .powerOn) = .next t ∧ t.irq = false ∧ m.wf = true ∧
    (∀ i, i < 256 → m.word (0x40000 + 4 * i) = 0) ∧
    ∀ x, Config.inBuf x = true → m.byte x = Config.bufPowerOn (s.draws + 1) x)

/-- 60_exceptions.md R515, R516: the interrupt line, and that a fault raised in a step shows on it, if enabled, in the state
after the step. -/
def Obligations.InterruptLine : Prop :=
  (∀ s : State, s.irq = true ↔
    (s.fault = true ∧ s.irqEn.getLsbD 0 = true) ∨ (s.busErr = true ∧ s.irqEn.getLsbD 1 = true)) ∧
  State.reset.irq = false ∧
  (∀ s t : State, s.inFrame = true → Config.progLen ≤ s.pc.toNat → s.irqEn.getLsbD 0 = true → step s = .next t →
    t.irq = true)
end

