-- ==== Sys2Proof/Laws/Decode.lean ====
section
/-! SUPPORT. Laws/Decode.lean: the fields of an assembled word, and the decoder's first two checks opcode by opcode. -/

namespace Sys2Proof

/-- A field of a word as a number. -/
theorem bits_toNat (w : Word) (lo n : Nat) : (bits w lo n).toNat = w.toNat / 2 ^ lo % 2 ^ n := by
  simp [bits, BitVec.extractLsb'_toNat, Nat.shiftRight_eq_div_pow]

/-- A run of bits is zero. -/
theorem bits_eq_zero (w : Word) (lo n : Nat) : (bits w lo n == 0) = decide (w.toNat / 2 ^ lo % 2 ^ n = 0) := by
  rw [← bits_toNat, Bool.eq_iff_iff]
  simp [← BitVec.toNat_inj]

section Fields
variable (op : BitVec 6) (d a b c e : RegIdx) (imm : BitVec 16)

/-- A format R word as a number: no field overlaps another. -/
theorem rWord_toNat : (rWord op d a b c e).toNat = op.toNat * 2 ^ 26 + d.toNat * 2 ^ 23 + a.toNat * 2 ^ 20
    + b.toNat * 2 ^ 17 + c.toNat * 2 ^ 14 + e.toNat * 2 ^ 11 := by
  unfold rWord
  rw [BitVec.toNat_ofNat]
  have := op.isLt; have := d.isLt; have := a.isLt; have := b.isLt; have := c.isLt; have := e.isLt
  omega

/-- A format I word as a number. -/
theorem iWord_toNat : (iWord op d imm).toNat = op.toNat * 2 ^ 26 + d.toNat * 2 ^ 23 + imm.toNat := by
  unfold iWord
  rw [BitVec.toNat_ofNat]
  have := op.isLt; have := d.isLt; have := imm.isLt
  omega

@[simp] theorem opField_rWord : opField (rWord op d a b c e) = op := by
  apply BitVec.eq_of_toNat_eq
  simp only [opField, bits_toNat, rWord_toNat]
  have := op.isLt; have := d.isLt; have := a.isLt; have := b.isLt; have := c.isLt; have := e.isLt
  omega

@[simp] theorem dField_rWord : dField (rWord op d a b c e) = d := by
  apply BitVec.eq_of_toNat_eq
  simp only [dField, bits_toNat, rWord_toNat]
  have := op.isLt; have := d.isLt; have := a.isLt; have := b.isLt; have := c.isLt; have := e.isLt
  omega

@[simp] theorem aField_rWord : aField (rWord op d a b c e) = a := by
  apply BitVec.eq_of_toNat_eq
  simp only [aField, bits_toNat, rWord_toNat]
  have := op.isLt; have := d.isLt; have := a.isLt; have := b.isLt; have := c.isLt; have := e.isLt
  omega

@[simp] theorem bField_rWord : bField (rWord op d a b c e) = b := by
  apply BitVec.eq_of_toNat_eq
  simp only [bField, bits_toNat, rWord_toNat]
  have := op.isLt; have := d.isLt; have := a.isLt; have := b.isLt; have := c.isLt; have := e.isLt
  omega

@[simp] theorem cField_rWord : cField (rWord op d a b c e) = c := by
  apply BitVec.eq_of_toNat_eq
  simp only [cField, bits_toNat, rWord_toNat]
  have := op.isLt; have := d.isLt; have := a.isLt; have := b.isLt; have := c.isLt; have := e.isLt
  omega

@[simp] theorem eField_rWord : eField (rWord op d a b c e) = e := by
  apply BitVec.eq_of_toNat_eq
  simp only [eField, bits_toNat, rWord_toNat]
  have := op.isLt; have := d.isLt; have := a.isLt; have := b.isLt; have := c.isLt; have := e.isLt
  omega

@[simp] theorem opField_iWord : opField (iWord op d imm) = op := by
  apply BitVec.eq_of_toNat_eq
  simp only [opField, bits_toNat, iWord_toNat]
  have := op.isLt; have := d.isLt; have := imm.isLt
  omega

@[simp] theorem dField_iWord : dField (iWord op d imm) = d := by
  apply BitVec.eq_of_toNat_eq
  simp only [dField, bits_toNat, iWord_toNat]
  have := op.isLt; have := d.isLt; have := imm.isLt
  omega

@[simp] theorem immField_iWord : immField (iWord op d imm) = imm := by
  apply BitVec.eq_of_toNat_eq
  simp only [immField, bits_toNat, iWord_toNat]
  have := op.isLt; have := d.isLt; have := imm.isLt
  omega

end Fields

/-! ## The decoder opcode by opcode -/

variable (w : Word)

theorem decodeFields_endp (h : (opField w).toNat = 0x00) :
    decodeFields w = ifZero (zeroZ w) .endp := by
  unfold decodeFields; rw [h]; rfl
theorem decodeFields_nop (h : (opField w).toNat = 0x01) :
    decodeFields w = ifZero (zeroZ w) .nop := by
  unfold decodeFields; rw [h]; rfl
theorem decodeFields_skipev (h : (opField w).toNat = 0x02) :
    decodeFields w = ifZero (zeroIn w) (.skipev (immField w)) := by
  unfold decodeFields; rw [h]; rfl
theorem decodeFields_ldi (h : (opField w).toNat = 0x04) :
    decodeFields w = ifZero (zeroI w) (.ldi (dField w) (immField w)) := by
  unfold decodeFields; rw [h]; rfl
theorem decodeFields_ldp (h : (opField w).toNat = 0x05) :
    decodeFields w = ifZero (zeroI w) (.ldp (dField w) (immField w)) := by
  unfold decodeFields; rw [h]; rfl
theorem decodeFields_outadd (h : (opField w).toNat = 0x06) :
    decodeFields w = ifZero (zeroA w) (.outadd (aField w)) := by
  unfold decodeFields; rw [h]; rfl
theorem decodeFields_sadd (h : (opField w).toNat = 0x08) :
    decodeFields w = ifZero (zero3 w) (.sadd (dField w) (aField w) (bField w)) := by
  unfold decodeFields; rw [h]; rfl
theorem decodeFields_ssub (h : (opField w).toNat = 0x09) :
    decodeFields w = ifZero (zero3 w) (.ssub (dField w) (aField w) (bField w)) := by
  unfold decodeFields; rw [h]; rfl
theorem decodeFields_smul (h : (opField w).toNat = 0x0A) :
    decodeFields w = ifZero (zero3 w) (.smul (dField w) (aField w) (bField w)) := by
  unfold decodeFields; rw [h]; rfl
theorem decodeFields_sdiv (h : (opField w).toNat = 0x0B) :
    decodeFields w = ifZero (zero3 w) (.sdiv (dField w) (aField w) (bField w)) := by
  unfold decodeFields; rw [h]; rfl
theorem decodeFields_saddf (h : (opField w).toNat = 0x0C) :
    decodeFields w = ifZero (zero3 w) (.saddf (dField w) (aField w) (bField w)) := by
  unfold decodeFields; rw [h]; rfl
theorem decodeFields_ssubf (h : (opField w).toNat = 0x0D) :
    decodeFields w = ifZero (zero3 w) (.ssubf (dField w) (aField w) (bField w)) := by
  unfold decodeFields; rw [h]; rfl
theorem decodeFields_smulf (h : (opField w).toNat = 0x0E) :
    decodeFields w = ifZero (zero3 w) (.smulf (dField w) (aField w) (bField w)) := by
  unfold decodeFields; rw [h]; rfl
theorem decodeFields_sdivf (h : (opField w).toNat = 0x0F) :
    decodeFields w = ifZero (zero3 w) (.sdivf (dField w) (aField w) (bField w)) := by
  unfold decodeFields; rw [h]; rfl
theorem decodeFields_sclip (h : (opField w).toNat = 0x10) :
    decodeFields w = ifZero (zero4 w) (.sclip (dField w) (aField w) (bField w) (cField w)) := by
  unfold decodeFields; rw [h]; rfl
theorem decodeFields_swrap (h : (opField w).toNat = 0x11) :
    decodeFields w = ifZero (zero4 w) (.swrap (dField w) (aField w) (bField w) (cField w)) := by
  unfold decodeFields; rw [h]; rfl
theorem decodeFields_slin (h : (opField w).toNat = 0x12) :
    decodeFields w = ifZero (zero5 w) (.slin (dField w) (aField w) (bField w) (cField w) (eField w)) := by
  unfold decodeFields; rw [h]; rfl
theorem decodeFields_smov (h : (opField w).toNat = 0x13) :
    decodeFields w = ifZero (zero2 w) (.smov (dField w) (aField w)) := by
  unfold decodeFields; rw [h]; rfl
theorem decodeFields_spack (h : (opField w).toNat = 0x14) :
    decodeFields w = ifZero (zero3 w) (.spack (dField w) (aField w) (bField w)) := by
  unfold decodeFields; rw [h]; rfl
theorem decodeFields_sgetl (h : (opField w).toNat = 0x15) :
    decodeFields w = ifZero (zero2 w) (.sgetl (dField w) (aField w)) := by
  unfold decodeFields; rw [h]; rfl
theorem decodeFields_sgetr (h : (opField w).toNat = 0x16) :
    decodeFields w = ifZero (zero2 w) (.sgetr (dField w) (aField w)) := by
  unfold decodeFields; rw [h]; rfl
theorem decodeFields_fadd (h : (opField w).toNat = 0x18) :
    decodeFields w = ifZero (zero3 w) (.fadd (dField w) (aField w) (bField w)) := by
  unfold decodeFields; rw [h]; rfl
theorem decodeFields_fsub (h : (opField w).toNat = 0x19) :
    decodeFields w = ifZero (zero3 w) (.fsub (dField w) (aField w) (bField w)) := by
  unfold decodeFields; rw [h]; rfl
theorem decodeFields_fmul (h : (opField w).toNat = 0x1A) :
    decodeFields w = ifZero (zero3 w) (.fmul (dField w) (aField w) (bField w)) := by
  unfold decodeFields; rw [h]; rfl
theorem decodeFields_fdiv (h : (opField w).toNat = 0x1B) :
    decodeFields w = ifZero (zero3 w) (.fdiv (dField w) (aField w) (bField w)) := by
  unfold decodeFields; rw [h]; rfl
theorem decodeFields_fmov (h : (opField w).toNat = 0x1C) :
    decodeFields w = ifZero (zero2 w) (.fmov (dField w) (aField w)) := by
  unfold decodeFields; rw [h]; rfl
theorem decodeFields_brd (h : (opField w).toNat = 0x20) :
    decodeFields w = ifZero (zero2 w) (.brd (dField w) (aField w)) := by
  unfold decodeFields; rw [h]; rfl
theorem decodeFields_brd1 (h : (opField w).toNat = 0x21) :
    decodeFields w = ifZero (zeroCh w) (.brd1 (dField w) (aField w) (bits w 17 1 == 1)) := by
  unfold decodeFields; rw [h]; rfl
theorem decodeFields_bwr (h : (opField w).toNat = 0x22) :
    decodeFields w = ifZero (zeroAB w) (.bwr (aField w) (bField w)) := by
  unfold decodeFields; rw [h]; rfl
theorem decodeFields_rscale (h : (opField w).toNat = 0x23) :
    decodeFields w = ifZero (zero2 w) (.rscale (dField w) (aField w)) := by
  unfold decodeFields; rw [h]; rfl
theorem decodeFields_sec2fr (h : (opField w).toNat = 0x24) :
    decodeFields w = ifZero (zero2 w) (.sec2fr (dField w) (aField w)) := by
  unfold decodeFields; rw [h]; rfl
theorem decodeFields_fr2sec (h : (opField w).toNat = 0x25) :
    decodeFields w = ifZero (zero2 w) (.fr2sec (dField w) (aField w)) := by
  unfold decodeFields; rw [h]; rfl
theorem decodeFields_dly (h : (opField w).toNat = 0x28) :
    decodeFields w = ifZero (zero2 w) (.dly (dField w) (aField w)) := by
  unfold decodeFields; rw [h]; rfl
theorem decodeFields_comb (h : (opField w).toNat = 0x29) :
    decodeFields w = ifZero (zero2 w) (.comb (dField w) (aField w)) := by
  unfold decodeFields; rw [h]; rfl
theorem decodeFields_biq (h : (opField w).toNat = 0x2A) :
    decodeFields w = ifZero (zero2 w) (.biq (dField w) (aField w)) := by
  unfold decodeFields; rw [h]; rfl
theorem decodeFields_stft (h : (opField w).toNat = 0x2B) :
    decodeFields w = ifZero (zero2 w) (.stft (dField w) (aField w)) := by
  unfold decodeFields; rw [h]; rfl

end Sys2Proof
end

