-- ==== Sys2Proof/Laws/Float.lean ====
section
/-! SUPPORT. Laws/Float.lean: the fields of a binary32 pattern, the sign flip, the exact value in units of 2^-149, and the
integer square root. -/

namespace Sys2Proof.Machine

/-! ## Fields -/

theorem signBit_eq (w : Word) : signBit w = decide (2 ^ 31 ≤ w.toNat) := BitVec.msb_eq_decide w

theorem expField_eq (w : Word) : expField w = w.toNat / 2 ^ 23 % 2 ^ 8 := by
  simp [expField, BitVec.extractLsb'_toNat, Nat.shiftRight_eq_div_pow]

theorem fracField_eq (w : Word) : fracField w = w.toNat % 2 ^ 23 := by
  simp [fracField, BitVec.extractLsb'_toNat]

theorem fracField_lt (w : Word) : fracField w < 2 ^ 23 := by rw [fracField_eq]; omega

theorem expField_lt (w : Word) : expField w < 2 ^ 8 := by rw [expField_eq]; omega

/-- The three fields make up the pattern. -/
theorem toNat_eq_fields (w : Word) : w.toNat = (signBit w).toNat * 2 ^ 31 + expField w * 2 ^ 23 + fracField w := by
  have := w.isLt
  rw [signBit_eq, expField_eq, fracField_eq]
  by_cases h : 2 ^ 31 ≤ w.toNat <;> simp only [h, decide_true, decide_false, Bool.toNat_true, Bool.toNat_false] <;> omega

theorem word_ext_fields {v w : Word} (hs : signBit v = signBit w) (he : expField v = expField w)
    (hf : fracField v = fracField w) : v = w :=
  BitVec.eq_of_toNat_eq (by rw [toNat_eq_fields v, toNat_eq_fields w, hs, he, hf])

/-! ## The sign flip -/

/-- Below bit 31 the constant of the sign flip has no bit set. -/
theorem signMask_getLsbD {i : Nat} (h : i < 31) : (0x80000000#32).getLsbD i = false := by
  interval_cases i <;> rfl

@[simp] theorem signBit_fneg (w : Word) : signBit (fneg w) = !signBit w := by
  simp [signBit, fneg]

@[simp] theorem expField_fneg (w : Word) : expField (fneg w) = expField w := by
  unfold expField
  congr 1
  refine BitVec.eq_of_getLsbD_eq fun i hi => ?_
  simp only [BitVec.getLsbD_extractLsb', fneg, BitVec.getLsbD_xor, signMask_getLsbD (show 23 + i < 31 by omega),
    Bool.xor_false]

@[simp] theorem fracField_fneg (w : Word) : fracField (fneg w) = fracField w := by
  unfold fracField
  congr 1
  refine BitVec.eq_of_getLsbD_eq fun i hi => ?_
  simp only [BitVec.getLsbD_extractLsb', fneg, BitVec.getLsbD_xor, signMask_getLsbD (show 0 + i < 31 by omega),
    Bool.xor_false]

@[simp] theorem isNaN_fneg (w : Word) : isNaN (fneg w) = isNaN w := by simp [isNaN]
@[simp] theorem isInf_fneg (w : Word) : isInf (fneg w) = isInf w := by simp [isInf]
@[simp] theorem isZero_fneg (w : Word) : isZero (fneg w) = isZero w := by simp [isZero]
@[simp] theorem isFinite_fneg (w : Word) : isFinite (fneg w) = isFinite w := by simp [isFinite]
@[simp] theorem magOf_fneg (w : Word) : magOf (fneg w) = magOf w := by simp [magOf]

@[simp] theorem isSNaN_fneg (w : Word) : isSNaN (fneg w) = isSNaN w := by
  rw [isSNaN, isNaN_fneg, isSNaN, fneg, BitVec.getLsbD_xor, signMask_getLsbD (show 22 < 31 by omega), Bool.xor_false]

@[simp] theorem fixOf_fneg (w : Word) : fixOf (fneg w) = -fixOf w := by
  unfold fixOf
  cases h : signBit w <;> simp [h]

@[simp] theorem fneg_fneg (w : Word) : fneg (fneg w) = w :=
  word_ext_fields (by simp) (by simp) (by simp)

/-! ## Kinds of pattern -/

theorem isFinite_iff {w : Word} : isFinite w = true ↔ isNaN w = false ∧ isInf w = false := by
  by_cases h : expField w = 255 <;> by_cases h' : fracField w = 0 <;> simp [isFinite, isNaN, isInf, h, h']

theorem isNaN_of_isFinite {w : Word} (h : isFinite w = true) : isNaN w = false := (isFinite_iff.1 h).1

theorem isInf_of_isFinite {w : Word} (h : isFinite w = true) : isInf w = false := (isFinite_iff.1 h).2

theorem isNaN_of_isInf {w : Word} (h : isInf w = true) : isNaN w = false := by
  by_cases h' : fracField w = 0 <;> simp_all [isNaN, isInf]

theorem isZero_of_isInf {w : Word} (h : isInf w = true) : isZero w = false := by
  simp only [isInf, Bool.and_eq_true, beq_iff_eq] at h
  simp [isZero, h.1]

theorem isFinite_of_isZero {w : Word} (h : isZero w = true) : isFinite w = true := by
  simp only [isZero, Bool.and_eq_true, beq_iff_eq] at h
  simp [isFinite, h.1]

/-- The two zeros. -/
theorem eq_of_isZero {w : Word} (h : isZero w = true) : w = if signBit w then 0x80000000 else 0 := by
  simp only [isZero, Bool.and_eq_true, beq_iff_eq] at h
  cases hs : signBit w
  · exact word_ext_fields (by rw [hs]; rfl) (by rw [h.1]; rfl) (by rw [h.2]; rfl)
  · exact word_ext_fields (by rw [hs]; rfl) (by rw [h.1]; rfl) (by rw [h.2]; rfl)

/-- The two infinities. -/
theorem eq_of_isInf {w : Word} (h : isInf w = true) : w = withSign (signBit w) posInf := by
  simp only [isInf, Bool.and_eq_true, beq_iff_eq] at h
  cases hs : signBit w
  · exact word_ext_fields (by rw [hs]; rfl) (by rw [h.1]; rfl) (by rw [h.2]; rfl)
  · exact word_ext_fields (by rw [hs]; rfl) (by rw [h.1]; rfl) (by rw [h.2]; rfl)

/-! ## The exact value, in units of 2^-149 -/

theorem magOf_eq_zero {w : Word} : magOf w = 0 ↔ isZero w = true := by
  unfold magOf isZero
  split <;> simp_all

theorem natAbs_fixOf (w : Word) : (fixOf w).natAbs = magOf w := by
  unfold fixOf
  split <;> simp

theorem fixOf_eq_zero {w : Word} : fixOf w = 0 ↔ isZero w = true := by
  rw [← magOf_eq_zero, ← natAbs_fixOf, Int.natAbs_eq_zero]

theorem fixOf_neg_iff {w : Word} : fixOf w < 0 ↔ signBit w = true ∧ isZero w = false := by
  have := natAbs_fixOf w
  have := @magOf_eq_zero w
  unfold fixOf
  cases signBit w <;> cases h : isZero w <;> (simp_all; try omega)

/-- A positive value has a clear sign and no zero magnitude. -/
theorem signBit_of_fixOf_pos {w : Word} (h : 0 < fixOf w) : signBit w = false := by
  unfold fixOf at h
  cases hs : signBit w
  · rfl
  · simp only [hs, if_true] at h; omega

theorem magOf_of_subnormal {w : Word} (h : expField w = 0) : magOf w = fracField w := by simp [magOf, h]

theorem magOf_of_normal {w : Word} (h : expField w ≠ 0) :
    magOf w = (2 ^ 23 + fracField w) * 2 ^ (expField w - 1) := by simp [magOf, h]

/-! ## The integer square root -/

/-- Above the root a division gives at most the root. -/
theorem div_le_sqrt {n x : Nat} (hx : Nat.sqrt n < x) : n / x ≤ Nat.sqrt n := by
  have h := Nat.sqrt_lt'.1 (Nat.lt_succ_self (Nat.sqrt n))
  refine Nat.lt_succ_iff.1 ((Nat.div_lt_iff_lt_mul (by omega)).2 ?_)
  calc n < (Nat.sqrt n + 1) ^ 2 := h
    _ = (Nat.sqrt n + 1) * (Nat.sqrt n + 1) := Nat.pow_two _
    _ ≤ (Nat.sqrt n + 1) * x := Nat.mul_le_mul_left _ hx

/-- Newton's step stays at or above the root. -/
theorem sqrt_le_newton {n x : Nat} (hx : 0 < x) : Nat.sqrt n ≤ (x + n / x) / 2 := by
  have h := Nat.sqrt_le' n
  suffices 2 * Nat.sqrt n ≤ x + n / x by omega
  by_contra hc
  have hx2 : x ≤ 2 * Nat.sqrt n := ((Nat.le_add_right x (n / x)).trans_lt (not_le.1 hc)).le
  have hd : n < x * (n / x + 1) := Nat.lt_mul_div_succ n hx
  have hs : n / x + 1 ≤ 2 * Nat.sqrt n - x := by omega
  have h1 : x * (n / x + 1) ≤ x * (2 * Nat.sqrt n - x) := Nat.mul_le_mul_left x hs
  have h2 : x * (2 * Nat.sqrt n - x) ≤ Nat.sqrt n ^ 2 := by
    zify [hx2]
    nlinarith [sq_nonneg ((x : Int) - Nat.sqrt n)]
  exact absurd (lt_of_lt_of_le hd (h1.trans (h2.trans h))) (lt_irrefl n)

/-- From at or above the root, with as much fuel as halvings of the distance to it, the loop ends at the root. -/
theorem isqrtLoop_eq (n : Nat) : ∀ (fuel x : Nat), 0 < x → Nat.sqrt n ≤ x → x < Nat.sqrt n + 2 ^ fuel →
    isqrtLoop n fuel x = Nat.sqrt n := by
  intro fuel
  induction fuel with
  | zero => intro x _ h1 h2; simp only [isqrtLoop]; omega
  | succ k ih =>
    intro x hx h1 h2
    simp only [isqrtLoop]
    have hge := sqrt_le_newton (n := n) hx
    rcases Nat.eq_or_lt_of_le h1 with h | h
    · rw [if_neg (by omega), h]
    · have hd := div_le_sqrt h
      rw [if_pos (by omega)]
      rcases Nat.eq_zero_or_pos ((x + n / x) / 2) with h0 | h0
      · have : Nat.sqrt n = 0 := by omega
        have hn : n = 0 := Nat.sqrt_eq_zero.1 this
        subst hn
        rw [h0, this]
        cases k <;> simp [isqrtLoop]
      · exact ih _ h0 hge (by rw [Nat.pow_succ] at h2; omega)

/-- `isqrt` is the integer part of the square root. -/
theorem isqrt_eq (n : Nat) : isqrt n = Nat.sqrt n := by
  unfold isqrt
  split
  · next h => simp [h]
  · next h =>
    have h1 : n < 2 ^ (n.log2 + 1) := Nat.lt_log2_self
    have h2 : n < (2 ^ (n.log2 / 2 + 1)) ^ 2 := by
      refine lt_of_lt_of_le h1 ?_
      rw [← Nat.pow_mul]
      exact Nat.pow_le_pow_right (by omega) (by omega)
    refine isqrtLoop_eq n _ _ (Nat.two_pow_pos _) (Nat.sqrt_lt'.2 h2).le ?_
    have : 2 ^ (n.log2 / 2 + 1) < 2 ^ (n.log2 + 2) := Nat.pow_lt_pow_right (by omega) (by omega)
    omega

/-- The root's square is at most the number, and the next one's is more. -/
theorem isqrt_spec (n : Nat) : isqrt n * isqrt n ≤ n ∧ n < (isqrt n + 1) * (isqrt n + 1) := by
  rw [isqrt_eq]
  exact ⟨Nat.sqrt_le n, Nat.sqrt_lt.1 (Nat.lt_succ_self _)⟩

end Sys2Proof.Machine
end

