-- ==== Sys2Proof/Laws/Memory.lean ====
section
/-! SUPPORT. Laws/Memory.lean: the laws of the association lists, the word arrays and the byte memory: read after write,
writes elsewhere, and the canonical form kept by every operation. -/

namespace Sys2Proof.Machine

/-! ## Association lists -/

section Keys
variable {α : Type}

@[simp] theorem lookupKey_insertKey_same (k : Nat) (v : α) (c : List (Nat × α)) :
    lookupKey k (insertKey k v c) = some v := by
  induction c with
  | nil => simp [insertKey, lookupKey]
  | cons e t ih =>
    obtain ⟨j, u⟩ := e
    simp only [insertKey]
    split
    · simp [lookupKey]
    · split
      · simp [lookupKey]
      · simp [lookupKey, *]

theorem lookupKey_insertKey_ne {k j : Nat} (h : j ≠ k) (v : α) (c : List (Nat × α)) :
    lookupKey j (insertKey k v c) = lookupKey j c := by
  induction c with
  | nil => simp [insertKey, lookupKey, Ne.symm h]
  | cons e t ih =>
    obtain ⟨i, u⟩ := e
    simp only [insertKey]
    split
    · simp [lookupKey, Ne.symm h]
    · split
      · next hik => subst hik; simp [lookupKey, Ne.symm h]
      · simp [lookupKey, ih]

theorem lookupKey_eraseKey_ne {k j : Nat} (h : j ≠ k) (c : List (Nat × α)) :
    lookupKey j (eraseKey k c) = lookupKey j c := by
  induction c with
  | nil => rfl
  | cons e t ih =>
    obtain ⟨i, u⟩ := e
    simp only [eraseKey]
    split
    · rfl
    · split
      · next hik => subst hik; simp [lookupKey, Ne.symm h]
      · simp [lookupKey, ih]

theorem risingFrom_mono {lo lo' : Nat} (h : lo' ≤ lo) {c : List (Nat × α)} (hc : risingFrom lo c = true) :
    risingFrom lo' c = true := by
  cases c with
  | nil => rfl
  | cons e t =>
    simp only [risingFrom, Bool.and_eq_true, decide_eq_true_eq] at hc ⊢
    exact ⟨Nat.le_trans h hc.1, hc.2⟩

theorem lookupKey_below {lo k : Nat} (h : k < lo) {c : List (Nat × α)} (hc : risingFrom lo c = true) :
    lookupKey k c = none := by
  induction c generalizing lo with
  | nil => rfl
  | cons e t ih =>
    obtain ⟨j, u⟩ := e
    simp only [risingFrom, Bool.and_eq_true, decide_eq_true_eq] at hc
    simp only [lookupKey, if_neg (show ¬ j = k by omega)]
    exact ih (by omega) hc.2

theorem lookupKey_eraseKey_same {lo k : Nat} {c : List (Nat × α)} (hc : risingFrom lo c = true) :
    lookupKey k (eraseKey k c) = none := by
  induction c generalizing lo with
  | nil => rfl
  | cons e t ih =>
    obtain ⟨j, u⟩ := e
    simp only [risingFrom, Bool.and_eq_true, decide_eq_true_eq] at hc
    simp only [eraseKey]
    split
    · next hk => simp only [lookupKey, if_neg (show ¬ j = k by omega)]; exact lookupKey_below (by omega) hc.2
    · split
      · next hjk => subst hjk; exact lookupKey_below (by omega) hc.2
      · next hjk => simp only [lookupKey, if_neg hjk]; exact ih hc.2

theorem risingFrom_insertKey {lo k : Nat} (v : α) {c : List (Nat × α)} (hc : risingFrom lo c = true) (h : lo ≤ k) :
    risingFrom lo (insertKey k v c) = true := by
  induction c generalizing lo with
  | nil => simp [insertKey, risingFrom, h]
  | cons e t ih =>
    obtain ⟨j, u⟩ := e
    simp only [risingFrom, Bool.and_eq_true, decide_eq_true_eq] at hc
    simp only [insertKey]
    split
    · next hk => simp [risingFrom, h, hc.2]; omega
    · split
      · next hjk => subst hjk; simp [risingFrom, h, hc.2]
      · simp only [risingFrom, Bool.and_eq_true, decide_eq_true_eq]
        exact ⟨hc.1, ih hc.2 (by omega)⟩

theorem risingFrom_eraseKey {lo : Nat} (k : Nat) {c : List (Nat × α)} (hc : risingFrom lo c = true) :
    risingFrom lo (eraseKey k c) = true := by
  induction c generalizing lo with
  | nil => rfl
  | cons e t ih =>
    obtain ⟨j, u⟩ := e
    have hc' := hc
    simp only [risingFrom, Bool.and_eq_true, decide_eq_true_eq] at hc
    simp only [eraseKey]
    split
    · exact hc'
    · split
      · exact risingFrom_mono (by omega) hc.2
      · simp only [risingFrom, Bool.and_eq_true, decide_eq_true_eq]
        exact ⟨hc.1, ih hc.2⟩

theorem risingFrom_filter {lo : Nat} (f : Nat × α → Bool) {c : List (Nat × α)} (hc : risingFrom lo c = true) :
    risingFrom lo (c.filter f) = true := by
  induction c generalizing lo with
  | nil => rfl
  | cons e t ih =>
    obtain ⟨j, u⟩ := e
    simp only [risingFrom, Bool.and_eq_true, decide_eq_true_eq] at hc
    by_cases hf : f (j, u) = true
    · simp only [List.filter_cons_of_pos hf, risingFrom, Bool.and_eq_true, decide_eq_true_eq]
      exact ⟨hc.1, ih hc.2⟩
    · rw [List.filter_cons_of_neg hf]
      exact risingFrom_mono (by omega) (ih hc.2)

theorem mem_insertKey {k : Nat} {v : α} {c : List (Nat × α)} {e : Nat × α} (h : e ∈ insertKey k v c) :
    e = (k, v) ∨ e ∈ c := by
  induction c with
  | nil => simpa [insertKey] using h
  | cons x t ih =>
    obtain ⟨j, u⟩ := x
    simp only [insertKey] at h
    split at h
    · simpa using h
    · split at h
      · rcases List.mem_cons.mp h with h | h
        · exact .inl h
        · exact .inr (List.mem_cons_of_mem _ h)
      · rcases List.mem_cons.mp h with h | h
        · exact .inr (by rw [h]; exact List.mem_cons_self)
        · rcases ih h with h | h
          · exact .inl h
          · exact .inr (List.mem_cons_of_mem _ h)

theorem mem_eraseKey {k : Nat} {c : List (Nat × α)} {e : Nat × α} (h : e ∈ eraseKey k c) : e ∈ c := by
  induction c with
  | nil => exact h
  | cons x t ih =>
    obtain ⟨j, u⟩ := x
    simp only [eraseKey] at h
    split at h
    · exact h
    · split at h
      · exact List.mem_cons_of_mem _ h
      · rcases List.mem_cons.mp h with h | h
        · rw [h]; exact List.mem_cons_self
        · exact List.mem_cons_of_mem _ (ih h)

theorem lookupKey_filter_of_pos {k : Nat} (p : Nat → Bool) (h : p k = true) (c : List (Nat × α)) :
    lookupKey k (c.filter fun e => p e.1) = lookupKey k c := by
  induction c with
  | nil => rfl
  | cons e t ih =>
    obtain ⟨j, u⟩ := e
    by_cases hj : p j = true
    · simp [hj, lookupKey, ih]
    · have : j ≠ k := fun hjk => hj (hjk ▸ h)
      simp [hj, lookupKey, ih, this]

theorem lookupKey_filter_of_neg {k : Nat} (p : Nat → Bool) (h : p k = false) (c : List (Nat × α)) :
    lookupKey k (c.filter fun e => p e.1) = none := by
  induction c with
  | nil => rfl
  | cons e t ih =>
    obtain ⟨j, u⟩ := e
    by_cases hj : p j = true
    · have : j ≠ k := fun hjk => by rw [hjk, h] at hj; exact absurd hj (by decide)
      simp [hj, lookupKey, ih, this]
    · simp [hj, ih]

end Keys

/-! ## Word arrays -/

/-- The canonical form, read as two facts. -/
theorem cellsWf_iff {len : Nat} {c : Cells} :
    cellsWf len c = true ↔ risingFrom 0 c = true ∧ ∀ e ∈ c, e.1 < len ∧ e.2 ≠ zeroW := by
  simp [cellsWf, List.all_eq_true]

@[simp] theorem cellsWf_nil (len : Nat) : cellsWf len [] = true := rfl

@[simp] theorem cellGet_nil (i : Nat) : cellGet [] i = zeroW := rfl

/-- A write keeps the canonical form. -/
theorem cellsWf_cellSet {len : Nat} {c : Cells} (hc : cellsWf len c = true) {i : Nat} (hi : i < len) (v : Word) :
    cellsWf len (cellSet c i v) = true := by
  rw [cellsWf_iff] at hc ⊢
  unfold cellSet
  split
  · exact ⟨risingFrom_eraseKey i hc.1, fun e he => hc.2 e (mem_eraseKey he)⟩
  · next hv =>
    refine ⟨risingFrom_insertKey v hc.1 (Nat.zero_le _), fun e he => ?_⟩
    rcases mem_insertKey he with he | he
    · rw [he]; exact ⟨hi, hv⟩
    · exact hc.2 e he

/-- Reading the word just written. -/
theorem cellGet_cellSet_same {len : Nat} {c : Cells} (hc : cellsWf len c = true) (i : Nat) (v : Word) :
    cellGet (cellSet c i v) i = v := by
  unfold cellGet cellSet
  split
  · next hv => rw [lookupKey_eraseKey_same (cellsWf_iff.mp hc).1, hv]; rfl
  · simp

/-- A write leaves every other word alone. -/
theorem cellGet_cellSet_ne {c : Cells} {i j : Nat} (h : j ≠ i) (v : Word) :
    cellGet (cellSet c i v) j = cellGet c j := by
  unfold cellGet cellSet
  split
  · rw [lookupKey_eraseKey_ne h]
  · rw [lookupKey_insertKey_ne h]

/-! ## Byte memory -/

/-- The canonical form, read as two facts. -/
theorem Memory.wf_iff {m : Memory} :
    m.wf = true ↔
      risingFrom 0 m.cells = true ∧ ∀ e ∈ m.cells, mapped e.1 = true ∧ unlisted m.fill e.1 ≠ some e.2 := by
  simp [Memory.wf, List.all_eq_true]

@[simp] theorem Memory.setByte_fill (m : Memory) (a : Nat) (v : Byte) : (m.setByte a v).fill = m.fill := by
  unfold Memory.setByte; split <;> rfl

@[simp] theorem Memory.setWord_fill (m : Memory) (a : Nat) (v : Word) : (m.setWord a v).fill = m.fill := by
  simp [Memory.setWord]

/-- Writing a byte keeps the canonical form. -/
theorem Memory.wf_setByte {m : Memory} (hm : m.wf = true) (a : Nat) (v : Byte) : (m.setByte a v).wf = true := by
  unfold Memory.setByte
  split
  · next ha =>
    rw [Memory.wf_iff] at hm ⊢
    dsimp only
    split
    · exact ⟨risingFrom_eraseKey a hm.1, fun e he => hm.2 e (mem_eraseKey he)⟩
    · next hv =>
      refine ⟨risingFrom_insertKey v hm.1 (Nat.zero_le _), fun e he => ?_⟩
      rcases mem_insertKey he with he | he
      · rw [he]; exact ⟨ha, hv⟩
      · exact hm.2 e he
  · exact hm

/-- Writing a word keeps the canonical form. -/
theorem Memory.wf_setWord {m : Memory} (hm : m.wf = true) (a : Nat) (v : Word) : (m.setWord a v).wf = true :=
  Memory.wf_setByte (Memory.wf_setByte (Memory.wf_setByte (Memory.wf_setByte hm _ _) _ _) _ _) _ _

/-- The byte addresses of `PMEM`, with the default configuration (20_memory.md R102). -/
theorem inPmem_iff {a : Nat} : Config.inPmem a = true ↔ 0x40000 ≤ a ∧ a < 0x40400 := by
  unfold Config.inPmem
  rw [Bool.and_eq_true, decide_eq_true_eq, decide_eq_true_eq]
  exact Iff.rfl

/-- The byte addresses of `BUFMEM`, with the default configuration (20_memory.md R102). -/
theorem inBuf_iff {a : Nat} : Config.inBuf a = true ↔ 0x100000 ≤ a ∧ a < 0x200000 := by
  unfold Config.inBuf
  rw [Bool.and_eq_true, decide_eq_true_eq, decide_eq_true_eq]
  exact Iff.rfl

/-- The addresses that hold a byte. -/
theorem mapped_iff {a : Nat} : mapped a = true ↔ (0x40000 ≤ a ∧ a < 0x40400) ∨ (0x100000 ≤ a ∧ a < 0x200000) := by
  unfold mapped
  rw [Bool.or_eq_true, inPmem_iff, inBuf_iff]

/-- `PMEM` and `BUFMEM` share no address. -/
theorem inPmem_of_inBuf {a : Nat} (h : Config.inBuf a = true) : Config.inPmem a = false := by
  rw [inBuf_iff] at h
  rw [Bool.eq_false_iff, ne_eq, inPmem_iff]
  omega

/-- BUF_INIT keeps the canonical form. -/
theorem Memory.wf_bufInit {m : Memory} (hm : m.wf = true) : m.bufInit.wf = true := by
  rw [Memory.wf_iff] at hm ⊢
  refine ⟨risingFrom_filter _ hm.1, fun e he => ?_⟩
  simp only [Memory.bufInit, List.mem_filter, Bool.not_eq_true'] at he
  have h := hm.2 e he.1
  have hp : Config.inPmem e.1 = true := by simpa [mapped, he.2] using h.1
  refine ⟨h.1, ?_⟩
  simpa [unlisted, hp, Memory.bufInit] using h.2

/-- Clearing `PMEM` keeps the canonical form. -/
theorem Memory.wf_clearPmem {m : Memory} (hm : m.wf = true) : m.clearPmem.wf = true := by
  rw [Memory.wf_iff] at hm ⊢
  exact ⟨risingFrom_filter _ hm.1, fun e he => hm.2 e (List.mem_filter.mp he).1⟩

/-- The memory after power-on has the canonical form. -/
@[simp] theorem Memory.wf_powerOn (draw : Nat) : (Memory.powerOn draw).wf = true := rfl

/-- The memory of the reset state has the canonical form. -/
theorem reset_memory_wf : State.reset.mem.wf = true := rfl

/-- The listed bytes after a write of one byte. -/
theorem Memory.setByte_cells {m : Memory} {a : Nat} (ha : mapped a = true) (v : Byte) :
    (m.setByte a v).cells = if unlisted m.fill a = some v then eraseKey a m.cells else insertKey a v m.cells := by
  simp [Memory.setByte, ha]

/-- Reading the byte just written. -/
theorem Memory.byte_setByte_same {m : Memory} (hm : m.wf = true) {a : Nat} (ha : mapped a = true) (v : Byte) :
    (m.setByte a v).byte a = v := by
  unfold Memory.byte Memory.read?
  rw [Memory.setByte_cells ha, Memory.setByte_fill]
  split_ifs with hv
  · rw [lookupKey_eraseKey_same (Memory.wf_iff.mp hm).1]
    simp [hv]
  · simp

/-- A byte write leaves every other byte alone. -/
theorem Memory.byte_setByte_ne {m : Memory} {a b : Nat} (h : b ≠ a) (v : Byte) : (m.setByte a v).byte b = m.byte b := by
  by_cases ha : mapped a = true
  · unfold Memory.byte Memory.read?
    rw [Memory.setByte_cells ha, Memory.setByte_fill]
    split_ifs
    · rw [lookupKey_eraseKey_ne h]
    · rw [lookupKey_insertKey_ne h]
  · simp [Memory.setByte, ha]

/-- A word write leaves every byte outside the word alone. -/
theorem Memory.byte_setWord_outside {m : Memory} {a b : Nat} (h : b < a ∨ a + 4 ≤ b) (v : Word) :
    (m.setWord a v).byte b = m.byte b := by
  unfold Memory.setWord
  rw [Memory.byte_setByte_ne (by omega), Memory.byte_setByte_ne (by omega), Memory.byte_setByte_ne (by omega),
    Memory.byte_setByte_ne (by omega)]

/-- A word write leaves every word that shares no byte with it alone. -/
theorem Memory.word_setWord_outside {m : Memory} {a b : Nat} (h : b + 4 ≤ a ∨ a + 4 ≤ b) (v : Word) :
    (m.setWord a v).word b = m.word b := by
  unfold Memory.word
  rw [Memory.byte_setWord_outside (by omega), Memory.byte_setWord_outside (by omega),
    Memory.byte_setWord_outside (by omega), Memory.byte_setWord_outside (by omega)]

/-- The bytes of a word put together give the word. -/
@[simp] theorem wordOfBytes_byteOfWord (w : Word) :
    wordOfBytes (byteOfWord w 0) (byteOfWord w 1) (byteOfWord w 2) (byteOfWord w 3) = w := by
  unfold wordOfBytes byteOfWord
  apply BitVec.eq_of_toNat_eq
  simp only [BitVec.toNat_append, BitVec.extractLsb'_toNat, Nat.shiftRight_eq_div_pow, Nat.shiftLeft_eq]
  have := w.isLt
  rw [← Nat.shiftLeft_eq, ← Nat.shiftLeft_eq, ← Nat.shiftLeft_eq, Nat.shiftLeft_or_distrib, Nat.shiftLeft_or_distrib]
  simp only [← Nat.shiftLeft_or_distrib]
  rw [← Nat.shiftLeft_add_eq_or_of_lt (by omega), ← Nat.shiftLeft_add_eq_or_of_lt (by omega),
    ← Nat.shiftLeft_add_eq_or_of_lt (by omega)]
  simp only [Nat.shiftLeft_eq]
  omega

/-- Reading the word just written. -/
theorem Memory.word_setWord_same {m : Memory} (hm : m.wf = true) {a : Nat} (h0 : mapped a = true)
    (h1 : mapped (a + 1) = true) (h2 : mapped (a + 2) = true) (h3 : mapped (a + 3) = true) (v : Word) :
    (m.setWord a v).word a = v := by
  have w0 := Memory.wf_setByte hm a (byteOfWord v 0)
  have w1 := Memory.wf_setByte w0 (a + 1) (byteOfWord v 1)
  have w2 := Memory.wf_setByte w1 (a + 2) (byteOfWord v 2)
  unfold Memory.word Memory.setWord
  rw [Memory.byte_setByte_same w2 h3, Memory.byte_setByte_ne (by omega) (b := a + 2),
    Memory.byte_setByte_same w1 h2, Memory.byte_setByte_ne (by omega) (b := a + 1),
    Memory.byte_setByte_ne (by omega) (b := a + 1), Memory.byte_setByte_same w0 h1,
    Memory.byte_setByte_ne (by omega) (b := a), Memory.byte_setByte_ne (by omega) (b := a),
    Memory.byte_setByte_ne (by omega) (b := a), Memory.byte_setByte_same hm h0, wordOfBytes_byteOfWord]

/-- After BUF_INIT every byte of `BUFMEM` is zero. -/
theorem Memory.byte_bufInit {m : Memory} {a : Nat} (h : Config.inBuf a = true) : m.bufInit.byte a = 0 := by
  have hl : lookupKey a (m.cells.filter fun e => !Config.inBuf e.1) = none :=
    lookupKey_filter_of_neg (fun k => !Config.inBuf k) (by simp [h]) m.cells
  simp [Memory.byte, Memory.read?, Memory.bufInit, hl, unlisted, h, inPmem_of_inBuf h]

/-- Clearing `PMEM` keeps every byte of `BUFMEM`. -/
theorem Memory.byte_clearPmem_buf {m : Memory} {a : Nat} (h : Config.inBuf a = true) :
    m.clearPmem.byte a = m.byte a := by
  have hl : lookupKey a (m.cells.filter fun e => Config.inBuf e.1) = lookupKey a m.cells :=
    lookupKey_filter_of_pos Config.inBuf h m.cells
  simp [Memory.byte, Memory.read?, Memory.clearPmem, hl]

/-- Clearing `PMEM` makes every byte of it zero. -/
theorem Memory.byte_clearPmem_pmem {m : Memory} {a : Nat} (h : Config.inPmem a = true) : m.clearPmem.byte a = 0 := by
  have hb : Config.inBuf a = false := by
    by_contra hb
    exact absurd (inPmem_of_inBuf (by simpa using hb)) (by simp [h])
  have hl : lookupKey a (m.cells.filter fun e => Config.inBuf e.1) = none :=
    lookupKey_filter_of_neg Config.inBuf hb m.cells
  simp [Memory.byte, Memory.read?, Memory.clearPmem, hl, unlisted, h]

end Sys2Proof.Machine
end

