-- ==== Sys2Proof/Laws/State.lean ====
section
/-! SUPPORT. Laws/State.lean: one lemma per field per update of the state, each true by rfl, and what reading a register
gives after a write. -/

namespace Sys2Proof.Machine

variable (s : State)

/-! ## setS -/

@[simp] theorem State.setS_sreg (d : RegIdx) (v : Sample) : (s.setS d v).sreg = s.sreg.set d.toNat v d.isLt := rfl
@[simp] theorem State.setS_freg (d : RegIdx) (v : Sample) : (s.setS d v).freg = s.freg := rfl
@[simp] theorem State.setS_oacc (d : RegIdx) (v : Sample) : (s.setS d v).oacc = s.oacc := rfl
@[simp] theorem State.setS_pc (d : RegIdx) (v : Sample) : (s.setS d v).pc = s.pc := rfl
@[simp] theorem State.setS_inBlock (d : RegIdx) (v : Sample) : (s.setS d v).inBlock = s.inBlock := rfl
@[simp] theorem State.setS_blkRun (d : RegIdx) (v : Sample) : (s.setS d v).blkRun = s.blkRun := rfl
@[simp] theorem State.setS_blkF (d : RegIdx) (v : Sample) : (s.setS d v).blkF = s.blkF := rfl
@[simp] theorem State.setS_pos (d : RegIdx) (v : Sample) : (s.setS d v).pos = s.pos := rfl
@[simp] theorem State.setS_fflags (d : RegIdx) (v : Sample) : (s.setS d v).fflags = s.fflags := rfl
@[simp] theorem State.setS_ctrlRun (d : RegIdx) (v : Sample) : (s.setS d v).ctrlRun = s.ctrlRun := rfl
@[simp] theorem State.setS_fault (d : RegIdx) (v : Sample) : (s.setS d v).fault = s.fault := rfl
@[simp] theorem State.setS_busErr (d : RegIdx) (v : Sample) : (s.setS d v).busErr = s.busErr := rfl
@[simp] theorem State.setS_faultCause (d : RegIdx) (v : Sample) : (s.setS d v).faultCause = s.faultCause := rfl
@[simp] theorem State.setS_faultPc (d : RegIdx) (v : Sample) : (s.setS d v).faultPc = s.faultPc := rfl
@[simp] theorem State.setS_faultInsn (d : RegIdx) (v : Sample) : (s.setS d v).faultInsn = s.faultInsn := rfl
@[simp] theorem State.setS_irqEn (d : RegIdx) (v : Sample) : (s.setS d v).irqEn = s.irqEn := rfl
@[simp] theorem State.setS_frameCnt (d : RegIdx) (v : Sample) : (s.setS d v).frameCnt = s.frameCnt := rfl
@[simp] theorem State.setS_blockCnt (d : RegIdx) (v : Sample) : (s.setS d v).blockCnt = s.blockCnt := rfl
@[simp] theorem State.setS_hopCnt (d : RegIdx) (v : Sample) : (s.setS d v).hopCnt = s.hopCnt := rfl
@[simp] theorem State.setS_shadow (d : RegIdx) (v : Sample) : (s.setS d v).shadow = s.shadow := rfl
@[simp] theorem State.setS_live (d : RegIdx) (v : Sample) : (s.setS d v).live = s.live := rfl
@[simp] theorem State.setS_bqCoef (d : RegIdx) (v : Sample) : (s.setS d v).bqCoef = s.bqCoef := rfl
@[simp] theorem State.setS_dlyFrames (d : RegIdx) (v : Sample) : (s.setS d v).dlyFrames = s.dlyFrames := rfl
@[simp] theorem State.setS_combFrames (d : RegIdx) (v : Sample) : (s.setS d v).combFrames = s.combFrames := rfl
@[simp] theorem State.setS_mem (d : RegIdx) (v : Sample) : (s.setS d v).mem = s.mem := rfl
@[simp] theorem State.setS_stft (d : RegIdx) (v : Sample) : (s.setS d v).stft = s.stft := rfl
@[simp] theorem State.setS_dly (d : RegIdx) (v : Sample) : (s.setS d v).dly = s.dly := rfl
@[simp] theorem State.setS_comb (d : RegIdx) (v : Sample) : (s.setS d v).comb = s.comb := rfl
@[simp] theorem State.setS_bqL (d : RegIdx) (v : Sample) : (s.setS d v).bqL = s.bqL := rfl
@[simp] theorem State.setS_bqR (d : RegIdx) (v : Sample) : (s.setS d v).bqR = s.bqR := rfl
@[simp] theorem State.setS_inFrame (d : RegIdx) (v : Sample) : (s.setS d v).inFrame = s.inFrame := rfl
@[simp] theorem State.setS_draws (d : RegIdx) (v : Sample) : (s.setS d v).draws = s.draws := rfl
@[simp] theorem State.setS_inputs (d : RegIdx) (v : Sample) : (s.setS d v).inputs = s.inputs := rfl
@[simp] theorem State.setS_emitted (d : RegIdx) (v : Sample) : (s.setS d v).emitted = s.emitted := rfl

/-! ## setF -/

@[simp] theorem State.setF_sreg (d : RegIdx) (v : Word) : (s.setF d v).sreg = s.sreg := rfl
@[simp] theorem State.setF_freg (d : RegIdx) (v : Word) : (s.setF d v).freg = s.freg.set d.toNat v d.isLt := rfl
@[simp] theorem State.setF_oacc (d : RegIdx) (v : Word) : (s.setF d v).oacc = s.oacc := rfl
@[simp] theorem State.setF_pc (d : RegIdx) (v : Word) : (s.setF d v).pc = s.pc := rfl
@[simp] theorem State.setF_inBlock (d : RegIdx) (v : Word) : (s.setF d v).inBlock = s.inBlock := rfl
@[simp] theorem State.setF_blkRun (d : RegIdx) (v : Word) : (s.setF d v).blkRun = s.blkRun := rfl
@[simp] theorem State.setF_blkF (d : RegIdx) (v : Word) : (s.setF d v).blkF = s.blkF := rfl
@[simp] theorem State.setF_pos (d : RegIdx) (v : Word) : (s.setF d v).pos = s.pos := rfl
@[simp] theorem State.setF_fflags (d : RegIdx) (v : Word) : (s.setF d v).fflags = s.fflags := rfl
@[simp] theorem State.setF_ctrlRun (d : RegIdx) (v : Word) : (s.setF d v).ctrlRun = s.ctrlRun := rfl
@[simp] theorem State.setF_fault (d : RegIdx) (v : Word) : (s.setF d v).fault = s.fault := rfl
@[simp] theorem State.setF_busErr (d : RegIdx) (v : Word) : (s.setF d v).busErr = s.busErr := rfl
@[simp] theorem State.setF_faultCause (d : RegIdx) (v : Word) : (s.setF d v).faultCause = s.faultCause := rfl
@[simp] theorem State.setF_faultPc (d : RegIdx) (v : Word) : (s.setF d v).faultPc = s.faultPc := rfl
@[simp] theorem State.setF_faultInsn (d : RegIdx) (v : Word) : (s.setF d v).faultInsn = s.faultInsn := rfl
@[simp] theorem State.setF_irqEn (d : RegIdx) (v : Word) : (s.setF d v).irqEn = s.irqEn := rfl
@[simp] theorem State.setF_frameCnt (d : RegIdx) (v : Word) : (s.setF d v).frameCnt = s.frameCnt := rfl
@[simp] theorem State.setF_blockCnt (d : RegIdx) (v : Word) : (s.setF d v).blockCnt = s.blockCnt := rfl
@[simp] theorem State.setF_hopCnt (d : RegIdx) (v : Word) : (s.setF d v).hopCnt = s.hopCnt := rfl
@[simp] theorem State.setF_shadow (d : RegIdx) (v : Word) : (s.setF d v).shadow = s.shadow := rfl
@[simp] theorem State.setF_live (d : RegIdx) (v : Word) : (s.setF d v).live = s.live := rfl
@[simp] theorem State.setF_bqCoef (d : RegIdx) (v : Word) : (s.setF d v).bqCoef = s.bqCoef := rfl
@[simp] theorem State.setF_dlyFrames (d : RegIdx) (v : Word) : (s.setF d v).dlyFrames = s.dlyFrames := rfl
@[simp] theorem State.setF_combFrames (d : RegIdx) (v : Word) : (s.setF d v).combFrames = s.combFrames := rfl
@[simp] theorem State.setF_mem (d : RegIdx) (v : Word) : (s.setF d v).mem = s.mem := rfl
@[simp] theorem State.setF_stft (d : RegIdx) (v : Word) : (s.setF d v).stft = s.stft := rfl
@[simp] theorem State.setF_dly (d : RegIdx) (v : Word) : (s.setF d v).dly = s.dly := rfl
@[simp] theorem State.setF_comb (d : RegIdx) (v : Word) : (s.setF d v).comb = s.comb := rfl
@[simp] theorem State.setF_bqL (d : RegIdx) (v : Word) : (s.setF d v).bqL = s.bqL := rfl
@[simp] theorem State.setF_bqR (d : RegIdx) (v : Word) : (s.setF d v).bqR = s.bqR := rfl
@[simp] theorem State.setF_inFrame (d : RegIdx) (v : Word) : (s.setF d v).inFrame = s.inFrame := rfl
@[simp] theorem State.setF_draws (d : RegIdx) (v : Word) : (s.setF d v).draws = s.draws := rfl
@[simp] theorem State.setF_inputs (d : RegIdx) (v : Word) : (s.setF d v).inputs = s.inputs := rfl
@[simp] theorem State.setF_emitted (d : RegIdx) (v : Word) : (s.setF d v).emitted = s.emitted := rfl

/-! ## accrue -/

@[simp] theorem State.accrue_sreg (f : FlagSet) : (s.accrue f).sreg = s.sreg := rfl
@[simp] theorem State.accrue_freg (f : FlagSet) : (s.accrue f).freg = s.freg := rfl
@[simp] theorem State.accrue_oacc (f : FlagSet) : (s.accrue f).oacc = s.oacc := rfl
@[simp] theorem State.accrue_pc (f : FlagSet) : (s.accrue f).pc = s.pc := rfl
@[simp] theorem State.accrue_inBlock (f : FlagSet) : (s.accrue f).inBlock = s.inBlock := rfl
@[simp] theorem State.accrue_blkRun (f : FlagSet) : (s.accrue f).blkRun = s.blkRun := rfl
@[simp] theorem State.accrue_blkF (f : FlagSet) : (s.accrue f).blkF = s.blkF := rfl
@[simp] theorem State.accrue_pos (f : FlagSet) : (s.accrue f).pos = s.pos := rfl
@[simp] theorem State.accrue_fflags (f : FlagSet) : (s.accrue f).fflags = s.fflags ||| f := rfl
@[simp] theorem State.accrue_ctrlRun (f : FlagSet) : (s.accrue f).ctrlRun = s.ctrlRun := rfl
@[simp] theorem State.accrue_fault (f : FlagSet) : (s.accrue f).fault = s.fault := rfl
@[simp] theorem State.accrue_busErr (f : FlagSet) : (s.accrue f).busErr = s.busErr := rfl
@[simp] theorem State.accrue_faultCause (f : FlagSet) : (s.accrue f).faultCause = s.faultCause := rfl
@[simp] theorem State.accrue_faultPc (f : FlagSet) : (s.accrue f).faultPc = s.faultPc := rfl
@[simp] theorem State.accrue_faultInsn (f : FlagSet) : (s.accrue f).faultInsn = s.faultInsn := rfl
@[simp] theorem State.accrue_irqEn (f : FlagSet) : (s.accrue f).irqEn = s.irqEn := rfl
@[simp] theorem State.accrue_frameCnt (f : FlagSet) : (s.accrue f).frameCnt = s.frameCnt := rfl
@[simp] theorem State.accrue_blockCnt (f : FlagSet) : (s.accrue f).blockCnt = s.blockCnt := rfl
@[simp] theorem State.accrue_hopCnt (f : FlagSet) : (s.accrue f).hopCnt = s.hopCnt := rfl
@[simp] theorem State.accrue_shadow (f : FlagSet) : (s.accrue f).shadow = s.shadow := rfl
@[simp] theorem State.accrue_live (f : FlagSet) : (s.accrue f).live = s.live := rfl
@[simp] theorem State.accrue_bqCoef (f : FlagSet) : (s.accrue f).bqCoef = s.bqCoef := rfl
@[simp] theorem State.accrue_dlyFrames (f : FlagSet) : (s.accrue f).dlyFrames = s.dlyFrames := rfl
@[simp] theorem State.accrue_combFrames (f : FlagSet) : (s.accrue f).combFrames = s.combFrames := rfl
@[simp] theorem State.accrue_mem (f : FlagSet) : (s.accrue f).mem = s.mem := rfl
@[simp] theorem State.accrue_stft (f : FlagSet) : (s.accrue f).stft = s.stft := rfl
@[simp] theorem State.accrue_dly (f : FlagSet) : (s.accrue f).dly = s.dly := rfl
@[simp] theorem State.accrue_comb (f : FlagSet) : (s.accrue f).comb = s.comb := rfl
@[simp] theorem State.accrue_bqL (f : FlagSet) : (s.accrue f).bqL = s.bqL := rfl
@[simp] theorem State.accrue_bqR (f : FlagSet) : (s.accrue f).bqR = s.bqR := rfl
@[simp] theorem State.accrue_inFrame (f : FlagSet) : (s.accrue f).inFrame = s.inFrame := rfl
@[simp] theorem State.accrue_draws (f : FlagSet) : (s.accrue f).draws = s.draws := rfl
@[simp] theorem State.accrue_inputs (f : FlagSet) : (s.accrue f).inputs = s.inputs := rfl
@[simp] theorem State.accrue_emitted (f : FlagSet) : (s.accrue f).emitted = s.emitted := rfl

/-! ## advance -/

@[simp] theorem State.advance_sreg : (s.advance).sreg = s.sreg := rfl
@[simp] theorem State.advance_freg : (s.advance).freg = s.freg := rfl
@[simp] theorem State.advance_oacc : (s.advance).oacc = s.oacc := rfl
@[simp] theorem State.advance_pc : (s.advance).pc = s.pc + 1 := rfl
@[simp] theorem State.advance_inBlock : (s.advance).inBlock = s.inBlock := rfl
@[simp] theorem State.advance_blkRun : (s.advance).blkRun = s.blkRun := rfl
@[simp] theorem State.advance_blkF : (s.advance).blkF = s.blkF := rfl
@[simp] theorem State.advance_pos : (s.advance).pos = s.pos := rfl
@[simp] theorem State.advance_fflags : (s.advance).fflags = s.fflags := rfl
@[simp] theorem State.advance_ctrlRun : (s.advance).ctrlRun = s.ctrlRun := rfl
@[simp] theorem State.advance_fault : (s.advance).fault = s.fault := rfl
@[simp] theorem State.advance_busErr : (s.advance).busErr = s.busErr := rfl
@[simp] theorem State.advance_faultCause : (s.advance).faultCause = s.faultCause := rfl
@[simp] theorem State.advance_faultPc : (s.advance).faultPc = s.faultPc := rfl
@[simp] theorem State.advance_faultInsn : (s.advance).faultInsn = s.faultInsn := rfl
@[simp] theorem State.advance_irqEn : (s.advance).irqEn = s.irqEn := rfl
@[simp] theorem State.advance_frameCnt : (s.advance).frameCnt = s.frameCnt := rfl
@[simp] theorem State.advance_blockCnt : (s.advance).blockCnt = s.blockCnt := rfl
@[simp] theorem State.advance_hopCnt : (s.advance).hopCnt = s.hopCnt := rfl
@[simp] theorem State.advance_shadow : (s.advance).shadow = s.shadow := rfl
@[simp] theorem State.advance_live : (s.advance).live = s.live := rfl
@[simp] theorem State.advance_bqCoef : (s.advance).bqCoef = s.bqCoef := rfl
@[simp] theorem State.advance_dlyFrames : (s.advance).dlyFrames = s.dlyFrames := rfl
@[simp] theorem State.advance_combFrames : (s.advance).combFrames = s.combFrames := rfl
@[simp] theorem State.advance_mem : (s.advance).mem = s.mem := rfl
@[simp] theorem State.advance_stft : (s.advance).stft = s.stft := rfl
@[simp] theorem State.advance_dly : (s.advance).dly = s.dly := rfl
@[simp] theorem State.advance_comb : (s.advance).comb = s.comb := rfl
@[simp] theorem State.advance_bqL : (s.advance).bqL = s.bqL := rfl
@[simp] theorem State.advance_bqR : (s.advance).bqR = s.bqR := rfl
@[simp] theorem State.advance_inFrame : (s.advance).inFrame = s.inFrame := rfl
@[simp] theorem State.advance_draws : (s.advance).draws = s.draws := rfl
@[simp] theorem State.advance_inputs : (s.advance).inputs = s.inputs := rfl
@[simp] theorem State.advance_emitted : (s.advance).emitted = s.emitted := rfl

/-! ## blockEnd -/

@[simp] theorem State.blockEnd_sreg : (s.blockEnd).sreg = s.sreg := rfl
@[simp] theorem State.blockEnd_freg : (s.blockEnd).freg = s.freg := rfl
@[simp] theorem State.blockEnd_oacc : (s.blockEnd).oacc = s.oacc := rfl
@[simp] theorem State.blockEnd_pc : (s.blockEnd).pc = s.pc := rfl
@[simp] theorem State.blockEnd_inBlock : (s.blockEnd).inBlock = false := rfl
@[simp] theorem State.blockEnd_blkRun : (s.blockEnd).blkRun = false := rfl
@[simp] theorem State.blockEnd_blkF : (s.blockEnd).blkF = s.blkF := rfl
@[simp] theorem State.blockEnd_pos : (s.blockEnd).pos = s.pos := rfl
@[simp] theorem State.blockEnd_fflags : (s.blockEnd).fflags = s.fflags := rfl
@[simp] theorem State.blockEnd_ctrlRun : (s.blockEnd).ctrlRun = s.ctrlRun := rfl
@[simp] theorem State.blockEnd_fault : (s.blockEnd).fault = s.fault := rfl
@[simp] theorem State.blockEnd_busErr : (s.blockEnd).busErr = s.busErr := rfl
@[simp] theorem State.blockEnd_faultCause : (s.blockEnd).faultCause = s.faultCause := rfl
@[simp] theorem State.blockEnd_faultPc : (s.blockEnd).faultPc = s.faultPc := rfl
@[simp] theorem State.blockEnd_faultInsn : (s.blockEnd).faultInsn = s.faultInsn := rfl
@[simp] theorem State.blockEnd_irqEn : (s.blockEnd).irqEn = s.irqEn := rfl
@[simp] theorem State.blockEnd_frameCnt : (s.blockEnd).frameCnt = s.frameCnt := rfl
@[simp] theorem State.blockEnd_blockCnt : (s.blockEnd).blockCnt = s.blockCnt := rfl
@[simp] theorem State.blockEnd_hopCnt : (s.blockEnd).hopCnt = s.hopCnt := rfl
@[simp] theorem State.blockEnd_shadow : (s.blockEnd).shadow = s.shadow := rfl
@[simp] theorem State.blockEnd_live : (s.blockEnd).live = s.live := rfl
@[simp] theorem State.blockEnd_bqCoef : (s.blockEnd).bqCoef = s.bqCoef := rfl
@[simp] theorem State.blockEnd_dlyFrames : (s.blockEnd).dlyFrames = s.dlyFrames := rfl
@[simp] theorem State.blockEnd_combFrames : (s.blockEnd).combFrames = s.combFrames := rfl
@[simp] theorem State.blockEnd_mem : (s.blockEnd).mem = s.mem := rfl
@[simp] theorem State.blockEnd_stft : (s.blockEnd).stft = s.stft := rfl
@[simp] theorem State.blockEnd_dly : (s.blockEnd).dly = s.dly := rfl
@[simp] theorem State.blockEnd_comb : (s.blockEnd).comb = s.comb := rfl
@[simp] theorem State.blockEnd_bqL : (s.blockEnd).bqL = s.bqL := rfl
@[simp] theorem State.blockEnd_bqR : (s.blockEnd).bqR = s.bqR := rfl
@[simp] theorem State.blockEnd_inFrame : (s.blockEnd).inFrame = s.inFrame := rfl
@[simp] theorem State.blockEnd_draws : (s.blockEnd).draws = s.draws := rfl
@[simp] theorem State.blockEnd_inputs : (s.blockEnd).inputs = s.inputs := rfl
@[simp] theorem State.blockEnd_emitted : (s.blockEnd).emitted = s.emitted := rfl

/-! ## bufSet -/

@[simp] theorem State.bufSet_sreg (a : Nat) (v : Word) : (s.bufSet a v).sreg = s.sreg := rfl
@[simp] theorem State.bufSet_freg (a : Nat) (v : Word) : (s.bufSet a v).freg = s.freg := rfl
@[simp] theorem State.bufSet_oacc (a : Nat) (v : Word) : (s.bufSet a v).oacc = s.oacc := rfl
@[simp] theorem State.bufSet_pc (a : Nat) (v : Word) : (s.bufSet a v).pc = s.pc := rfl
@[simp] theorem State.bufSet_inBlock (a : Nat) (v : Word) : (s.bufSet a v).inBlock = s.inBlock := rfl
@[simp] theorem State.bufSet_blkRun (a : Nat) (v : Word) : (s.bufSet a v).blkRun = s.blkRun := rfl
@[simp] theorem State.bufSet_blkF (a : Nat) (v : Word) : (s.bufSet a v).blkF = s.blkF := rfl
@[simp] theorem State.bufSet_pos (a : Nat) (v : Word) : (s.bufSet a v).pos = s.pos := rfl
@[simp] theorem State.bufSet_fflags (a : Nat) (v : Word) : (s.bufSet a v).fflags = s.fflags := rfl
@[simp] theorem State.bufSet_ctrlRun (a : Nat) (v : Word) : (s.bufSet a v).ctrlRun = s.ctrlRun := rfl
@[simp] theorem State.bufSet_fault (a : Nat) (v : Word) : (s.bufSet a v).fault = s.fault := rfl
@[simp] theorem State.bufSet_busErr (a : Nat) (v : Word) : (s.bufSet a v).busErr = s.busErr := rfl
@[simp] theorem State.bufSet_faultCause (a : Nat) (v : Word) : (s.bufSet a v).faultCause = s.faultCause := rfl
@[simp] theorem State.bufSet_faultPc (a : Nat) (v : Word) : (s.bufSet a v).faultPc = s.faultPc := rfl
@[simp] theorem State.bufSet_faultInsn (a : Nat) (v : Word) : (s.bufSet a v).faultInsn = s.faultInsn := rfl
@[simp] theorem State.bufSet_irqEn (a : Nat) (v : Word) : (s.bufSet a v).irqEn = s.irqEn := rfl
@[simp] theorem State.bufSet_frameCnt (a : Nat) (v : Word) : (s.bufSet a v).frameCnt = s.frameCnt := rfl
@[simp] theorem State.bufSet_blockCnt (a : Nat) (v : Word) : (s.bufSet a v).blockCnt = s.blockCnt := rfl
@[simp] theorem State.bufSet_hopCnt (a : Nat) (v : Word) : (s.bufSet a v).hopCnt = s.hopCnt := rfl
@[simp] theorem State.bufSet_shadow (a : Nat) (v : Word) : (s.bufSet a v).shadow = s.shadow := rfl
@[simp] theorem State.bufSet_live (a : Nat) (v : Word) : (s.bufSet a v).live = s.live := rfl
@[simp] theorem State.bufSet_bqCoef (a : Nat) (v : Word) : (s.bufSet a v).bqCoef = s.bqCoef := rfl
@[simp] theorem State.bufSet_dlyFrames (a : Nat) (v : Word) : (s.bufSet a v).dlyFrames = s.dlyFrames := rfl
@[simp] theorem State.bufSet_combFrames (a : Nat) (v : Word) : (s.bufSet a v).combFrames = s.combFrames := rfl
@[simp] theorem State.bufSet_mem (a : Nat) (v : Word) : (s.bufSet a v).mem = s.mem.setWord (bufAddr a) v := rfl
@[simp] theorem State.bufSet_stft (a : Nat) (v : Word) : (s.bufSet a v).stft = s.stft := rfl
@[simp] theorem State.bufSet_dly (a : Nat) (v : Word) : (s.bufSet a v).dly = s.dly := rfl
@[simp] theorem State.bufSet_comb (a : Nat) (v : Word) : (s.bufSet a v).comb = s.comb := rfl
@[simp] theorem State.bufSet_bqL (a : Nat) (v : Word) : (s.bufSet a v).bqL = s.bqL := rfl
@[simp] theorem State.bufSet_bqR (a : Nat) (v : Word) : (s.bufSet a v).bqR = s.bqR := rfl
@[simp] theorem State.bufSet_inFrame (a : Nat) (v : Word) : (s.bufSet a v).inFrame = s.inFrame := rfl
@[simp] theorem State.bufSet_draws (a : Nat) (v : Word) : (s.bufSet a v).draws = s.draws := rfl
@[simp] theorem State.bufSet_inputs (a : Nat) (v : Word) : (s.bufSet a v).inputs = s.inputs := rfl
@[simp] theorem State.bufSet_emitted (a : Nat) (v : Word) : (s.bufSet a v).emitted = s.emitted := rfl

/-! ## clearFlags -/

@[simp] theorem State.clearFlags_sreg (w : Word) : (s.clearFlags w).sreg = s.sreg := rfl
@[simp] theorem State.clearFlags_freg (w : Word) : (s.clearFlags w).freg = s.freg := rfl
@[simp] theorem State.clearFlags_oacc (w : Word) : (s.clearFlags w).oacc = s.oacc := rfl
@[simp] theorem State.clearFlags_pc (w : Word) : (s.clearFlags w).pc = s.pc := rfl
@[simp] theorem State.clearFlags_inBlock (w : Word) : (s.clearFlags w).inBlock = s.inBlock := rfl
@[simp] theorem State.clearFlags_blkRun (w : Word) : (s.clearFlags w).blkRun = s.blkRun := rfl
@[simp] theorem State.clearFlags_blkF (w : Word) : (s.clearFlags w).blkF = s.blkF := rfl
@[simp] theorem State.clearFlags_pos (w : Word) : (s.clearFlags w).pos = s.pos := rfl
@[simp] theorem State.clearFlags_fflags (w : Word) : (s.clearFlags w).fflags = s.fflags &&& ~~~(w.extractLsb' 0 5) := rfl
@[simp] theorem State.clearFlags_ctrlRun (w : Word) : (s.clearFlags w).ctrlRun = s.ctrlRun := rfl
@[simp] theorem State.clearFlags_fault (w : Word) : (s.clearFlags w).fault = s.fault := rfl
@[simp] theorem State.clearFlags_busErr (w : Word) : (s.clearFlags w).busErr = s.busErr := rfl
@[simp] theorem State.clearFlags_faultCause (w : Word) : (s.clearFlags w).faultCause = s.faultCause := rfl
@[simp] theorem State.clearFlags_faultPc (w : Word) : (s.clearFlags w).faultPc = s.faultPc := rfl
@[simp] theorem State.clearFlags_faultInsn (w : Word) : (s.clearFlags w).faultInsn = s.faultInsn := rfl
@[simp] theorem State.clearFlags_irqEn (w : Word) : (s.clearFlags w).irqEn = s.irqEn := rfl
@[simp] theorem State.clearFlags_frameCnt (w : Word) : (s.clearFlags w).frameCnt = s.frameCnt := rfl
@[simp] theorem State.clearFlags_blockCnt (w : Word) : (s.clearFlags w).blockCnt = s.blockCnt := rfl
@[simp] theorem State.clearFlags_hopCnt (w : Word) : (s.clearFlags w).hopCnt = s.hopCnt := rfl
@[simp] theorem State.clearFlags_shadow (w : Word) : (s.clearFlags w).shadow = s.shadow := rfl
@[simp] theorem State.clearFlags_live (w : Word) : (s.clearFlags w).live = s.live := rfl
@[simp] theorem State.clearFlags_bqCoef (w : Word) : (s.clearFlags w).bqCoef = s.bqCoef := rfl
@[simp] theorem State.clearFlags_dlyFrames (w : Word) : (s.clearFlags w).dlyFrames = s.dlyFrames := rfl
@[simp] theorem State.clearFlags_combFrames (w : Word) : (s.clearFlags w).combFrames = s.combFrames := rfl
@[simp] theorem State.clearFlags_mem (w : Word) : (s.clearFlags w).mem = s.mem := rfl
@[simp] theorem State.clearFlags_stft (w : Word) : (s.clearFlags w).stft = s.stft := rfl
@[simp] theorem State.clearFlags_dly (w : Word) : (s.clearFlags w).dly = s.dly := rfl
@[simp] theorem State.clearFlags_comb (w : Word) : (s.clearFlags w).comb = s.comb := rfl
@[simp] theorem State.clearFlags_bqL (w : Word) : (s.clearFlags w).bqL = s.bqL := rfl
@[simp] theorem State.clearFlags_bqR (w : Word) : (s.clearFlags w).bqR = s.bqR := rfl
@[simp] theorem State.clearFlags_inFrame (w : Word) : (s.clearFlags w).inFrame = s.inFrame := rfl
@[simp] theorem State.clearFlags_draws (w : Word) : (s.clearFlags w).draws = s.draws := rfl
@[simp] theorem State.clearFlags_inputs (w : Word) : (s.clearFlags w).inputs = s.inputs := rfl
@[simp] theorem State.clearFlags_emitted (w : Word) : (s.clearFlags w).emitted = s.emitted := rfl

/-! ## clearStatus -/

@[simp] theorem State.clearStatus_sreg (w : Word) : (s.clearStatus w).sreg = s.sreg := rfl
@[simp] theorem State.clearStatus_freg (w : Word) : (s.clearStatus w).freg = s.freg := rfl
@[simp] theorem State.clearStatus_oacc (w : Word) : (s.clearStatus w).oacc = s.oacc := rfl
@[simp] theorem State.clearStatus_pc (w : Word) : (s.clearStatus w).pc = s.pc := rfl
@[simp] theorem State.clearStatus_inBlock (w : Word) : (s.clearStatus w).inBlock = s.inBlock := rfl
@[simp] theorem State.clearStatus_blkRun (w : Word) : (s.clearStatus w).blkRun = s.blkRun := rfl
@[simp] theorem State.clearStatus_blkF (w : Word) : (s.clearStatus w).blkF = s.blkF := rfl
@[simp] theorem State.clearStatus_pos (w : Word) : (s.clearStatus w).pos = s.pos := rfl
@[simp] theorem State.clearStatus_fflags (w : Word) : (s.clearStatus w).fflags = s.fflags := rfl
@[simp] theorem State.clearStatus_ctrlRun (w : Word) : (s.clearStatus w).ctrlRun = s.ctrlRun := rfl
@[simp] theorem State.clearStatus_fault (w : Word) : (s.clearStatus w).fault = (s.fault && !w.getLsbD 0) := rfl
@[simp] theorem State.clearStatus_busErr (w : Word) : (s.clearStatus w).busErr = (s.busErr && !w.getLsbD 1) := rfl
@[simp] theorem State.clearStatus_faultCause (w : Word) : (s.clearStatus w).faultCause = s.faultCause := rfl
@[simp] theorem State.clearStatus_faultPc (w : Word) : (s.clearStatus w).faultPc = s.faultPc := rfl
@[simp] theorem State.clearStatus_faultInsn (w : Word) : (s.clearStatus w).faultInsn = s.faultInsn := rfl
@[simp] theorem State.clearStatus_irqEn (w : Word) : (s.clearStatus w).irqEn = s.irqEn := rfl
@[simp] theorem State.clearStatus_frameCnt (w : Word) : (s.clearStatus w).frameCnt = s.frameCnt := rfl
@[simp] theorem State.clearStatus_blockCnt (w : Word) : (s.clearStatus w).blockCnt = s.blockCnt := rfl
@[simp] theorem State.clearStatus_hopCnt (w : Word) : (s.clearStatus w).hopCnt = s.hopCnt := rfl
@[simp] theorem State.clearStatus_shadow (w : Word) : (s.clearStatus w).shadow = s.shadow := rfl
@[simp] theorem State.clearStatus_live (w : Word) : (s.clearStatus w).live = s.live := rfl
@[simp] theorem State.clearStatus_bqCoef (w : Word) : (s.clearStatus w).bqCoef = s.bqCoef := rfl
@[simp] theorem State.clearStatus_dlyFrames (w : Word) : (s.clearStatus w).dlyFrames = s.dlyFrames := rfl
@[simp] theorem State.clearStatus_combFrames (w : Word) : (s.clearStatus w).combFrames = s.combFrames := rfl
@[simp] theorem State.clearStatus_mem (w : Word) : (s.clearStatus w).mem = s.mem := rfl
@[simp] theorem State.clearStatus_stft (w : Word) : (s.clearStatus w).stft = s.stft := rfl
@[simp] theorem State.clearStatus_dly (w : Word) : (s.clearStatus w).dly = s.dly := rfl
@[simp] theorem State.clearStatus_comb (w : Word) : (s.clearStatus w).comb = s.comb := rfl
@[simp] theorem State.clearStatus_bqL (w : Word) : (s.clearStatus w).bqL = s.bqL := rfl
@[simp] theorem State.clearStatus_bqR (w : Word) : (s.clearStatus w).bqR = s.bqR := rfl
@[simp] theorem State.clearStatus_inFrame (w : Word) : (s.clearStatus w).inFrame = s.inFrame := rfl
@[simp] theorem State.clearStatus_draws (w : Word) : (s.clearStatus w).draws = s.draws := rfl
@[simp] theorem State.clearStatus_inputs (w : Word) : (s.clearStatus w).inputs = s.inputs := rfl
@[simp] theorem State.clearStatus_emitted (w : Word) : (s.clearStatus w).emitted = s.emitted := rfl

/-! ## setShadow -/

@[simp] theorem State.setShadow_sreg (p : Params) : (s.setShadow p).sreg = s.sreg := rfl
@[simp] theorem State.setShadow_freg (p : Params) : (s.setShadow p).freg = s.freg := rfl
@[simp] theorem State.setShadow_oacc (p : Params) : (s.setShadow p).oacc = s.oacc := rfl
@[simp] theorem State.setShadow_pc (p : Params) : (s.setShadow p).pc = s.pc := rfl
@[simp] theorem State.setShadow_inBlock (p : Params) : (s.setShadow p).inBlock = s.inBlock := rfl
@[simp] theorem State.setShadow_blkRun (p : Params) : (s.setShadow p).blkRun = s.blkRun := rfl
@[simp] theorem State.setShadow_blkF (p : Params) : (s.setShadow p).blkF = s.blkF := rfl
@[simp] theorem State.setShadow_pos (p : Params) : (s.setShadow p).pos = s.pos := rfl
@[simp] theorem State.setShadow_fflags (p : Params) : (s.setShadow p).fflags = s.fflags := rfl
@[simp] theorem State.setShadow_ctrlRun (p : Params) : (s.setShadow p).ctrlRun = s.ctrlRun := rfl
@[simp] theorem State.setShadow_fault (p : Params) : (s.setShadow p).fault = s.fault := rfl
@[simp] theorem State.setShadow_busErr (p : Params) : (s.setShadow p).busErr = s.busErr := rfl
@[simp] theorem State.setShadow_faultCause (p : Params) : (s.setShadow p).faultCause = s.faultCause := rfl
@[simp] theorem State.setShadow_faultPc (p : Params) : (s.setShadow p).faultPc = s.faultPc := rfl
@[simp] theorem State.setShadow_faultInsn (p : Params) : (s.setShadow p).faultInsn = s.faultInsn := rfl
@[simp] theorem State.setShadow_irqEn (p : Params) : (s.setShadow p).irqEn = s.irqEn := rfl
@[simp] theorem State.setShadow_frameCnt (p : Params) : (s.setShadow p).frameCnt = s.frameCnt := rfl
@[simp] theorem State.setShadow_blockCnt (p : Params) : (s.setShadow p).blockCnt = s.blockCnt := rfl
@[simp] theorem State.setShadow_hopCnt (p : Params) : (s.setShadow p).hopCnt = s.hopCnt := rfl
@[simp] theorem State.setShadow_shadow (p : Params) : (s.setShadow p).shadow = p := rfl
@[simp] theorem State.setShadow_live (p : Params) : (s.setShadow p).live = s.live := rfl
@[simp] theorem State.setShadow_bqCoef (p : Params) : (s.setShadow p).bqCoef = s.bqCoef := rfl
@[simp] theorem State.setShadow_dlyFrames (p : Params) : (s.setShadow p).dlyFrames = s.dlyFrames := rfl
@[simp] theorem State.setShadow_combFrames (p : Params) : (s.setShadow p).combFrames = s.combFrames := rfl
@[simp] theorem State.setShadow_mem (p : Params) : (s.setShadow p).mem = s.mem := rfl
@[simp] theorem State.setShadow_stft (p : Params) : (s.setShadow p).stft = s.stft := rfl
@[simp] theorem State.setShadow_dly (p : Params) : (s.setShadow p).dly = s.dly := rfl
@[simp] theorem State.setShadow_comb (p : Params) : (s.setShadow p).comb = s.comb := rfl
@[simp] theorem State.setShadow_bqL (p : Params) : (s.setShadow p).bqL = s.bqL := rfl
@[simp] theorem State.setShadow_bqR (p : Params) : (s.setShadow p).bqR = s.bqR := rfl
@[simp] theorem State.setShadow_inFrame (p : Params) : (s.setShadow p).inFrame = s.inFrame := rfl
@[simp] theorem State.setShadow_draws (p : Params) : (s.setShadow p).draws = s.draws := rfl
@[simp] theorem State.setShadow_inputs (p : Params) : (s.setShadow p).inputs = s.inputs := rfl
@[simp] theorem State.setShadow_emitted (p : Params) : (s.setShadow p).emitted = s.emitted := rfl

/-! ## emit -/

@[simp] theorem State.emit_sreg (o : Output) : (s.emit o).sreg = s.sreg := rfl
@[simp] theorem State.emit_freg (o : Output) : (s.emit o).freg = s.freg := rfl
@[simp] theorem State.emit_oacc (o : Output) : (s.emit o).oacc = s.oacc := rfl
@[simp] theorem State.emit_pc (o : Output) : (s.emit o).pc = s.pc := rfl
@[simp] theorem State.emit_inBlock (o : Output) : (s.emit o).inBlock = s.inBlock := rfl
@[simp] theorem State.emit_blkRun (o : Output) : (s.emit o).blkRun = s.blkRun := rfl
@[simp] theorem State.emit_blkF (o : Output) : (s.emit o).blkF = s.blkF := rfl
@[simp] theorem State.emit_pos (o : Output) : (s.emit o).pos = s.pos := rfl
@[simp] theorem State.emit_fflags (o : Output) : (s.emit o).fflags = s.fflags := rfl
@[simp] theorem State.emit_ctrlRun (o : Output) : (s.emit o).ctrlRun = s.ctrlRun := rfl
@[simp] theorem State.emit_fault (o : Output) : (s.emit o).fault = s.fault := rfl
@[simp] theorem State.emit_busErr (o : Output) : (s.emit o).busErr = s.busErr := rfl
@[simp] theorem State.emit_faultCause (o : Output) : (s.emit o).faultCause = s.faultCause := rfl
@[simp] theorem State.emit_faultPc (o : Output) : (s.emit o).faultPc = s.faultPc := rfl
@[simp] theorem State.emit_faultInsn (o : Output) : (s.emit o).faultInsn = s.faultInsn := rfl
@[simp] theorem State.emit_irqEn (o : Output) : (s.emit o).irqEn = s.irqEn := rfl
@[simp] theorem State.emit_frameCnt (o : Output) : (s.emit o).frameCnt = s.frameCnt := rfl
@[simp] theorem State.emit_blockCnt (o : Output) : (s.emit o).blockCnt = s.blockCnt := rfl
@[simp] theorem State.emit_hopCnt (o : Output) : (s.emit o).hopCnt = s.hopCnt := rfl
@[simp] theorem State.emit_shadow (o : Output) : (s.emit o).shadow = s.shadow := rfl
@[simp] theorem State.emit_live (o : Output) : (s.emit o).live = s.live := rfl
@[simp] theorem State.emit_bqCoef (o : Output) : (s.emit o).bqCoef = s.bqCoef := rfl
@[simp] theorem State.emit_dlyFrames (o : Output) : (s.emit o).dlyFrames = s.dlyFrames := rfl
@[simp] theorem State.emit_combFrames (o : Output) : (s.emit o).combFrames = s.combFrames := rfl
@[simp] theorem State.emit_mem (o : Output) : (s.emit o).mem = s.mem := rfl
@[simp] theorem State.emit_stft (o : Output) : (s.emit o).stft = s.stft := rfl
@[simp] theorem State.emit_dly (o : Output) : (s.emit o).dly = s.dly := rfl
@[simp] theorem State.emit_comb (o : Output) : (s.emit o).comb = s.comb := rfl
@[simp] theorem State.emit_bqL (o : Output) : (s.emit o).bqL = s.bqL := rfl
@[simp] theorem State.emit_bqR (o : Output) : (s.emit o).bqR = s.bqR := rfl
@[simp] theorem State.emit_inFrame (o : Output) : (s.emit o).inFrame = s.inFrame := rfl
@[simp] theorem State.emit_draws (o : Output) : (s.emit o).draws = s.draws := rfl
@[simp] theorem State.emit_inputs (o : Output) : (s.emit o).inputs = s.inputs := rfl
@[simp] theorem State.emit_emitted (o : Output) : (s.emit o).emitted = o :: s.emitted := rfl

/-! ## busError -/

@[simp] theorem State.busError_sreg : (s.busError).sreg = s.sreg := rfl
@[simp] theorem State.busError_freg : (s.busError).freg = s.freg := rfl
@[simp] theorem State.busError_oacc : (s.busError).oacc = s.oacc := rfl
@[simp] theorem State.busError_pc : (s.busError).pc = s.pc := rfl
@[simp] theorem State.busError_inBlock : (s.busError).inBlock = s.inBlock := rfl
@[simp] theorem State.busError_blkRun : (s.busError).blkRun = s.blkRun := rfl
@[simp] theorem State.busError_blkF : (s.busError).blkF = s.blkF := rfl
@[simp] theorem State.busError_pos : (s.busError).pos = s.pos := rfl
@[simp] theorem State.busError_fflags : (s.busError).fflags = s.fflags := rfl
@[simp] theorem State.busError_ctrlRun : (s.busError).ctrlRun = s.ctrlRun := rfl
@[simp] theorem State.busError_fault : (s.busError).fault = s.fault := rfl
@[simp] theorem State.busError_busErr : (s.busError).busErr = true := rfl
@[simp] theorem State.busError_faultCause : (s.busError).faultCause = s.faultCause := rfl
@[simp] theorem State.busError_faultPc : (s.busError).faultPc = s.faultPc := rfl
@[simp] theorem State.busError_faultInsn : (s.busError).faultInsn = s.faultInsn := rfl
@[simp] theorem State.busError_irqEn : (s.busError).irqEn = s.irqEn := rfl
@[simp] theorem State.busError_frameCnt : (s.busError).frameCnt = s.frameCnt := rfl
@[simp] theorem State.busError_blockCnt : (s.busError).blockCnt = s.blockCnt := rfl
@[simp] theorem State.busError_hopCnt : (s.busError).hopCnt = s.hopCnt := rfl
@[simp] theorem State.busError_shadow : (s.busError).shadow = s.shadow := rfl
@[simp] theorem State.busError_live : (s.busError).live = s.live := rfl
@[simp] theorem State.busError_bqCoef : (s.busError).bqCoef = s.bqCoef := rfl
@[simp] theorem State.busError_dlyFrames : (s.busError).dlyFrames = s.dlyFrames := rfl
@[simp] theorem State.busError_combFrames : (s.busError).combFrames = s.combFrames := rfl
@[simp] theorem State.busError_mem : (s.busError).mem = s.mem := rfl
@[simp] theorem State.busError_stft : (s.busError).stft = s.stft := rfl
@[simp] theorem State.busError_dly : (s.busError).dly = s.dly := rfl
@[simp] theorem State.busError_comb : (s.busError).comb = s.comb := rfl
@[simp] theorem State.busError_bqL : (s.busError).bqL = s.bqL := rfl
@[simp] theorem State.busError_bqR : (s.busError).bqR = s.bqR := rfl
@[simp] theorem State.busError_inFrame : (s.busError).inFrame = s.inFrame := rfl
@[simp] theorem State.busError_draws : (s.busError).draws = s.draws := rfl
@[simp] theorem State.busError_inputs : (s.busError).inputs = s.inputs := rfl
@[simp] theorem State.busError_emitted : (s.busError).emitted = s.emitted := rfl

/-! ## Reading registers -/

@[simp] theorem State.getS_setS_same (d : RegIdx) (v : Sample) : (s.setS d v).getS d = v := by
  simp [State.getS]

theorem State.getS_setS_ne {d i : RegIdx} (h : i ≠ d) (v : Sample) : (s.setS d v).getS i = s.getS i := by
  have : d.toNat ≠ i.toNat := fun h' => h (BitVec.eq_of_toNat_eq h').symm
  simp [State.getS, Vector.getElem_set_ne _ _ this]

@[simp] theorem State.getF_setF_same (d : RegIdx) (v : Word) : (s.setF d v).getF d = v := by
  simp [State.getF]

theorem State.getF_setF_ne {d i : RegIdx} (h : i ≠ d) (v : Word) : (s.setF d v).getF i = s.getF i := by
  have : d.toNat ≠ i.toNat := fun h' => h (BitVec.eq_of_toNat_eq h').symm
  simp [State.getF, Vector.getElem_set_ne _ _ this]

@[simp] theorem State.getF_setS (d i : RegIdx) (v : Sample) : (s.setS d v).getF i = s.getF i := rfl
@[simp] theorem State.getS_setF (d i : RegIdx) (v : Word) : (s.setF d v).getS i = s.getS i := rfl
@[simp] theorem State.getS_accrue (f : FlagSet) (i : RegIdx) : (s.accrue f).getS i = s.getS i := rfl
@[simp] theorem State.getF_accrue (f : FlagSet) (i : RegIdx) : (s.accrue f).getF i = s.getF i := rfl
@[simp] theorem State.getS_advance (i : RegIdx) : s.advance.getS i = s.getS i := rfl
@[simp] theorem State.getF_advance (i : RegIdx) : s.advance.getF i = s.getF i := rfl
@[simp] theorem State.getS_bufSet (a : Nat) (v : Word) (i : RegIdx) : (s.bufSet a v).getS i = s.getS i := rfl
@[simp] theorem State.getF_bufSet (a : Nat) (v : Word) (i : RegIdx) : (s.bufSet a v).getF i = s.getF i := rfl

end Sys2Proof.Machine
end

