-- ==== Sys2Proof/Laws/Ops.lean ====
section
/-! SUPPORT. Laws/Ops.lean: for each shared operation, once, everything it can do. -/

namespace Sys2Proof.Machine

/-! ## The configuration's numbers -/

theorem progLen_eq : Config.progLen = 256 := rfl
theorem nparam_eq : Config.nparam = 64 := rfl
theorem fftN_eq : Config.fftN = 1024 := rfl
theorem hop_eq : Config.hop = 256 := rfl
theorem numBins_eq : Config.numBins = 513 := rfl
theorem ringLen_eq : Config.ringLen = 2048 := rfl
theorem dlyLen_eq : Config.dlyLen = 96000 := rfl
theorem combLen_eq : Config.combLen = 4800 := rfl
theorem bufCap_eq : Config.bufCap = 262144 := rfl

variable (s : State)

/-! ## Completing an instruction -/

@[simp] theorem State.retS_eq (d : RegIdx) (r : SRes) : s.retS d r =
    { s with sreg := s.sreg.set d.toNat r.val d.isLt, fflags := s.fflags ||| r.flags, pc := s.pc + 1 } := rfl

@[simp] theorem State.retF_eq (d : RegIdx) (r : FRes) : s.retF d r =
    { s with freg := s.freg.set d.toNat r.val d.isLt, fflags := s.fflags ||| r.flags, pc := s.pc + 1 } := rfl

@[simp] theorem State.putS_eq (d : RegIdx) (v : Sample) : s.putS d v =
    { s with sreg := s.sreg.set d.toNat v d.isLt, pc := s.pc + 1 } := rfl

@[simp] theorem State.putF_eq (d : RegIdx) (v : Word) : s.putF d v =
    { s with freg := s.freg.set d.toNat v d.isLt, pc := s.pc + 1 } := rfl

/-! ## The end of a frame -/

/-- A frame's end changes the model's frame mark and answers, `POS`, and after the last frame the block's two bits. -/
theorem State.finishFrame_eq (y : Sample) : s.finishFrame y =
    { s with
      inFrame := false
      emitted := .frame y :: s.emitted
      pos := s.pos + 1
      inBlock := if s.pos + 1 = s.blkF then false else s.inBlock
      blkRun := if s.pos + 1 = s.blkF then false else s.blkRun } := by
  unfold State.finishFrame State.blockEnd
  dsimp only
  split_ifs <;> rfl

@[simp] theorem State.finishFrame_sreg (y : Sample) : (s.finishFrame y).sreg = s.sreg := by
  rw [State.finishFrame_eq]
@[simp] theorem State.finishFrame_freg (y : Sample) : (s.finishFrame y).freg = s.freg := by
  rw [State.finishFrame_eq]
@[simp] theorem State.finishFrame_oacc (y : Sample) : (s.finishFrame y).oacc = s.oacc := by
  rw [State.finishFrame_eq]
@[simp] theorem State.finishFrame_pc (y : Sample) : (s.finishFrame y).pc = s.pc := by
  rw [State.finishFrame_eq]
@[simp] theorem State.finishFrame_inBlock (y : Sample) : (s.finishFrame y).inBlock = (if s.pos + 1 = s.blkF then false else s.inBlock) := by
  rw [State.finishFrame_eq]
@[simp] theorem State.finishFrame_blkRun (y : Sample) : (s.finishFrame y).blkRun = (if s.pos + 1 = s.blkF then false else s.blkRun) := by
  rw [State.finishFrame_eq]
@[simp] theorem State.finishFrame_blkF (y : Sample) : (s.finishFrame y).blkF = s.blkF := by
  rw [State.finishFrame_eq]
@[simp] theorem State.finishFrame_pos (y : Sample) : (s.finishFrame y).pos = s.pos + 1 := by
  rw [State.finishFrame_eq]
@[simp] theorem State.finishFrame_fflags (y : Sample) : (s.finishFrame y).fflags = s.fflags := by
  rw [State.finishFrame_eq]
@[simp] theorem State.finishFrame_ctrlRun (y : Sample) : (s.finishFrame y).ctrlRun = s.ctrlRun := by
  rw [State.finishFrame_eq]
@[simp] theorem State.finishFrame_fault (y : Sample) : (s.finishFrame y).fault = s.fault := by
  rw [State.finishFrame_eq]
@[simp] theorem State.finishFrame_busErr (y : Sample) : (s.finishFrame y).busErr = s.busErr := by
  rw [State.finishFrame_eq]
@[simp] theorem State.finishFrame_faultCause (y : Sample) : (s.finishFrame y).faultCause = s.faultCause := by
  rw [State.finishFrame_eq]
@[simp] theorem State.finishFrame_faultPc (y : Sample) : (s.finishFrame y).faultPc = s.faultPc := by
  rw [State.finishFrame_eq]
@[simp] theorem State.finishFrame_faultInsn (y : Sample) : (s.finishFrame y).faultInsn = s.faultInsn := by
  rw [State.finishFrame_eq]
@[simp] theorem State.finishFrame_irqEn (y : Sample) : (s.finishFrame y).irqEn = s.irqEn := by
  rw [State.finishFrame_eq]
@[simp] theorem State.finishFrame_frameCnt (y : Sample) : (s.finishFrame y).frameCnt = s.frameCnt := by
  rw [State.finishFrame_eq]
@[simp] theorem State.finishFrame_blockCnt (y : Sample) : (s.finishFrame y).blockCnt = s.blockCnt := by
  rw [State.finishFrame_eq]
@[simp] theorem State.finishFrame_hopCnt (y : Sample) : (s.finishFrame y).hopCnt = s.hopCnt := by
  rw [State.finishFrame_eq]
@[simp] theorem State.finishFrame_shadow (y : Sample) : (s.finishFrame y).shadow = s.shadow := by
  rw [State.finishFrame_eq]
@[simp] theorem State.finishFrame_live (y : Sample) : (s.finishFrame y).live = s.live := by
  rw [State.finishFrame_eq]
@[simp] theorem State.finishFrame_bqCoef (y : Sample) : (s.finishFrame y).bqCoef = s.bqCoef := by
  rw [State.finishFrame_eq]
@[simp] theorem State.finishFrame_dlyFrames (y : Sample) : (s.finishFrame y).dlyFrames = s.dlyFrames := by
  rw [State.finishFrame_eq]
@[simp] theorem State.finishFrame_combFrames (y : Sample) : (s.finishFrame y).combFrames = s.combFrames := by
  rw [State.finishFrame_eq]
@[simp] theorem State.finishFrame_mem (y : Sample) : (s.finishFrame y).mem = s.mem := by
  rw [State.finishFrame_eq]
@[simp] theorem State.finishFrame_stft (y : Sample) : (s.finishFrame y).stft = s.stft := by
  rw [State.finishFrame_eq]
@[simp] theorem State.finishFrame_dly (y : Sample) : (s.finishFrame y).dly = s.dly := by
  rw [State.finishFrame_eq]
@[simp] theorem State.finishFrame_comb (y : Sample) : (s.finishFrame y).comb = s.comb := by
  rw [State.finishFrame_eq]
@[simp] theorem State.finishFrame_bqL (y : Sample) : (s.finishFrame y).bqL = s.bqL := by
  rw [State.finishFrame_eq]
@[simp] theorem State.finishFrame_bqR (y : Sample) : (s.finishFrame y).bqR = s.bqR := by
  rw [State.finishFrame_eq]
@[simp] theorem State.finishFrame_inFrame (y : Sample) : (s.finishFrame y).inFrame = false := by
  rw [State.finishFrame_eq]
@[simp] theorem State.finishFrame_draws (y : Sample) : (s.finishFrame y).draws = s.draws := by
  rw [State.finishFrame_eq]
@[simp] theorem State.finishFrame_inputs (y : Sample) : (s.finishFrame y).inputs = s.inputs := by
  rw [State.finishFrame_eq]
@[simp] theorem State.finishFrame_emitted (y : Sample) : (s.finishFrame y).emitted = .frame y :: s.emitted := by
  rw [State.finishFrame_eq]

/-- Taking a fault: the capture registers, STATUS.FAULT, and the end of the frame with output zero. -/
theorem State.raiseFault_eq (cause : BitVec 8) (fpc : BitVec 17) (fw : Word) : s.raiseFault cause fpc fw =
    { s with
      faultCause := cause
      faultPc := fpc
      faultInsn := fw
      fault := true
      inFrame := false
      emitted := .frame Sample.zero :: s.emitted
      pos := s.pos + 1
      inBlock := if s.pos + 1 = s.blkF then false else s.inBlock
      blkRun := if s.pos + 1 = s.blkF then false else s.blkRun } := by
  unfold State.raiseFault
  rw [State.finishFrame_eq]

/-! ## Ring cursor -/

theorem ringAdv_lt {cur len : Nat} (h : 0 < len) : ringAdv cur len < len := Nat.mod_lt _ h

theorem ringAt_lt {cur : Nat} {off : Int} {len : Nat} (h : 0 < len) : ringAt cur off len < len := by
  unfold ringAt
  have h1 := Int.emod_nonneg ((cur : Int) + off) (show (len : Int) ≠ 0 by omega)
  have h2 := Int.emod_lt_of_pos ((cur : Int) + off) (show 0 < (len : Int) by omega)
  omega

/-! ## Buffer port -/

theorem clampIdx_lt {len : Nat} (h : 0 < len) (pos : Word) : clampIdx len pos < len := by
  unfold clampIdx
  split_ifs <;> omega

/-- A Buffer write changes the memory alone. -/
theorem State.bufWrite_eq (pos : Word) (v : Sample) : s.bufWrite pos v = { s with mem := (s.bufWrite pos v).mem } := by
  unfold State.bufWrite
  split_ifs <;> rfl

/-- What a Buffer write leaves in memory: nothing new for an empty Buffer, both words of a stereo frame, or the one word of
a mono frame. -/
theorem State.bufWrite_cases (pos : Word) (v : Sample) :
    (s.lenEff = 0 ∧ s.bufWrite pos v = s) ∨
    (s.lenEff ≠ 0 ∧ s.stereo = true ∧ s.bufWrite pos v = { s with
      mem := (s.mem.setWord (bufAddr (2 * clampIdx s.lenEff pos)) v.l).setWord
        (bufAddr (2 * clampIdx s.lenEff pos + 1)) v.r }) ∨
    (s.lenEff ≠ 0 ∧ s.stereo = false ∧ s.bufWrite pos v = { s with
      mem := s.mem.setWord (bufAddr (clampIdx s.lenEff pos)) (fadd v.l v.r).val }) := by
  by_cases h : s.lenEff = 0
  · exact .inl ⟨h, by simp [State.bufWrite, h]⟩
  · cases hs : s.stereo with
    | true => exact .inr (.inl ⟨h, rfl, by simp [State.bufWrite, h, hs, State.bufSet, State.frameWord]⟩)
    | false => exact .inr (.inr ⟨h, rfl, by simp [State.bufWrite, h, hs, State.bufSet, State.frameWord]⟩)

/-- Every word of the Buffer lies at mapped byte addresses. -/
theorem bufAddr_mapped {i j : Nat} (h : i < Config.bufCap) (hj : j < 4) : mapped (bufAddr i + j) = true := by
  rw [bufCap_eq] at h
  rw [mapped_iff]
  unfold bufAddr Config.bufBase
  omega

/-- Every word of `PMEM` lies at mapped byte addresses. -/
theorem pmemAddr_mapped {i j : Nat} (h : i < Config.progLen) (hj : j < 4) : mapped (pmemAddr i + j) = true := by
  rw [progLen_eq] at h
  rw [mapped_iff]
  unfold pmemAddr Config.pmemBase
  omega

/-! ## Commit and blocks -/

/-- BlockStart, field by field. -/
theorem State.blockStart_eq (frames : BitVec 32) : s.blockStart frames =
    { s with
      blockCnt := s.blockCnt + 1
      live := s.shadow
      dlyFrames := dlyFramesOf s.shadow
      combFrames := combFramesOf s.shadow
      bqCoef := if sameBqInputs s.live s.shadow then s.bqCoef else bqCompute s.shadow
      blkRun := if frames = 0 then false else s.ctrlRun
      blkF := frames
      pos := 0
      inBlock := if frames = 0 then false else true } := by
  unfold State.blockStart State.commit State.blockEnd
  dsimp only
  split_ifs <;> rfl

/-! ## Host bus -/

/-- A host read answers with the location's word, or errs with data 0 and STATUS.BUSERR. -/
theorem State.hostRead_cases (a : Word) :
    (∃ loc, hostLoc a = some loc ∧
      s.hostRead a = { s with emitted := .readResp (s.readLoc loc) true :: s.emitted }) ∨
    (hostLoc a = none ∧ s.hostRead a = { s with busErr := true, emitted := .readResp 0 false :: s.emitted }) := by
  unfold State.hostRead
  cases hostLoc a with
  | none => exact .inr ⟨rfl, rfl⟩
  | some loc => exact .inl ⟨loc, rfl, rfl⟩

/-- A host write is performed at its location, or errs and sets STATUS.BUSERR alone. -/
theorem State.hostWrite_cases (a w : Word) :
    (∃ loc t, hostLoc a = some loc ∧ s.writeLoc loc w = some t ∧
      s.hostWrite a w = { t with emitted := .writeResp true :: t.emitted }) ∨
    ((hostLoc a = none ∨ ∃ loc, hostLoc a = some loc ∧ s.writeLoc loc w = none) ∧
      s.hostWrite a w = { s with busErr := true, emitted := .writeResp false :: s.emitted }) := by
  unfold State.hostWrite
  cases hl : hostLoc a with
  | none => exact .inr ⟨.inl rfl, rfl⟩
  | some loc =>
    simp only [Option.bind_some]
    cases hw : s.writeLoc loc w with
    | none => exact .inr ⟨.inr ⟨loc, rfl, hw⟩, rfl⟩
    | some t => exact .inl ⟨loc, t, rfl, hw, rfl⟩

/-! ## Fetch and the step -/

/-- A fetch faults on an overrun, faults on a word that does not decode, or gives the decoded instruction. -/
theorem State.fetch_cases :
    (Config.progLen ≤ s.pc.toNat ∧ s.fetch = .faulted (s.raiseFault causeOverrun s.pc 0)) ∨
    (s.pc.toNat < Config.progLen ∧ ∃ e, decode (s.pmem s.pc.toNat) = .error e ∧
      s.fetch = .faulted (s.raiseFault causeIllegal s.pc (s.pmem s.pc.toNat))) ∨
    (s.pc.toNat < Config.progLen ∧ ∃ i, decode (s.pmem s.pc.toNat) = .ok i ∧ s.fetch = .instr i) := by
  unfold State.fetch
  by_cases h : Config.progLen ≤ s.pc.toNat
  · exact .inl ⟨h, by rw [if_pos h]⟩
  · rw [if_neg h]
    dsimp only
    cases decode (s.pmem s.pc.toNat) with
    | error e => exact .inr (.inl ⟨by omega, e, rfl, rfl⟩)
    | ok i => exact .inr (.inr ⟨by omega, i, rfl, rfl⟩)

/-- Inside a frame a step is the fetched instruction's meaning, or the state after the fetch's fault. -/
theorem step_inside (h : s.inFrame = true) :
    step s = match s.fetch with
      | .instr i => exec i s
      | .faulted t => .next t := by
  unfold step
  exact if_pos h

/-- Outside a frame a step takes the next offer. -/
theorem step_outside (h : s.inFrame = false) : step s = s.acceptNext := by simp [step, h]

end Sys2Proof.Machine
end

