-- ==== Sys2Proof/Laws/PerInstr.lean ====
section
/-! SUPPORT. Laws/PerInstr.lean: the per-instruction family OpcodeField: the encoder gives each instruction its row's
opcode (30_encoding.md R156). -/

namespace Sys2Proof.Laws

/-- The opcode of an instruction's row (30_encoding.md R156). -/
def rowOpcode : Instr → BitVec 6
  | .endp => 0x00
  | .nop => 0x01
  | .skipev _ => 0x02
  | .ldi _ _ => 0x04
  | .ldp _ _ => 0x05
  | .outadd _ => 0x06
  | .sadd _ _ _ => 0x08
  | .ssub _ _ _ => 0x09
  | .smul _ _ _ => 0x0A
  | .sdiv _ _ _ => 0x0B
  | .saddf _ _ _ => 0x0C
  | .ssubf _ _ _ => 0x0D
  | .smulf _ _ _ => 0x0E
  | .sdivf _ _ _ => 0x0F
  | .sclip _ _ _ _ => 0x10
  | .swrap _ _ _ _ => 0x11
  | .slin _ _ _ _ _ => 0x12
  | .smov _ _ => 0x13
  | .spack _ _ _ => 0x14
  | .sgetl _ _ => 0x15
  | .sgetr _ _ => 0x16
  | .fadd _ _ _ => 0x18
  | .fsub _ _ _ => 0x19
  | .fmul _ _ _ => 0x1A
  | .fdiv _ _ _ => 0x1B
  | .fmov _ _ => 0x1C
  | .brd _ _ => 0x20
  | .brd1 _ _ _ => 0x21
  | .bwr _ _ => 0x22
  | .rscale _ _ => 0x23
  | .sec2fr _ _ => 0x24
  | .fr2sec _ _ => 0x25
  | .dly _ _ => 0x28
  | .comb _ _ => 0x29
  | .biq _ _ => 0x2A
  | .stft _ _ => 0x2B

/-- Bits 31:26 of an instruction's word are its row's opcode. -/
def OpcodeField.Statement (i : Instr) : Prop := opField (encode i) = rowOpcode i

theorem OpcodeField.endp : OpcodeField.Statement (.endp) := opField_rWord _ _ _ _ _ _
theorem OpcodeField.nop : OpcodeField.Statement (.nop) := opField_rWord _ _ _ _ _ _
theorem OpcodeField.skipev (n : BitVec 16) : OpcodeField.Statement (.skipev n) := opField_iWord _ _ _
theorem OpcodeField.ldi (d : RegIdx) (imm : BitVec 16) : OpcodeField.Statement (.ldi d imm) := opField_iWord _ _ _
theorem OpcodeField.ldp (d : RegIdx) (p : BitVec 16) : OpcodeField.Statement (.ldp d p) := opField_iWord _ _ _
theorem OpcodeField.outadd (a : RegIdx) : OpcodeField.Statement (.outadd a) := opField_rWord _ _ _ _ _ _
theorem OpcodeField.sadd (d a b : RegIdx) : OpcodeField.Statement (.sadd d a b) := opField_rWord _ _ _ _ _ _
theorem OpcodeField.ssub (d a b : RegIdx) : OpcodeField.Statement (.ssub d a b) := opField_rWord _ _ _ _ _ _
theorem OpcodeField.smul (d a b : RegIdx) : OpcodeField.Statement (.smul d a b) := opField_rWord _ _ _ _ _ _
theorem OpcodeField.sdiv (d a b : RegIdx) : OpcodeField.Statement (.sdiv d a b) := opField_rWord _ _ _ _ _ _
theorem OpcodeField.saddf (d a b : RegIdx) : OpcodeField.Statement (.saddf d a b) := opField_rWord _ _ _ _ _ _
theorem OpcodeField.ssubf (d a b : RegIdx) : OpcodeField.Statement (.ssubf d a b) := opField_rWord _ _ _ _ _ _
theorem OpcodeField.smulf (d a b : RegIdx) : OpcodeField.Statement (.smulf d a b) := opField_rWord _ _ _ _ _ _
theorem OpcodeField.sdivf (d a b : RegIdx) : OpcodeField.Statement (.sdivf d a b) := opField_rWord _ _ _ _ _ _
theorem OpcodeField.sclip (d a b c : RegIdx) : OpcodeField.Statement (.sclip d a b c) := opField_rWord _ _ _ _ _ _
theorem OpcodeField.swrap (d a b c : RegIdx) : OpcodeField.Statement (.swrap d a b c) := opField_rWord _ _ _ _ _ _
theorem OpcodeField.slin (d a b c e : RegIdx) : OpcodeField.Statement (.slin d a b c e) := opField_rWord _ _ _ _ _ _
theorem OpcodeField.smov (d a : RegIdx) : OpcodeField.Statement (.smov d a) := opField_rWord _ _ _ _ _ _
theorem OpcodeField.spack (d a b : RegIdx) : OpcodeField.Statement (.spack d a b) := opField_rWord _ _ _ _ _ _
theorem OpcodeField.sgetl (d a : RegIdx) : OpcodeField.Statement (.sgetl d a) := opField_rWord _ _ _ _ _ _
theorem OpcodeField.sgetr (d a : RegIdx) : OpcodeField.Statement (.sgetr d a) := opField_rWord _ _ _ _ _ _
theorem OpcodeField.fadd (d a b : RegIdx) : OpcodeField.Statement (.fadd d a b) := opField_rWord _ _ _ _ _ _
theorem OpcodeField.fsub (d a b : RegIdx) : OpcodeField.Statement (.fsub d a b) := opField_rWord _ _ _ _ _ _
theorem OpcodeField.fmul (d a b : RegIdx) : OpcodeField.Statement (.fmul d a b) := opField_rWord _ _ _ _ _ _
theorem OpcodeField.fdiv (d a b : RegIdx) : OpcodeField.Statement (.fdiv d a b) := opField_rWord _ _ _ _ _ _
theorem OpcodeField.fmov (d a : RegIdx) : OpcodeField.Statement (.fmov d a) := opField_rWord _ _ _ _ _ _
theorem OpcodeField.brd (d a : RegIdx) : OpcodeField.Statement (.brd d a) := opField_rWord _ _ _ _ _ _
theorem OpcodeField.brd1 (d a : RegIdx) (ch : Bool) : OpcodeField.Statement (.brd1 d a ch) := opField_rWord _ _ _ _ _ _
theorem OpcodeField.bwr (a b : RegIdx) : OpcodeField.Statement (.bwr a b) := opField_rWord _ _ _ _ _ _
theorem OpcodeField.rscale (d a : RegIdx) : OpcodeField.Statement (.rscale d a) := opField_rWord _ _ _ _ _ _
theorem OpcodeField.sec2fr (d a : RegIdx) : OpcodeField.Statement (.sec2fr d a) := opField_rWord _ _ _ _ _ _
theorem OpcodeField.fr2sec (d a : RegIdx) : OpcodeField.Statement (.fr2sec d a) := opField_rWord _ _ _ _ _ _
theorem OpcodeField.dly (d a : RegIdx) : OpcodeField.Statement (.dly d a) := opField_rWord _ _ _ _ _ _
theorem OpcodeField.comb (d a : RegIdx) : OpcodeField.Statement (.comb d a) := opField_rWord _ _ _ _ _ _
theorem OpcodeField.biq (d a : RegIdx) : OpcodeField.Statement (.biq d a) := opField_rWord _ _ _ _ _ _
theorem OpcodeField.stft (d a : RegIdx) : OpcodeField.Statement (.stft d a) := opField_rWord _ _ _ _ _ _

end Sys2Proof.Laws
end

