-- ==== Sys2Proof/Laws/Stft.lean ====
section
/-! SUPPORT. Laws/Stft.lean: every operation of the STFT unit keeps the lengths of its arrays, what each stage of the shift
step leaves in every array, and the ROM tables and work arrays read place by place. -/

namespace Sys2Proof.Machine

/-- A property kept by every element's operation is kept by the fold over a range. -/
theorem foldl_range_keeps {α : Type} (P : α → Prop) (f : α → Nat → α) (n : Nat)
    (h : ∀ k a, k < n → P a → P (f a k)) (a : α) (ha : P a) : P ((List.range n).foldl f a) := by
  have key : ∀ (l : List Nat) (a : α), (∀ k ∈ l, k < n) → P a → P (l.foldl f a) := by
    intro l
    induction l with
    | nil => intro a _ ha; exact ha
    | cons k t ih =>
      intro a hl ha
      exact ih _ (fun j hj => hl j (List.mem_cons_of_mem _ hj)) (h k a (hl k List.mem_cons_self) ha)
  exact key _ a (fun k hk => List.mem_range.mp hk) ha

/-- The arrays of a channel have their lengths, as nine facts. -/
theorem StftChan.wf_iff {ch : StftChan} : ch.wf = true ↔
    cellsWf Config.ringLen ch.hist = true ∧ cellsWf Config.ringLen ch.out = true ∧
    cellsWf Config.numBins ch.anaPh = true ∧ cellsWf Config.numBins ch.anaMag = true ∧
    cellsWf Config.numBins ch.anaFrq = true ∧ cellsWf Config.numBins ch.synPh = true ∧
    cellsWf Config.numBins ch.synMag = true ∧ cellsWf Config.numBins ch.synFrq = true ∧
    cellsWf Config.numBins ch.env = true := by
  simp [StftChan.wf, and_assoc]

theorem analyseBin_wf {k : Nat} (hk : k < Config.numBins) (x : Cplx) {ch : StftChan} (h : ch.wf = true) :
    (analyseBin k x ch).wf = true := by
  rw [StftChan.wf_iff] at h ⊢
  obtain ⟨h1, h2, h3, h4, h5, h6, h7, h8, h9⟩ := h
  exact ⟨h1, h2, cellsWf_cellSet h3 hk _, cellsWf_cellSet h4 hk _, cellsWf_cellSet h5 hk _, h6, h7, h8,
    cellsWf_cellSet h9 hk _⟩

theorem analyse_wf (x : Array Cplx) {ch : StftChan} (h : ch.wf = true) : (analyse x ch).wf = true := by
  unfold analyse
  exact foldl_range_keeps (fun c : StftChan => c.wf = true) (fun ch k => analyseBin k (cplxAt x k) ch) Config.numBins
    (fun _ _ hk hc => analyseBin_wf hk _ hc) ch h

theorem shiftBin_wf (f : Word) (k : Nat) {ch : StftChan} (h : ch.wf = true) : (shiftBin f k ch).wf = true := by
  unfold shiftBin
  dsimp only
  split
  · next hd =>
    simp only [Bool.and_eq_true, decide_eq_true_eq] at hd
    have hj : (roundHA (fmul (toF k) f).val).toNat < Config.numBins := by
      have := hd.2
      rw [fftN_eq] at this
      rw [numBins_eq]
      omega
    rw [StftChan.wf_iff] at h ⊢
    obtain ⟨h1, h2, h3, h4, h5, h6, h7, h8, h9⟩ := h
    exact ⟨h1, h2, h3, h4, h5, h6, cellsWf_cellSet h7 hj _, cellsWf_cellSet h8 hj _, h9⟩
  · exact h

theorem shiftBins_wf (f : Word) {ch : StftChan} (h : ch.wf = true) : (shiftBins f ch).wf = true := by
  unfold shiftBins
  refine foldl_range_keeps (fun c : StftChan => c.wf = true) (fun ch k => shiftBin f k ch) Config.numBins
    (fun k _ _ hc => shiftBin_wf f k hc) _ ?_
  rw [StftChan.wf_iff] at h ⊢
  obtain ⟨h1, h2, h3, h4, h5, h6, -, -, h9⟩ := h
  exact ⟨h1, h2, h3, h4, h5, h6, rfl, rfl, h9⟩

theorem accumulatePhases_wf {ch : StftChan} (h : ch.wf = true) : (accumulatePhases ch).wf = true := by
  unfold accumulatePhases
  refine foldl_range_keeps (fun c : StftChan => c.wf = true) (fun ch j => accumulatePhase j ch) Config.numBins
    (fun j c hj hc => ?_) _ h
  show (accumulatePhase j c).wf = true
  rw [StftChan.wf_iff] at hc ⊢
  obtain ⟨h1, h2, h3, h4, h5, h6, h7, h8, h9⟩ := hc
  exact ⟨h1, h2, h3, h4, h5, cellsWf_cellSet h6 hj _, h7, h8, h9⟩

theorem overlapBin_wf (ow : Nat) (z : Array Cplx) (n : Nat) {o : Cells} (h : cellsWf Config.ringLen o = true) :
    cellsWf Config.ringLen (overlapBin ow z n o) = true := by
  unfold overlapBin
  dsimp only
  exact cellsWf_cellSet h (ringAt_lt (by decide)) _

theorem overlapAdd_wf (ow : Nat) (z : Array Cplx) {ch : StftChan} (h : ch.wf = true) :
    (overlapAdd ow z ch).wf = true := by
  rw [StftChan.wf_iff] at h
  obtain ⟨h1, h2, h3, h4, h5, h6, h7, h8, h9⟩ := h
  have key := foldl_range_keeps (fun o : Cells => cellsWf Config.ringLen o = true)
    (fun out n => overlapBin ow z n out) Config.fftN
    (fun n o _ ho => overlapBin_wf ow z n ho) ch.out h2
  unfold overlapAdd
  rw [StftChan.wf_iff]
  dsimp only at key ⊢
  refine ⟨h1, ?_, h3, h4, h5, h6, h7, h8, h9⟩
  exact key

/-- A shift step keeps the lengths of the channel's arrays. -/
theorem shiftChan_wf (f : Word) (hw ow : Nat) {ch : StftChan} (h : ch.wf = true) :
    (shiftChan f hw ow ch).wf = true := by
  unfold shiftChan
  exact overlapAdd_wf _ _ (accumulatePhases_wf (shiftBins_wf f (analyse_wf _ h)))

theorem analyse_hist (x : Array Cplx) (ch : StftChan) : (analyse x ch).hist = ch.hist := by
  unfold analyse
  exact foldl_range_keeps (fun c : StftChan => c.hist = ch.hist) (fun ch k => analyseBin k (cplxAt x k) ch)
    Config.numBins (fun _ _ _ hc => hc) ch rfl

theorem shiftBin_hist (f : Word) (k : Nat) (ch : StftChan) : (shiftBin f k ch).hist = ch.hist := by
  unfold shiftBin
  dsimp only
  split <;> rfl

theorem shiftBins_hist (f : Word) (ch : StftChan) : (shiftBins f ch).hist = ch.hist := by
  unfold shiftBins
  exact foldl_range_keeps (fun c : StftChan => c.hist = ch.hist) (fun ch k => shiftBin f k ch) Config.numBins
    (fun k c _ hc => (shiftBin_hist f k c).trans hc) _ rfl

theorem accumulatePhases_hist (ch : StftChan) : (accumulatePhases ch).hist = ch.hist := by
  unfold accumulatePhases
  exact foldl_range_keeps (fun c : StftChan => c.hist = ch.hist) (fun ch j => accumulatePhase j ch) Config.numBins
    (fun _ _ _ hc => hc) ch rfl

/-- A shift step leaves the input history alone. -/
theorem shiftChan_hist (f : Word) (hw ow : Nat) (ch : StftChan) : (shiftChan f hw ow ch).hist = ch.hist := by
  unfold shiftChan overlapAdd
  simp only [accumulatePhases_hist, shiftBins_hist, analyse_hist]

/-- The unit is in range, as six facts. -/
theorem Stft.wf_iff {u : Stft} : u.wf = true ↔
    u.l.wf = true ∧ u.r.wf = true ∧ u.hw < Config.ringLen ∧ u.orr < Config.ringLen ∧ u.ow < Config.ringLen ∧
    u.hc < Config.hop := by
  simp [Stft.wf, and_assoc]

/-! ## What each stage of the shift step leaves in the arrays -/

/-- A fold over a range reaches what each of its steps brings one nearer. -/
theorem foldl_range_reaches {α : Type} (P : Nat → α → Prop) (f : α → Nat → α) (n : Nat)
    (h : ∀ k a, k < n → P k a → P (k + 1) (f a k)) (a : α) (ha : P 0 a) : P n ((List.range n).foldl f a) := by
  induction n with
  | zero => exact ha
  | succ n ih =>
    rw [List.range_succ, List.foldl_append]
    exact h n _ (Nat.lt_succ_self n) (ih fun k a hk => h k a (Nat.lt_succ_of_lt hk))

theorem cellGet_cellSet {len : Nat} {c : Cells} (hc : cellsWf len c = true) (i j : Nat) (v : Word) :
    cellGet (cellSet c i v) j = if j = i then v else cellGet c j := by
  split
  · next h => rw [h]; exact cellGet_cellSet_same hc i v
  · next h => exact cellGet_cellSet_ne h v

/-- Each bin of the analysis ends as its own update of the channel left it. -/
theorem analyse_bins (x : Array Cplx) {ch : StftChan} (h : ch.wf = true) :
    (∀ k, k < Config.numBins →
      cellGet (analyse x ch).anaMag k = cellGet (analyseBin k (cplxAt x k) ch).anaMag k ∧
      cellGet (analyse x ch).anaPh k = cellGet (analyseBin k (cplxAt x k) ch).anaPh k ∧
      cellGet (analyse x ch).anaFrq k = cellGet (analyseBin k (cplxAt x k) ch).anaFrq k ∧
      cellGet (analyse x ch).env k = cellGet (analyseBin k (cplxAt x k) ch).env k) ∧
    { analyse x ch with anaMag := [], anaPh := [], anaFrq := [], env := [] } =
      { ch with anaMag := [], anaPh := [], anaFrq := [], env := [] } := by
  let P : Nat → StftChan → Prop := fun n c => c.wf = true ∧
    (∀ k, cellGet c.anaMag k = (if k < n then cellGet (analyseBin k (cplxAt x k) ch).anaMag k else cellGet ch.anaMag k) ∧
      cellGet c.anaPh k = (if k < n then cellGet (analyseBin k (cplxAt x k) ch).anaPh k else cellGet ch.anaPh k) ∧
      cellGet c.anaFrq k = (if k < n then cellGet (analyseBin k (cplxAt x k) ch).anaFrq k else cellGet ch.anaFrq k) ∧
      cellGet c.env k = (if k < n then cellGet (analyseBin k (cplxAt x k) ch).env k else cellGet ch.env k)) ∧
    { c with anaMag := [], anaPh := [], anaFrq := [], env := [] } =
      { ch with anaMag := [], anaPh := [], anaFrq := [], env := [] }
  have key : P Config.numBins (analyse x ch) := by
    unfold analyse
    refine foldl_range_reaches P (fun ch k => analyseBin k (cplxAt x k) ch) Config.numBins ?_ ch
      ⟨h, fun k => by simp, rfl⟩
    rintro n c hn ⟨hwf, hc, hrest⟩
    refine ⟨analyseBin_wf hn _ hwf, fun k => ?_, hrest⟩
    have w := StftChan.wf_iff.1 hwf
    have w0 := StftChan.wf_iff.1 h
    obtain ⟨hn1, hn2, hn3, hn4⟩ := hc n
    simp only [lt_irrefl, if_false] at hn1 hn2 hn3 hn4
    obtain ⟨h1, h2, h3, h4⟩ := hc k
    simp only [analyseBin, hn2, hn4]
    simp only [analyseBin] at h1 h2 h3 h4
    rw [cellGet_cellSet w.2.2.2.1, cellGet_cellSet w.2.2.1, cellGet_cellSet w.2.2.2.2.1,
      cellGet_cellSet w.2.2.2.2.2.2.2.2, h1, h2, h3, h4]
    simp only [cellGet_cellSet_same w0.2.2.2.1, cellGet_cellSet_same w0.2.2.1, cellGet_cellSet_same w0.2.2.2.2.1,
      cellGet_cellSet_same w0.2.2.2.2.2.2.2.2]
    by_cases e : k = n
    · subst e; simp
    · have : (k < n + 1) = (k < n) := by simp; omega
      simp [e, this]
  refine ⟨fun k hk => ?_, key.2.2⟩
  simpa [hk] using key.2.1 k

/-- The source bins below `n` that the shift maps to bin `j`, in ascending order. -/
def mappedTo (f : Word) (n j : Nat) : List Nat :=
  (List.range n).filter fun k => isFinite (fmul (toF k) f).val && roundHA (fmul (toF k) f).val == (j : Int)

/-- Each bin of the synthesis: the magnitudes of its sources summed in ascending order, and the last one's frequency. -/
theorem shiftBins_bins (f : Word) {ch : StftChan} (h : ch.wf = true) :
    (∀ j, j < Config.numBins →
      cellGet (shiftBins f ch).synMag j =
        (mappedTo f Config.numBins j).foldl (fun m k => (fadd m (cellGet ch.anaMag k)).val) zeroW ∧
      cellGet (shiftBins f ch).synFrq j = (mappedTo f Config.numBins j).getLast?.elim zeroW
          (fun k => (fmul (cellGet ch.anaFrq k) f).val)) ∧
    { shiftBins f ch with synMag := [], synFrq := [] } = { ch with synMag := [], synFrq := [] } := by
  let P : Nat → StftChan → Prop := fun n c => c.wf = true ∧
    (∀ j, j < Config.numBins → cellGet c.synMag j =
        (mappedTo f n j).foldl (fun m k => (fadd m (cellGet ch.anaMag k)).val) zeroW ∧
      cellGet c.synFrq j = (mappedTo f n j).getLast?.elim zeroW (fun k => (fmul (cellGet ch.anaFrq k) f).val)) ∧
    { c with synMag := [], synFrq := [] } = { ch with synMag := [], synFrq := [] }
  have key : P Config.numBins (shiftBins f ch) := by
    unfold shiftBins
    refine foldl_range_reaches P (fun ch k => shiftBin f k ch) Config.numBins ?_ _ ⟨?_, fun j _ => ⟨rfl, rfl⟩, rfl⟩
    · rintro n c hn ⟨hwf, hc, hrest⟩
      have hm : c.anaMag = ch.anaMag := (StftChan.mk.injEq .. ▸ hrest).2.2.2.1
      have hf : c.anaFrq = ch.anaFrq := (StftChan.mk.injEq .. ▸ hrest).2.2.2.2.1
      refine ⟨shiftBin_wf f n hwf, fun j hj => ?_, ?_⟩
      · obtain ⟨h1, h2⟩ := hc j hj
        have w := StftChan.wf_iff.1 hwf
        have hlist : mappedTo f (n + 1) j = mappedTo f n j ++
            (if isFinite (fmul (toF n) f).val && roundHA (fmul (toF n) f).val == (j : Int) then [n] else []) := by
          simp [mappedTo, List.range_succ, List.filter_append, List.filter_cons]
        have hj' : (j : Int) ≤ (Config.fftN / 2 : Nat) := by
          rw [numBins_eq] at hj; rw [fftN_eq]; omega
        unfold shiftBin
        dsimp only
        by_cases hfin : isFinite (fmul (toF n) f).val = true
        · by_cases hd : roundHA (fmul (toF n) f).val = (j : Int)
          · rw [hlist, if_pos (by simp only [hfin, hd, hj', Int.natCast_nonneg, decide_true, Bool.and_self])]
            simp only [hfin, hd, Int.toNat_natCast, BEq.rfl, Bool.and_self, if_true, List.foldl_append, List.foldl_cons,
              List.foldl_nil, List.getLast?_append, List.getLast?_singleton, Option.some_or, Option.elim_some]
            rw [cellGet_cellSet_same w.2.2.2.2.2.2.1, cellGet_cellSet_same w.2.2.2.2.2.2.2.1, h1, hm, hf]
            exact ⟨rfl, rfl⟩
          · rw [hlist]
            simp only [beq_eq_false_iff_ne.2 hd, Bool.and_false, Bool.false_eq_true, if_false, List.append_nil]
            split
            · next hg =>
              simp only [Bool.and_eq_true, decide_eq_true_eq] at hg
              have hne : j ≠ (roundHA (fmul (toF n) f).val).toNat := by omega
              dsimp only
              rw [cellGet_cellSet_ne hne, cellGet_cellSet_ne hne]
              exact ⟨h1, h2⟩
            · exact ⟨h1, h2⟩
        · rw [hlist]
          simp only [hfin, Bool.false_and, Bool.false_eq_true, if_false, List.append_nil]
          exact ⟨h1, h2⟩
      · unfold shiftBin
        dsimp only
        split
        · exact hrest
        · exact hrest
    · rw [StftChan.wf_iff] at h ⊢
      obtain ⟨h1, h2, h3, h4, h5, h6, -, -, h9⟩ := h
      exact ⟨h1, h2, h3, h4, h5, h6, rfl, rfl, h9⟩
  exact ⟨key.2.1, key.2.2⟩

/-- Each phase is moved on by its own increment; the other arrays stay. -/
theorem accumulatePhases_bins {ch : StftChan} (h : ch.wf = true) :
    (∀ j, j < Config.numBins → cellGet (accumulatePhases ch).synPh j =
      wrapPi (fadd (cellGet ch.synPh j) (phaseInc j ch)).val) ∧
    { accumulatePhases ch with synPh := [] } = { ch with synPh := [] } := by
  let P : Nat → StftChan → Prop := fun n c => c.wf = true ∧
    (∀ j, cellGet c.synPh j =
      if j < n then wrapPi (fadd (cellGet ch.synPh j) (phaseInc j ch)).val else cellGet ch.synPh j) ∧
    { c with synPh := [] } = { ch with synPh := [] }
  have key : P Config.numBins (accumulatePhases ch) := by
    unfold accumulatePhases
    refine foldl_range_reaches P (fun ch j => accumulatePhase j ch) Config.numBins ?_ ch ⟨h, fun j => by simp, rfl⟩
    rintro n c hn ⟨hwf, hc, hrest⟩
    have w := StftChan.wf_iff.1 hwf
    have hs : c.synFrq = ch.synFrq := (StftChan.mk.injEq .. ▸ hrest).2.2.2.2.2.2.2.1
    have hn' := hc n
    simp only [lt_irrefl, if_false] at hn'
    refine ⟨?_, fun j => ?_, hrest⟩
    · rw [StftChan.wf_iff]
      obtain ⟨h1, h2, h3, h4, h5, h6, h7, h8, h9⟩ := w
      exact ⟨h1, h2, h3, h4, h5, cellsWf_cellSet h6 hn _, h7, h8, h9⟩
    · simp only [accumulatePhase]
      rw [cellGet_cellSet w.2.2.2.2.2.1, hc j, hn']
      by_cases e : j = n
      · subst e; simp [phaseInc, hs]
      · have : (j < n + 1) = (j < n) := by simp; omega
        simp [e, this]
  exact ⟨fun j hj => by simpa [hj] using key.2.1 j, key.2.2⟩

/-- The overlap-add adds sample `n` to slot `ow + n`, once each, and leaves the other slots. -/
theorem overlapAdd_out (ow : Nat) (z : Array Cplx) {ch : StftChan} (h : ch.wf = true) (p : Nat)
    (hp : p < Config.ringLen) :
    cellGet (overlapAdd ow z ch).out p =
      if (((p : Int) - ow) % 2048).toNat < Config.fftN then
        (fadd (cellGet ch.out p) (fdiv (fmul (cplxAt z (((p : Int) - ow) % 2048).toNat).1
          (windowTable.getD (((p : Int) - ow) % 2048).toNat zeroW)).val (toF Config.fftN)).val).val
      else cellGet ch.out p := by
  let q := (((p : Int) - ow) % 2048).toNat
  let v := (fadd (cellGet ch.out p) (fdiv (fmul (cplxAt z q).1 (windowTable.getD q zeroW)).val
    (toF Config.fftN)).val).val
  let P : Nat → Cells → Prop := fun n o => cellsWf Config.ringLen o = true ∧
    cellGet o p = if q < n then v else cellGet ch.out p
  have key : P Config.fftN ((List.range Config.fftN).foldl (fun o n => overlapBin ow z n o) ch.out) := by
    refine foldl_range_reaches P (fun o n => overlapBin ow z n o) Config.fftN ?_ ch.out
      ⟨(StftChan.wf_iff.1 h).2.1, by simp⟩
    rintro n o hn ⟨hwf, ho⟩
    refine ⟨overlapBin_wf ow z n hwf, ?_⟩
    rw [ringLen_eq] at hp
    rw [fftN_eq] at hn
    have hslot : p = ringAt ow n Config.ringLen ↔ q = n := by
      rw [ringLen_eq]
      simp only [ringAt, q]
      omega
    unfold overlapBin
    dsimp only
    rw [cellGet_cellSet hwf]
    by_cases e : q = n
    · rw [if_pos (hslot.2 e), ← hslot.2 e, ho, if_neg (by omega), if_pos (by omega), ← e]
    · rw [if_neg (fun c => e (hslot.1 c)), ho]
      have : (q < n + 1) = (q < n) := by simp; omega
      simp only [this]
  unfold overlapAdd
  dsimp only
  exact key.2

/-- The overlap-add leaves every array but `OUT`. -/
theorem overlapAdd_rest (ow : Nat) (z : Array Cplx) (ch : StftChan) :
    { overlapAdd ow z ch with out := [] } = { ch with out := [] } := by
  unfold overlapAdd
  rfl

/-! ## Tables and work arrays -/

/-- An entry of an array built over a range. -/
theorem getD_rangeMap {α : Type} (g : Nat → α) (n i : Nat) (d : α) (h : i < n) :
    (((List.range n).map g).toArray).getD i d = g i := by
  simp [Array.getD_eq_getD_getElem?, h]

theorem windowTable_getD {i : Nat} (h : i < Config.fftN) : windowTable.getD i zeroW = windowRom i :=
  getD_rangeMap windowRom Config.fftN i zeroW h

theorem nomTable_getD {k : Nat} (h : k < Config.numBins) : nomTable.getD k zeroW = nomRom k :=
  getD_rangeMap nomRom Config.numBins k zeroW h

theorem twiddleTable_getD {j : Nat} (h : j < Config.fftN / 2) : twiddleTable.getD j (zeroW, zeroW) = twiddleRom j :=
  getD_rangeMap twiddleRom (Config.fftN / 2) j (zeroW, zeroW) h

theorem cplxAt_rangeMap (g : Nat → Cplx) {n i : Nat} (h : i < n) : cplxAt ((List.range n).map g).toArray i = g i :=
  getD_rangeMap g n i (zeroW, zeroW) h

/-- A place of a work array after one store. -/
theorem cplxAt_set (a : Array Cplx) {p : Nat} (hp : p < a.size) (v : Cplx) (i : Nat) :
    cplxAt (a.setIfInBounds p v) i = if i = p then v else cplxAt a i := by
  by_cases h : i = p
  · subst h; simp [cplxAt, Array.getD_eq_getD_getElem?, hp]
  · simp [cplxAt, Array.getD_eq_getD_getElem?, Array.getElem?_setIfInBounds_ne (Ne.symm h), h]

end Sys2Proof.Machine
end

