-- ==== Sys2Proof/Tests/Slice0.lean ====
section
/-! SUPPORT. Tests/Slice0.lean: words written out from the spec's encodings, ill-formed terms and illegal words refused, the
spec's test vectors (95_test_vectors.md), and for each statement with hypotheses a witness that meets them. -/

namespace Sys2Proof.Tests

open Sys2Proof.Machine Sys2Proof.Claims

set_option Elab.async false

/-! ## Decoding: each row's word, operand bits written out by hand -/

theorem test_decode_control :
    decode 0b000000_00000000000000000000000000#32 = .ok (.endp) ∧
    decode 0b000001_00000000000000000000000000#32 = .ok (.nop) ∧
    decode 0b000010_000_0000000_1000000000000011#32 = .ok (.skipev 0x8003) ∧
    decode 0b000110000_011_00000000000000000000#32 = .ok (.outadd 3) := by decide

theorem test_decode_loads :
    decode 0b000100_101_0000000_1011111110000001#32 = .ok (.ldi 5 0xBF81) ∧
    decode 0b000101_010_00000000000000000_101011#32 = .ok (.ldp 2 43) := by decide

theorem test_decode_sample_arithmetic :
    decode 0b001000_110_011_101_00000000000000000#32 = .ok (.sadd 6 3 5) ∧
    decode 0b001001_110_011_101_00000000000000000#32 = .ok (.ssub 6 3 5) ∧
    decode 0b001010_110_011_101_00000000000000000#32 = .ok (.smul 6 3 5) ∧
    decode 0b001011_110_011_101_00000000000000000#32 = .ok (.sdiv 6 3 5) := by decide

theorem test_decode_sample_scalar :
    decode 0b001100_110_011_101_00000000000000000#32 = .ok (.saddf 6 3 5) ∧
    decode 0b001101_110_011_101_00000000000000000#32 = .ok (.ssubf 6 3 5) ∧
    decode 0b001110_110_011_101_00000000000000000#32 = .ok (.smulf 6 3 5) ∧
    decode 0b001111_110_011_101_00000000000000000#32 = .ok (.sdivf 6 3 5) := by decide

theorem test_decode_sample_shaping :
    decode 0b010000_110_011_101_001_00000000000000#32 = .ok (.sclip 6 3 5 1) ∧
    decode 0b010001_110_011_101_001_00000000000000#32 = .ok (.swrap 6 3 5 1) ∧
    decode 0b010010_110_011_101_001_100_00000000000#32 = .ok (.slin 6 3 5 1 4) := by decide

theorem test_decode_moves :
    decode 0b010011_110_011_00000000000000000000#32 = .ok (.smov 6 3) ∧
    decode 0b010100_110_011_101_00000000000000000#32 = .ok (.spack 6 3 5) ∧
    decode 0b010101_110_011_00000000000000000000#32 = .ok (.sgetl 6 3) ∧
    decode 0b010110_110_011_00000000000000000000#32 = .ok (.sgetr 6 3) ∧
    decode 0b011100_110_011_00000000000000000000#32 = .ok (.fmov 6 3) := by decide

theorem test_decode_scalar_arithmetic :
    decode 0b011000_110_011_101_00000000000000000#32 = .ok (.fadd 6 3 5) ∧
    decode 0b011001_110_011_101_00000000000000000#32 = .ok (.fsub 6 3 5) ∧
    decode 0b011010_110_011_101_00000000000000000#32 = .ok (.fmul 6 3 5) ∧
    decode 0b011011_110_011_101_00000000000000000#32 = .ok (.fdiv 6 3 5) := by decide

theorem test_decode_buffer :
    decode 0b100000_110_011_00000000000000000000#32 = .ok (.brd 6 3) ∧
    decode 0b100001_110_011_00100000000000000000#32 = .ok (.brd1 6 3 true) ∧
    decode 0b100010000_011_101_00000000000000000#32 = .ok (.bwr 3 5) ∧
    decode 0b100011_110_011_00000000000000000000#32 = .ok (.rscale 6 3) ∧
    decode 0b100001_110_011_000_00000000000000000#32 = .ok (.brd1 6 3 false) := by decide

theorem test_decode_time :
    decode 0b100100_110_011_00000000000000000000#32 = .ok (.sec2fr 6 3) ∧
    decode 0b100101_110_011_00000000000000000000#32 = .ok (.fr2sec 6 3) := by decide

theorem test_decode_units :
    decode 0b101000_110_011_00000000000000000000#32 = .ok (.dly 6 3) ∧
    decode 0b101001_110_011_00000000000000000000#32 = .ok (.comb 6 3) ∧
    decode 0b101010_110_011_00000000000000000000#32 = .ok (.biq 6 3) ∧
    decode 0b101011_110_011_00000000000000000000#32 = .ok (.stft 6 3) := by decide

/-- 95_test_vectors.md T-DEC-1 to T-DEC-11. -/
theorem test_decode_vectors :
    decode 0x00000000 = .ok .endp ∧ decode 0x04000000 = .ok .nop ∧ decode 0x08000004 = .ok (.skipev 4) ∧
    decode 0x1400003F = .ok (.ldp 0 63) ∧ decode 0x18100000 = .ok (.outadd 1) ∧
    decode 0x84120000 = .ok (.brd1 0 1 true) ∧ decode 0x88120000 = .ok (.bwr 1 1) ∧
    decode 0x48000000 = .ok (.slin 0 0 0 0 0) ∧ decode 0x4BFFF800 = .ok (.slin 7 7 7 7 7) ∧
    decode 0xAC800000 = .ok (.stft 1 0) ∧ decode 0x10807F80 = .ok (.ldi 1 0x7F80) := by decide

/-- 95_test_vectors.md T-DEC-12 to T-DEC-23, each with the check of 30_encoding.md R157 that fails. -/
theorem test_decode_illegal :
    decode 0x04000001 = .error .requiredZero ∧ decode 0x08000000 = .error .skipevZero ∧
    decode 0x08800004 = .error .requiredZero ∧ decode 0x10810000 = .error .requiredZero ∧
    decode 0x14000040 = .error .ldpIndex ∧ decode 0x20840001 = .error .requiredZero ∧
    decode 0x18800000 = .error .requiredZero ∧ decode 0x84160000 = .error .requiredZero ∧
    decode 0x88800000 = .error .requiredZero ∧ decode 0xFC000000 = .error .reservedOpcode ∧
    decode 0x5C000000 = .error .reservedOpcode ∧ decode 0x0C000000 = .error .reservedOpcode := by decide

theorem test_decode_truncated : decodeBytes [0x00, 0x00, 0x84] = .error .truncated := by decide

/-- The lowest address holds bits 7:0 (20_memory.md R109); what follows the word is handed on. -/
theorem test_decode_bytes :
    decodeBytes [0x00, 0x00, 0x84, 0x20, 0xAB] = .ok (.sadd 1 0 2, [0xAB]) ∧
    decodeTableWord 32 0x20840000 = some (.sadd 1 0 2) := by decide

/-! ## Well-formedness: an ill-formed term for each check -/

theorem test_wf_refuses_skipev_zero : (Instr.skipev 0).wf = false := by decide
theorem test_wf_refuses_ldp_past_the_parameters : (Instr.ldp 0 64).wf = false := by decide
theorem test_wf_accepts_the_bounds :
    (Instr.skipev 1).wf = true ∧ (Instr.skipev 0xFFFF).wf = true ∧ (Instr.ldp 7 63).wf = true := by decide

/-- 00_scope.md R5: a configuration that breaks a constraint is refused, one at the edge of each is not. -/
theorem test_config_check :
    (∀ p ∈ ([{ fftN := 1000 }, { fftN := 4, hop := 2 }, { hop := 0 }, { hop := 1024 }, { hop := 3 }, { chans := 1 },
      { dlyLen := 1 }, { combLen := 1 }, { progLen := 0 }, { progLen := 65537 }, { nparam := 65537 }, { bufCap := 1 },
      { rangeMax := 0 }, { bqFmin := 0xBF800000 }, { bqQmin := 0x7FC00000 }, { bqFmaxR := (1, 2) }] : List Config.Params),
      p.check = none) ∧
    (∀ p ∈ ([{}, { fftN := 8, hop := 1 }, { fftN := 131072 }, { nparam := 0 }, { bufCap := 2, dlyLen := 2 },
      { rangeMax := 0x7F800000 }, { bqFmaxR := (-1, 4) }, { bqFmaxR := (499999999, 1000000000) },
      { rateReset := 0x7FC00000 }] : List Config.Params), p.check = some p) ∧
    Config.numBins = 513 ∧ Config.ringLen = 2048 ∧ Config.overlap = 4 ∧ Config.chans = 2 := by decide +kernel

/-- 00_scope.md R6, 44_effects.md R440: the ROM constants the spec prints. -/
theorem test_rom_constants :
    [0, 1, 256, 511, 512, 767, 1023].map windowRom =
      [0, 0x3B7FFFF0, 0x3F402004, 0x3F7FFFF0, 0x3F7FFFF0, 0x3F402004, 0] ∧
    [1, 2, 512].map nomRom = [0x3FC90FDB, 0x40490FDB, 0x44490FDB] ∧ devK = 0x3F22F983 ∧ synK = 0x3FC90FDB ∧
    envBeta = 0x3DCCCCD0 ∧ bqFmaxRn = 0x3EFAE148 := by decide +kernel

/-! ## Instructions, on the vectors of 95_test_vectors.md -/

/-- What the tests look at after an instruction. -/
def after (i : Instr) (s : State) (look : State → Bool) : Bool :=
  match exec i s with
  | .next t => look t
  | .fault _ => false
  | .refused _ => false

/-- What the tests look at after a step. -/
def afterStep (s : State) (look : State → Bool) : Bool :=
  match step s with
  | .next t => look t
  | .fault _ => false
  | .refused _ => false

/-- The Sample result, the flags and `pc` of an instruction run at `pc = 0` with no flag set. -/
def givesS (i : Instr) (s : State) (d : RegIdx) (v : Sample) (f : FlagSet) : Bool :=
  after i s fun t => t.getS d = v && t.fflags = f && t.pc = 1

/-- The scalar result, the flags and `pc`. -/
def givesF (i : Instr) (s : State) (d : RegIdx) (v : Word) (f : FlagSet) : Bool :=
  after i s fun t => t.getF d = v && t.fflags = f && t.pc = 1

/-- Reset with two sample and two scalar registers set. -/
def regs (x y : Sample) (u v : Word) : State := (((State.reset.setS 0 x).setS 1 y).setF 0 u).setF 1 v

/-- T-SMP-1, T-SMP-2. -/
theorem test_sadd :
    (givesS (.sadd 2 0 1) (regs ⟨0x3FC00000, 0xC0000000⟩ ⟨0x3E800000, 0x3F000000⟩ 0 0) 2 ⟨0x3FE00000, 0xBFC00000⟩ 0
      && givesS (.sadd 2 0 1) (regs ⟨0x7F800000, 0⟩ ⟨0xFF800000, 0x80000000⟩ 0 0) 2 ⟨0x7FC00000, 0⟩ flagNV) = true := by decide +kernel

/-- T-SMP-3, T-SMP-4. -/
theorem test_ssub :
    (givesS (.ssub 2 0 1) (regs ⟨0x3F800000, 0x3F000000⟩ ⟨0x3E800000, 0x3F000000⟩ 0 0) 2 ⟨0x3F400000, 0⟩ 0
      && givesS (.ssub 2 0 1) (regs ⟨0x80000000, 0⟩ ⟨0, 0⟩ 0 0) 2 ⟨0x80000000, 0⟩ 0) = true := by decide +kernel

/-- T-SMP-5, T-SMP-6. -/
theorem test_smul :
    (givesS (.smul 2 0 1) (regs ⟨0x7F7FFFFF, 0x80000000⟩ ⟨0x40000000, 0x40A00000⟩ 0 0) 2 ⟨0x7F800000, 0x80000000⟩ 0b00101
      && givesS (.smul 2 0 1) (regs ⟨0x00800001, 0x00800000⟩ ⟨0x3F000000, 0x3F7FFFFF⟩ 0 0) 2 ⟨0x00400000, 0x00800000⟩ 0b00011) = true := by decide +kernel

/-- T-SMP-7. -/
theorem test_sdiv :
    (givesS (.sdiv 2 0 1) (regs ⟨0x3F800000, 0xBF800000⟩ ⟨0x40400000, 0x80000000⟩ 0 0) 2 ⟨0x3EAAAAAB, 0x7F800000⟩ 0b01001) = true := by decide +kernel

/-- T-SMP-8, T-SMP-9. -/
theorem test_saddf :
    (givesS (.saddf 2 0 0) (regs ⟨0x3F800000, 0xBF800000⟩ ⟨0, 0⟩ 0x3F000000 0) 2 ⟨0x3FC00000, 0xBF000000⟩ 0
      && givesS (.saddf 2 0 0) (regs ⟨0x3F800000, 0x3F800000⟩ ⟨0, 0⟩ 0x33800000 0) 2 ⟨0x3F800000, 0x3F800000⟩ flagNX) = true := by decide +kernel

/-- T-SMP-10. -/
theorem test_ssubf :
    (givesS (.ssubf 2 0 0) (regs ⟨0x3F800000, 0xBF800000⟩ ⟨0, 0⟩ 0x3F000000 0) 2 ⟨0x3F000000, 0xBFC00000⟩ 0) = true := by decide +kernel

/-- T-SMP-11, T-SMP-12. -/
theorem test_smulf :
    (givesS (.smulf 2 0 0) (regs ⟨0x3F000000, 0xC0400000⟩ ⟨0, 0⟩ 0x40000000 0) 2 ⟨0x3F800000, 0xC0C00000⟩ 0
      && givesS (.smulf 2 0 0) (regs ⟨0x7F800000, 0x3F800000⟩ ⟨0, 0⟩ 0 0) 2 ⟨0x7FC00000, 0⟩ flagNV) = true := by decide +kernel

/-- T-SMP-13, T-SMP-14. -/
theorem test_sdivf :
    (givesS (.sdivf 2 0 0) (regs ⟨0x3F800000, 0x40400000⟩ ⟨0, 0⟩ 0x40000000 0) 2 ⟨0x3F000000, 0x3FC00000⟩ 0
      && givesS (.sdivf 2 0 0) (regs ⟨0x3F800000, 0⟩ ⟨0, 0⟩ 0x80000000 0) 2 ⟨0xFF800000, 0x7FC00000⟩ 0b11000) = true := by decide +kernel

/-- T-SMP-16, T-SMP-17. -/
theorem test_sclip :
    (givesS (.sclip 2 1 0 1) (regs ⟨0, 0⟩ ⟨0x7FA00000, 0x80000000⟩ 0 0x3F800000) 2 ⟨0x7FA00000, 0x80000000⟩ 0
      && givesS (.sclip 2 1 0 1) (regs ⟨0, 0⟩ ⟨0, 0x40000000⟩ 0x3F800000 0xBF800000) 2 ⟨0x3F800000, 0xBF800000⟩ 0) = true := by decide +kernel

/-- T-WRAP-1, T-WRAP-4, T-WRAP-8, T-WRAP-9. -/
theorem test_swrap :
    (givesS (.swrap 2 1 0 1) (regs ⟨0, 0⟩ ⟨0x3FA00000, 0x3F800000⟩ 0xBF800000 0x3F800000) 2 ⟨0xBF400000, 0xBF800000⟩ 0
      && givesS (.swrap 2 1 0 1) (regs ⟨0, 0⟩ ⟨0xB0800000, 0x7FC00000⟩ 0 0x3F800000) 2 ⟨0x3F800000, 0x7FC00000⟩ 0b10001) = true := by decide +kernel

/-- T-SMP-19, T-SMP-20. -/
theorem test_slin :
    (givesS (.slin 3 0 1 0 1) (regs ⟨0x3F800000, 0⟩ ⟨0, 0x3F800000⟩ 0x3F400000 0x3E800000) 3 ⟨0x3F400000, 0x3E800000⟩ 0
      && givesS (.slin 3 0 1 0 1) (regs ⟨0x3F800000, 0x3F800000⟩ ⟨0x40400000, 0x40400000⟩ 0x3F666666 0x3DCCCCD0) 3 ⟨0x3F99999A, 0x3F99999A⟩ 0) = true := by decide +kernel

/-- T-SMP-21. -/
theorem test_smov :
    (givesS (.smov 1 0) (regs ⟨0x7FA00000, 0xFFC00001⟩ ⟨0, 0⟩ 0 0) 1 ⟨0x7FA00000, 0xFFC00001⟩ 0) = true := by decide +kernel

/-- T-SMP-22. -/
theorem test_spack :
    (givesS (.spack 1 0 1) (regs ⟨0, 0⟩ ⟨0, 0⟩ 0x3F000000 0x80000000) 1 ⟨0x3F000000, 0x80000000⟩ 0) = true := by decide +kernel

/-- T-SMP-23, T-SMP-24. -/
theorem test_sgetl_sgetr :
    (givesF (.sgetl 0 1) (regs ⟨0, 0⟩ ⟨0x3F000000, 0xC0000000⟩ 0 0) 0 0x3F000000 0
      && givesF (.sgetr 0 1) (regs ⟨0, 0⟩ ⟨0x3F000000, 0xC0000000⟩ 0 0) 0 0xC0000000 0) = true := by decide +kernel

/-- T-SMP-25, T-SMP-26. -/
theorem test_fadd :
    (givesF (.fadd 2 0 1) (regs ⟨0, 0⟩ ⟨0, 0⟩ 0x7F7FFFFF 0x7F7FFFFF) 2 0x7F800000 0b00101
      && givesF (.fadd 2 0 1) (regs ⟨0, 0⟩ ⟨0, 0⟩ 0x3F800000 0x33800001) 2 0x3F800001 flagNX) = true := by decide +kernel

/-- T-SMP-27. -/
theorem test_fsub :
    (givesF (.fsub 2 0 1) (regs ⟨0, 0⟩ ⟨0, 0⟩ 0x3F800000 0x3F666666) 2 0x3DCCCCD0 0) = true := by decide +kernel

/-- T-SMP-28, T-SMP-29. -/
theorem test_fmul :
    (givesF (.fmul 2 0 1) (regs ⟨0, 0⟩ ⟨0, 0⟩ 0x3DCCCCCD 0x3DCCCCCD) 2 0x3C23D70B flagNX
      && givesF (.fmul 2 0 1) (regs ⟨0, 0⟩ ⟨0, 0⟩ 0x00000003 0x3F000000) 2 0x00000002 0b00011) = true := by decide +kernel

/-- T-SMP-30, T-SMP-31. -/
theorem test_fdiv :
    (givesF (.fdiv 2 0 1) (regs ⟨0, 0⟩ ⟨0, 0⟩ 0x3F800000 0x40400000) 2 0x3EAAAAAB flagNX
      && givesF (.fdiv 2 0 1) (regs ⟨0, 0⟩ ⟨0, 0⟩ 0x3F800000 0x00200000) 2 0x7F800000 0b00101) = true := by decide +kernel

/-- T-SMP-32. -/
theorem test_fmov :
    (givesF (.fmov 1 0) (regs ⟨0, 0⟩ ⟨0, 0⟩ 0x7FA00000 0) 1 0x7FA00000 0) = true := by decide +kernel

/-- T-SMP-33, T-SMP-35. -/
theorem test_ldi :
    (givesF (.ldi 1 0x3F00) State.reset 1 0x3F000000 0 && givesF (.ldi 0 0xBF80) State.reset 0 0xBF800000 0) = true := by decide +kernel

/-- T-SMP-36. -/
theorem test_ldp :
    (givesF (.ldp 0 0) { State.reset with live := { Params.reset with p := [(0, 0x7FA00000)] } } 0 0x7FA00000 0) = true := by decide +kernel

/-- T-ENG-4: `POS = 0` runs the next word, `POS = 1` skips it. -/
theorem test_skipev :
    (after (.skipev 2) State.reset (fun t => t.pc = 1)
      && after (.skipev 2) { State.reset with pos := 1 } (fun t => t.pc = 2)) = true := by decide +kernel

/-- T-ENG-7 and a plain sum; OUTADD raises no flag. -/
theorem test_outadd :
    (after (.outadd 1) (regs ⟨0, 0⟩ ⟨0x80000000, 0x80000000⟩ 0 0) (fun t => t.oacc = ⟨0, 0⟩ && t.pc = 1)
      && after (.outadd 0) { regs ⟨0x33800001, 0x7FA00000⟩ ⟨0, 0⟩ 0 0 with oacc := ⟨0x3F800000, 0⟩ }
        (fun t => t.oacc = ⟨0x3F800001, 0x7FC00000⟩ && t.fflags = 0)) = true := by decide +kernel

/-- R315: the frame ends with output OACC; the last frame ends the block. -/
theorem test_end :
    (after .endp { State.reset with oacc := ⟨0x3F800000, 0x40000000⟩, inBlock := true, blkRun := true, blkF := 1, inFrame := true }
        (fun t => t.emitted = [.frame ⟨0x3F800000, 0x40000000⟩] && t.pos = 1 && !t.inBlock && !t.blkRun && t.pc = 0)) = true := by decide +kernel

/-- R316. -/
theorem test_nop :
    (after .nop State.reset (fun t => t = { State.reset with pc := 1 })) = true := by decide +kernel

/-- T-ENG-8, T-ENG-9. -/
theorem test_sec2fr :
    (givesF (.sec2fr 1 0) (regs ⟨0, 0⟩ ⟨0, 0⟩ 0x3E800000 0) 1 0x463B8000 0
      && givesF (.sec2fr 1 0) (regs ⟨0, 0⟩ ⟨0, 0⟩ 0x3C23D70A 0) 1 0x43F00000 flagNX) = true := by decide +kernel

/-- T-ENG-10, T-ENG-11. -/
theorem test_fr2sec :
    (givesF (.fr2sec 1 0) (regs ⟨0, 0⟩ ⟨0, 0⟩ 0x43F00000 0) 1 0x3C23D70A flagNX
      && givesF (.fr2sec 1 0) (regs ⟨0, 0⟩ ⟨0, 0⟩ 0x3F800000 0) 1 0x37AEC33E flagNX) = true := by decide +kernel

/-- T-BUF-21. -/
theorem test_rscale :
    (givesF (.rscale 1 0) { regs ⟨0, 0⟩ ⟨0, 0⟩ 0x40000000 0 with live := { Params.reset with bufRate := 0x472C4400 } } 1
        0x3FEB3333 flagNX) = true := by decide +kernel

/-- A Buffer of four frames and `chans` channels, all words zero. -/
def buffer (chans : BitVec 2) (s : State) : State :=
  { s with live := { s.live with bufLen := 4, bufChans := chans }, mem := ⟨[], .zero⟩ }

/-- T-BUF-1 to T-BUF-12. -/
theorem test_clampIdx :
    ([0xC0A00000, 0xBF000000, 0x00000000, 0x407F5C29, 0x40800000, 0x7149F2CA, 0x7FC00000, 0xFF800000, 0x7F800000,
      0x40200000, 0x80000000, 0x00000001].map (clampIdx 4)) = [0, 0, 0, 3, 3, 3, 0, 0, 3, 2, 0, 0] := by decide +kernel

/-- T-BUF-13, T-BUF-14, T-BUF-19. -/
theorem test_brd_brd1 :
    let s := ((buffer 2 (regs ⟨0, 0⟩ ⟨0, 0⟩ 0x40000000 0)).bufSet 4 0x3E800000).bufSet 5 0x3F000000
    (givesS (.brd 1 0) s 1 ⟨0x3E800000, 0x3F000000⟩ 0 && givesF (.brd1 1 0 true) s 1 0x3F000000 0
      && givesS (.brd 1 0) State.reset 1 ⟨0, 0⟩ 0) = true := by decide +kernel

/-- T-BUF-15: the index is clamped to the last frame. -/
theorem test_bwr_stereo :
    after (.bwr 1 0) (buffer 2 (regs ⟨0, 0⟩ ⟨0x3F800000, 0xBF800000⟩ 0x41100000 0))
      (fun t => t.bufGet 6 = 0x3F800000 && t.bufGet 7 = 0xBF800000 && t.bufGet 5 = 0 && t.mem.wf) = true := by
  decide +kernel

/-- T-BUF-16, T-BUF-18: the mono sum; no flag even when it is invalid. -/
theorem test_bwr_mono :
    (after (.bwr 0 0) (buffer 1 (regs ⟨0x3E800000, 0x3F000000⟩ ⟨0, 0⟩ 0x40000000 0))
        (fun t => t.bufGet 2 = 0x3F400000 && givesS (.brd 1 0) { t with pc := 0 } 1 ⟨0x3F400000, 0x3F400000⟩ 0)
      && after (.bwr 0 0) (buffer 1 (regs ⟨0x7F800000, 0xFF800000⟩ ⟨0, 0⟩ 0 0))
        (fun t => t.bufGet 0 = 0x7FC00000 && t.fflags = 0)) = true := by decide +kernel

/-- R421's example (95_test_vectors.md P2), one echo: the tap `D = 3` behind, mix 0.5, read before the wet value is
written back at the cursor. -/
theorem test_dly :
    after (.dly 1 0) { State.reset with
        live := { Params.reset with dlyMix := 0x3F000000 }, dlyFrames := 3, dly := ⟨[(0, 0x3F000000)], [(0, 0x3F000000)], 3⟩ }
      (fun t => t.getS 1 = ⟨0x3E800000, 0x3E800000⟩ && t.dly.w = 4 &&
        t.dly.l = [(0, 0x3F000000), (3, 0x3E800000)]) = true := by decide +kernel

/-- R431: the dry input is written back and the tap added; the cursor wraps. -/
theorem test_comb :
    after (.comb 1 0) { State.reset.setS 0 ⟨0x3F800000, 0x40000000⟩ with
        combFrames := 3, comb := ⟨[(4796, 0x3F800000)], [], 4799⟩ }
      (fun t => t.getS 1 = ⟨0x40000000, 0x40000000⟩ && t.comb = ⟨[(4796, 0x3F800000), (4799, 0x3F800000)], [(4799, 0x40000000)], 0⟩)
      = true := by decide +kernel

/-- R442's example: the first and the second output of the impulse response with the reset coefficients. -/
theorem test_biq :
    (after (.biq 1 0) (State.reset.setS 0 ⟨0x3F800000, 0⟩)
        (fun t => t.getS 1 = ⟨0x3B839466, 0⟩ && t.bqL = ⟨0x3F800000, 0, 0x3B839466, 0⟩)
      && after (.biq 1 0) { State.reset with bqL := ⟨0x3F800000, 0, 0x3B839466, 0⟩ }
        (fun t => (t.getS 1).l = 0x3C7E0A9C && t.bqL = ⟨0, 0x3F800000, 0x3C7E0A9C, 0x3B839466⟩)) = true := by decide +kernel

/-- R345 between shift steps: append, emit and zero the slot, advance both cursors. -/
theorem test_stft_between_shift_steps :
    after (.stft 4 0) { State.reset.setS 0 ⟨0x3F800000, 0x3F000000⟩ with
        stft := { Stft.reset with l := { StftChan.reset with out := [(2047, 0x40000000)] }, orr := 2047 } }
      (fun t => t.getS 4 = ⟨0x40000000, 0⟩ && t.stft.l = { StftChan.reset with hist := [(0, 0x3F800000)] } &&
        t.stft.r = { StftChan.reset with hist := [(0, 0x3F000000)] } && t.stft.hw = 1 && t.stft.orr = 0 &&
        t.stft.hc = 1 && t.stft.ow = 256 && t.hopCnt = 0) = true := by decide +kernel

/-! ## Function units, ROMs and the STFT's pieces -/

/-- T-FN-1 to T-FN-10, in part. -/
theorem test_function_units :
    fatan2 0x80000000 0xBF800000 = 0xC0490FDB ∧ fexp2 0x3F000000 = 0x3FB504F3 ∧ fexp2 0x3E800000 = 0x3F9837F0 ∧
    fexp2 0xC0800000 = 0x3D800000 ∧ fsqrt 0x40000000 = ⟨0x3FB504F3, flagNX⟩ ∧
    fcos 0x3E060A92 = 0x3F7DCF55 ∧ fsin 0x3E060A92 = 0x3E05A8A9 := by decide +kernel

/-- T-STFT-W1, W3, W7, W9, W11, W12. -/
theorem test_wrapPi :
    wrapPi 0x40490FDB = 0xC0490FDA ∧ wrapPi 0x40800000 = 0xC0121FB5 ∧ wrapPi 0x42C80000 = 0xBF07ED51 ∧
    wrapPi 0x40C90FDB = 0x343BBD2E ∧ wrapPi 0x40490FDA = 0x40490FDA ∧ wrapPi 0x80000000 = 0x80000000 := by
  decide +kernel

/-- T-STFT-7, T-STFT-9. -/
theorem test_shift_factor :
    shiftFactor { Params.reset with stftCtrl := 0x3DCCCCCD } = 0x3FA8E5A3 ∧
    shiftFactor { Params.reset with stftCtrl := 0xBE800000 } = 0x3F000000 := by decide +kernel

/-- T-FX-2, T-FX-4, T-FX-7. -/
theorem test_tap_frames :
    combFramesOf { Params.reset with rate := 0x41400000 } = 1 ∧
    combFramesOf { Params.reset with rate := 0x42400000, combTime := 0x3D800000 } = 3 ∧
    dlyFramesOf { Params.reset with dlyTime := maxF } = 95999 := by decide +kernel

/-- T-BQ-1 at `RATE = 12.0`, where the frequency ceiling applies. -/
theorem test_biquad_ceiling :
    bqCompute { Params.reset with rate := 0x41400000 } =
      ⟨0x3F77F66E, 0x3FF7F66E, 0x3F77F66E, 0x3FF7B7BD, 0x3F706A3D⟩ := by decide +kernel

/-! ## Fetch, the host bus and the two resets -/

/-- The step runs the word placed where it fetches: T-DEC-21 faults, SADD adds. -/
theorem test_step_runs_the_placed_word :
    (afterStep (State.reset.withFetchWord 32 0xFC000000) fun t =>
        t.fault && t.faultCause = 1 && t.faultInsn = 0xFC000000 && t.emitted = [.frame Sample.zero]) = true ∧
    (afterStep (State.reset.withFetchWord 32 0x04000000) fun t =>
        t = { State.reset.withFetchWord 32 0x04000000 with pc := 1 }) = true := by decide +kernel

/-- T-HOST-3, T-HOST-18, T-HOST-21: what the host sees. -/
theorem test_host_bus :
    (afterStep (offer State.reset (.hostWrite 0x044 0x80000000)) fun t =>
        t.shadow.dlyMix = 0x80000000 && t.live.dlyMix = 0) = true ∧
    (afterStep (offer State.reset (.hostRead 0x04C)) fun t =>
        t = { State.reset with busErr := true, emitted := [.readResp 0 false] }) = true ∧
    (afterStep (offer { State.reset with ctrlRun := true } (.hostWrite 0x008 5)) fun t =>
        t = { State.reset with ctrlRun := true, busErr := true, emitted := [.writeResp false] }) = true := by
  decide +kernel

/-- T-RST-3: a soft reset keeps `BUFMEM` and clears `PMEM`. -/
theorem test_soft_reset_memory :
    let s : State := { State.reset with mem := (Memory.mk [] .zero).setWord (bufAddr 0) 0x3F800000 |>.setWord (pmemAddr 0) 7 }
    (s.softReset.bufGet 0 = 0x3F800000 ∧ s.softReset.pmem 0 = 0) := by decide +kernel

/-! ## Witnesses: for each statement with hypotheses, a state and operands that meet them -/

/-- A frame program about to run `w` at `pc = 0`. -/
def running (w : Nat) : State := State.reset.withFetchWord 32 w

/-- A frame program about to run `w` in the last word of `PMEM`. -/
def runningLast (w : Nat) : State := ({ State.reset with pc := 255 } : State).withFetchWord 32 w

/-- A block open at its first frame, its program running. -/
def opened : State := { State.reset with inBlock := true, blkF := 1, blkRun := true, ctrlRun := true }

theorem witness_DecodeInvertsEncode :
    (Instr.skipev 1).wf = true ∧ (Instr.skipev 0xFFFF).wf = true ∧ (Instr.ldp 7 63).wf = true ∧
    (Instr.slin 7 6 5 4 3).wf = true := by decide

theorem witness_DecodedWordIsItsEncoding :
    decode 0x1400003F = .ok (.ldp 0 63) ∧ decode 0x4BFFF800 = .ok (.slin 7 7 7 7 7) := by decide

theorem witness_LegalWordsAreTheTableRows :
    (∃ row ∈ opcodeTable, (0x08000001 : Word) &&& BitVec.ofNat 32 row.2 = BitVec.ofNat 32 row.1 ∧
      (row.1 = 0x08000000 → (0x08000001 : Word).extractLsb' 0 16 ≠ 0)) ∧ decode 0x08000001 = .ok (.skipev 1) := by
  decide

theorem witness_StepRunsTheDecodedInstruction :
    ∀ s ∈ [running 0x20840000, runningLast 0x20840000], s.inFrame = true ∧ s.pc.toNat < Config.progLen ∧
      decode (s.mem.word (0x40000 + 4 * s.pc.toNat)) = .ok (.sadd 1 0 2) := by decide +kernel

theorem witness_ReservedOpcodeFaults :
    ∀ s ∈ [running 0x0C000000, running 0x9C000000, running 0xB0000000, runningLast 0xFFFFFFFF],
      s.inFrame = true ∧ s.pc.toNat < Config.progLen ∧
      (((s.mem.word (0x40000 + 4 * s.pc.toNat)).extractLsb' 26 6).toNat ∈ [0x03, 0x27] ∨
        0x2C ≤ ((s.mem.word (0x40000 + 4 * s.pc.toNat)).extractLsb' 26 6).toNat) := by decide +kernel

theorem witness_UndecodableWordFaultsPrecisely :
    ∀ s ∈ [running 0x08000000, runningLast 0x14000040], s.inFrame = true ∧ s.pc.toNat < Config.progLen ∧
      (decode (s.mem.word (0x40000 + 4 * s.pc.toNat)) = .error .skipevZero ∨
        decode (s.mem.word (0x40000 + 4 * s.pc.toNat)) = .error .ldpIndex) := by decide +kernel

theorem witness_FetchPastTheProgramFaults :
    ({ opened with inFrame := true, pc := 256 } : State).inFrame = true ∧
    Config.progLen ≤ ({ opened with inFrame := true, pc := 256 } : State).pc.toNat ∧
    Config.progLen ≤ ({ opened with inFrame := true, pc := 257 } : State).pc.toNat := by decide

theorem witness_FrameStartsTheProgram :
    opened.inBlock = true ∧ opened.pos.toNat < opened.blkF.toNat ∧ opened.blkRun = true ∧ opened.fault = false := by
  decide

/-- Each of the two ways the program does not run. -/
theorem witness_SilentFrame :
    (∀ s ∈ [{ opened with blkRun := false }, { opened with fault := true, faultCause := 1 }],
      s.inBlock = true ∧ s.pos.toNat < s.blkF.toNat ∧ (s.blkRun = false ∨ s.fault = true)) := by decide

theorem witness_BlockStartCommits : State.reset.inBlock = false := by decide

/-- Each clause; `POS = BLK_F` is the frame offered one too late. -/
theorem witness_DisabledDriverCallsStop :
    opened.inBlock = true ∧ State.reset.inBlock = false ∧
    ({ opened with pos := 1 } : State).blkF.toNat ≤ ({ opened with pos := 1 } : State).pos.toNat := by decide

theorem witness_ControlInstructionResults :
    State.reset.pos.toNat % (1 : BitVec 16).toNat = 0 ∧
    ({ opened with pos := 7 } : State).pos.toNat % (0xFFFF : BitVec 16).toNat ≠ 0 := by decide

theorem witness_MoveAndLoadResults : (63 : BitVec 16).toNat < Config.nparam := by decide

/-- An empty, a stereo and a mono Buffer. -/
theorem witness_BufferResults :
    State.reset.lenEff = 0 ∧ State.reset.mem.wf = true ∧
    (buffer 2 State.reset).lenEff ≠ 0 ∧ (buffer 2 State.reset).live.bufChans = 2 ∧ (buffer 2 State.reset).mem.wf = true ∧
    (buffer 1 State.reset).lenEff ≠ 0 ∧ (buffer 1 State.reset).live.bufChans = 1 ∧
    (buffer 1 State.reset).mem.wf = true := by decide +kernel

/-- A cursor at the end of each ring. -/
theorem witness_DelayAndCombResults :
    RingUnit.wf Config.dlyLen ⟨[(95999, 1)], [], 95999⟩ = true ∧
    RingUnit.wf Config.combLen ⟨[], [(0, 1)], 4799⟩ = true := by decide +kernel

/-- A unit one invocation before a shift step, and one at it, its cursors at the end of the ring. -/
theorem witness_StftResult :
    ∀ hc ∈ [254, 255], ({ Stft.reset with hw := 2047, orr := 2047, ow := 1792, hc := hc } : Stft).wf = true := by
  decide +kernel

/-- A channel in range, and two places of a work array. -/
theorem witness_StftResult_shift_step :
    StftChan.reset.wf = true ∧ ({ StftChan.reset with hist := [(2047, 1)], env := [(512, 1)] } : StftChan).wf = true ∧
    0 < ((#[(1, 2), (3, 4)] : Array Cplx)).size ∧ 1 < ((#[(1, 2), (3, 4)] : Array Cplx)).size ∧ (511 : Nat) < 512 := by
  decide +kernel

theorem witness_FlagAccrual :
    ∃ t, exec (.outadd 1) opened = .next t ∧ writesFlags (.outadd 1) = false := ⟨_, rfl, rfl⟩

theorem witness_ProgramCounterRule :
    (∃ t, exec .endp opened = .next t) ∧ (∃ t, exec (.skipev 3) opened = .next t) ∧
    (∃ t, exec (.fmul 1 2 3) opened = .next t) := ⟨⟨_, rfl⟩, ⟨_, rfl⟩, ⟨_, rfl⟩⟩

/-- A store to the Buffer, and the two ends of `PMEM`. -/
theorem witness_ProgramCannotReachControlState :
    (∃ t, exec (.bwr 1 0) (buffer 2 opened) = .next t) ∧ Config.inPmem 0x40000 = true ∧ Config.inPmem 0x403FF = true :=
  ⟨⟨_, rfl⟩, by decide, by decide⟩

theorem witness_EachStateHasItsWriter :
    (∃ t, exec (.dly 1 0) opened = .next t) ∧ (∀ a b, Instr.dly 1 0 ≠ .bwr a b) ∧ ∀ a, Instr.dly 1 0 ≠ .outadd a :=
  ⟨⟨_, rfl⟩, by simp, by simp⟩

/-- Two runs that agree on the left lanes and the scalars and differ on the right. -/
theorem witness_LanesAreIndependent :
    isLaneOp (.sadd 1 2 3) = true ∧ opened.freg = (opened.setS 2 ⟨0, 1⟩).freg ∧
    (∀ j, (opened.getS j).l = ((opened.setS 2 ⟨0, 1⟩).getS j).l) ∧
    (∃ t, exec (.sadd 1 2 3) opened = .next t) ∧ ∃ t, exec (.sadd 1 2 3) (opened.setS 2 ⟨0, 1⟩) = .next t :=
  ⟨rfl, rfl, by decide +kernel, ⟨_, rfl⟩, ⟨_, rfl⟩⟩

/-- Two runs that agree on the left channel and differ on the right, at a shift step. -/
theorem witness_StftChannelsAreIndependent :
    let s : State := { opened with stft := { Stft.reset with hc := 255 } }
    let u : State := { (s.setS 0 ⟨0, 0x3F800000⟩) with
      stft := { s.stft with r := { StftChan.reset with hist := [(5, 0x3F800000)] } } }
    s.live = u.live ∧ s.stft.hw = u.stft.hw ∧ s.stft.orr = u.stft.orr ∧ s.stft.ow = u.stft.ow ∧ s.stft.hc = u.stft.hc ∧
    s.stft.l = u.stft.l ∧ (s.getS 0).l = (u.getS 0).l ∧ (∃ t, exec (.stft 1 0) s = .next t) ∧
    ∃ t, exec (.stft 1 0) u = .next t :=
  ⟨rfl, rfl, rfl, rfl, rfl, rfl, by decide +kernel, ⟨_, rfl⟩, ⟨_, rfl⟩⟩

/-- A running frame program, its next word in place, meets the invariant and steps. -/
theorem witness_StepKeepsInvariant : (running 0x20840000).Inv ∧ ∃ t, step (running 0x20840000) = .next t := by
  refine ⟨?_, ?_⟩
  · constructor <;> decide +kernel
  · cases h : step (running 0x20840000) with
    | next t => exact ⟨t, rfl⟩
    | fault f =>
      have := (by decide +kernel : afterStep (running 0x20840000) (fun _ => true) = true)
      simp [afterStep, h] at this
    | refused r =>
      have := (by decide +kernel : afterStep (running 0x20840000) (fun _ => true) = true)
      simp [afterStep, h] at this

/-- Each of the three ways LIVE changes. -/
theorem witness_LiveChangesOnlyAtCommit :
    let s : State := { State.reset with live := { Params.reset with dlyMix := 0x3F800000 } }
    ∀ i ∈ [Input.blockStart 1, .powerOn, .hostWrite 8 2],
      (afterStep (offer s i) fun t => t.live ≠ (offer s i).live) = true := by decide +kernel

/-- A running program, and a host write refused while a block runs. -/
theorem witness_MemoryIsFixedWhileRunning :
    let s := offer opened (.hostWrite 0x40000 7)
    (s.ctrlRun = true ∨ s.blkRun = true) ∧ s.inFrame = false ∧ (afterStep s fun _ => true) = true ∧
    (∀ rest, s.inputs ≠ .powerOn :: rest) ∧ ∀ w rest, s.inputs = .hostWrite 8 w :: rest → w.getLsbD 1 = false := by
  refine ⟨by decide, by decide, by decide +kernel, by simp [offer], ?_⟩
  intro w rest h
  simp [offer] at h

/-- A frame offered while a fault is pending. -/
theorem witness_FaultLatchHolds :
    let s := offer { opened with fault := true, faultCause := 2 } (.frame ⟨1, 2⟩)
    s.inFrame = false ∧ s.fault = true ∧ (afterStep s fun _ => true) = true ∧
    (∀ rest, s.inputs ≠ .powerOn :: rest) ∧ ∀ a w rest, s.inputs ≠ .hostWrite a w :: rest :=
  ⟨by decide, by decide, by decide +kernel, by simp [offer], by simp [offer]⟩

/-- At the overflow threshold and one unit below it; at a tie. -/
theorem witness_RoundingIsToNearestEven :
    1 * (2 ^ 128 - 2 ^ 103) ≤ 2 ^ 128 - 2 ^ 103 ∧ 2 ^ 128 - 2 ^ 103 - 1 < 1 * (2 ^ 128 - 2 ^ 103) ∧
    (roundPos false (2 ^ 128 - 2 ^ 103 - 1) 1).val = maxF ∧
    (roundPos false (2 ^ 24 + 1) (2 ^ 24)).val = oneF := by decide +kernel

/-- Finite operands: the ends of the range, a sum and a difference that are not zero, a subnormal square. -/
theorem witness_RoundingIsToNearestEven_operations :
    isFinite maxF = true ∧ isFinite 0x80000001 = true ∧ isZero 0x80000001 = false ∧
    fixOf maxF + fixOf 0x80000001 ≠ 0 ∧ fixOf maxF - fixOf 0x80000001 ≠ 0 ∧ 0 < fixOf maxF ∧
    isFinite 0x00000001 = true ∧ 0 < fixOf 0x00000001 ∧ fsqrt 0x40800000 = ⟨twoF, flagNone⟩ := by decide +kernel

/-- The largest tiny quotient's neighbour, which is not tiny, and a tiny one (T-FP-13). -/
theorem witness_InexactAndUnderflowFlags :
    (2 ^ 25 - 1 : Nat) < 2 ^ 151 * (2 ^ 128 - 2 ^ 103) ∧
    ¬ ((2 ^ 25 - 1) * 2 ^ 151 < 2 ^ 151 * (2 ^ 25 - 1)) ∧ (2 ^ 24 - 1) * 2 ^ 151 < 2 ^ 150 * (2 ^ 25 - 1) := by
  decide +kernel

/-- Each kind of operand pair: opposite values, the two zeros, a zero and a value, two infinities, an infinity and a finite
value, a quiet and a signalling NaN. -/
theorem witness_FloatSpecialCases :
    fixOf oneF + fixOf 0xBF800000 = 0 ∧ fixOf 0x80000000 + fixOf 0 = 0 ∧ fixOf 0x80000000 - fixOf 0 = 0 ∧
    isFinite oneF = true ∧ isFinite 0x80000000 = true ∧ isZero 0x80000000 = true ∧ isZero 0x00000001 = false ∧
    isInf posInf = true ∧ isInf 0xFF800000 = true ∧ signBit posInf ≠ signBit 0xFF800000 ∧
    flt 0x80000001 0 = true ∧ flt 0xFF800000 0 = true ∧
    isNaN 0x7FC00000 = true ∧ isSNaN 0x7FC00000 = false ∧ isSNaN 0x7FA00000 = true := by decide +kernel

theorem witness_NaNResultsAreCanonical :
    isNaN (fadd posInf 0xFF800000).val = true ∧ isNaN (fsub posInf posInf).val = true ∧
    isNaN (fmul posInf 0).val = true ∧ isNaN (fdiv 0 0).val = true ∧ isNaN (fsqrt 0xBF800000).val = true ∧
    isNaN (wrapF posInf 0 oneF).val = true := by decide +kernel

/-- An operand that is not finite, an empty range, the lower end of the range, the last value below the upper end, and the
upper end. -/
theorem witness_WrapKeepsValuesInRange :
    isFinite posInf = false ∧ isFinite oneF = true ∧ flt oneF oneF = false ∧ flt negOneF oneF = true ∧
    flt negOneF negOneF = false ∧ isFinite 0x3F7FFFFF = true ∧ flt 0x3F7FFFFF negOneF = false ∧
    flt 0x3F7FFFFF oneF = true ∧ fixOf oneF = fixOf 0x3F800000 := by decide +kernel

/-- The three modes; a NaN, an infinite and a finite product of time and rate. -/
theorem witness_DerivedRegisters :
    (∀ m ∈ [(0 : BitVec 2), 1, 2], ({ Params.reset with bqMode := m } : Params).inRange = true) ∧
    isNaN (fmul 0 posInf).val = true ∧ (fmul maxF oneF).val ≠ 0x7F800000 ∧ (fmul maxF twoF).val = 0x7F800000 ∧
    isFinite (fmul Params.reset.dlyTime Params.reset.rate).val = true := by decide +kernel

theorem witness_FunctionUnitSpecialValues :
    isZero 0x80000000 = true ∧ isNaN 0xBF800000 = false ∧ isZero 0xBF800000 = false ∧ isFinite 0xBF800000 = true ∧
    isInf 0xFF800000 = true ∧ isNaN 0xFFC00001 = true := by decide

/-- Each of the two zero settings, the zero of either sign. -/
theorem witness_ZeroControlKeepsEveryBin :
    Params.reset.inRange = true ∧ isZero Params.reset.stftCtrl = true ∧
    ({ Params.reset with stftCtrl := oneF, stftRange := 0x80000000 } : Params).inRange = true ∧
    isZero 0x80000000 = true ∧ 512 < Config.numBins := by decide +kernel

theorem witness_RingCursorOperations :
    ringAdv 95999 96000 = 0 ∧ ringAt 0 (-1) 96000 = 95999 ∧ ringAt 2047 1024 2048 = 1023 ∧ ringAt 0 (-1) 1 = 0 := by
  decide +kernel

/-- Both channel counts, a Buffer that has frames, and each kind of position. -/
theorem witness_BufferIndexSaturates :
    (buffer 1 State.reset).live.bufChans = 1 ∧ (buffer 2 State.reset).live.bufChans = 2 ∧
    1 ≤ (buffer 2 State.reset).lenEff ∧ isNaN 0x7FC00000 = true ∧ isFinite 0xC0A00000 = true ∧
    1 < (buffer 2 State.reset).live.bufChans.toNat := by decide +kernel

theorem witness_BufferReadsBackWhatWasWritten :
    ∀ c ∈ [(1 : BitVec 2), 2], (buffer c opened).mem.wf = true ∧ (buffer c opened).lenEff ≠ 0 ∧
      after (.bwr 1 0) (buffer c opened) (fun t => after (.brd 2 0) t fun _ => true) = true := by decide +kernel

/-- The ends of each window of the host map, the addresses just past them, and the two ways a write of a mapped location
errs. -/
theorem witness_BusErrors :
    (∀ a ∈ [0x000, 0x088, 0x20000, 0x200FC, 0x40000, 0x403FC, 0x80000, 0x81FFC, 0x100000, 0x1FFFFC], hostMapped a) ∧
    (∀ a ∈ [0x002, 0x04C, 0x08C, 0x20100, 0x40400, 0x82000, 0x200000, 0xFFFFFFFC], ¬ hostMapped a) ∧
    opened.ctrlRun = true ∧ 0x030 ∈ stopOffsets ∧ (4 : Word).getLsbD 1 = false ∧ (4 : Word).getLsbD 2 = true ∧
    0x004 ∈ readOnlyOffsets := by
  simp only [hostMapped]
  decide

theorem witness_StoppedHostWritesStore :
    State.reset.ctrlRun = false ∧ State.reset.blkRun = false ∧ State.reset.mem.wf = true ∧
    (∀ a ∈ [0x40000, 0x403FC, 0x100000, 0x1FFFFC], a % 4 = 0 ∧
      ((0x40000 ≤ a ∧ a < 0x40400) ∨ (0x100000 ≤ a ∧ a < 0x200000))) := by decide +kernel

theorem witness_ShadowedRegisterWrites :
    State.reset.ctrlRun = false ∧ State.reset.blkRun = false ∧ cellsWf 64 State.reset.shadow.p = true := by decide

/-- A value below, above, inside the range, at each end, and NaN (DLY_MIX's range). -/
theorem witness_SetterClampBehaviour :
    isNaN 0x7FC00000 = true ∧ flt negOneF 0 = true ∧ flt oneF twoF = true ∧ flt twoF 0 = false ∧
    flt halfF 0 = false ∧ flt oneF halfF = false ∧ flt oneF 0 = false ∧ inRangeF 0 0 oneF = true ∧
    inRangeF oneF 0 oneF = true := by decide +kernel

theorem witness_ControlWrites :
    (1 : Word).getLsbD 1 = false ∧ (1 : Word).getLsbD 2 = false ∧ (5 : Word).getLsbD 1 = false ∧
    (5 : Word).getLsbD 2 = true ∧ State.reset.ctrlRun = false ∧ State.reset.blkRun = false := by decide

theorem witness_SoftReset : (0xFFFFFFFF : Word).getLsbD 1 = true ∧ (2 : Word).getLsbD 1 = true := by decide

theorem witness_InterruptLine :
    let s : State := { opened with inFrame := true, pc := 256, irqEn := 1 }
    s.inFrame = true ∧ Config.progLen ≤ s.pc.toNat ∧ s.irqEn.getLsbD 0 = true ∧ (afterStep s fun _ => true) = true := by
  decide +kernel

end Sys2Proof.Tests
end

-- ==== Proofs of the state family (10_state.md): O34, O54, O57, O29, O56 ====
section
/-! The parameter registers: the ranges of `Params.inRange` as named facts, and that every setter clamp lands in its
range (20_memory.md R116). -/

namespace Sys2Proof.Machine

/-! ## Setter ranges -/

/-- `Params.inRange`, register by register. -/
structure Params.Ranged (p : Params) : Prop where
  rate : inRangeF p.rate Config.params.rateMin Config.params.rateMax = true
  bufLen : p.bufLen.toNat ≤ Config.bufCap
  bufChans : p.bufChans = 1 ∨ p.bufChans = 2
  bufRate : inRangeF p.bufRate Config.params.rateMin Config.params.rateMax = true
  dlyTime : inRangeF p.dlyTime zeroW maxF = true
  dlyMix : inRangeF p.dlyMix zeroW oneF = true
  combTime : inRangeF p.combTime zeroW maxF = true
  bqMode : p.bqMode.toNat ≤ 2
  bqFreq : inRangeF p.bqFreq Config.params.bqFmin maxF = true
  bqQ : inRangeF p.bqQ Config.params.bqQmin Config.params.bqQmax = true
  stftCtrl : inRangeF p.stftCtrl negOneF oneF = true
  stftRange : inRangeF p.stftRange zeroW Config.params.rangeMax = true
  words : cellsWf Config.nparam p.p = true

theorem Params.inRange_iff {p : Params} : p.inRange = true ↔ p.Ranged := by
  simp only [Params.inRange, Bool.and_eq_true, Bool.or_eq_true, decide_eq_true_eq, beq_iff_eq, and_assoc]
  constructor
  · rintro ⟨h1, h2, h3, h4, h5, h6, h7, h8, h9, h10, h11, h12, h13⟩
    exact ⟨h1, h2, h3, h4, h5, h6, h7, h8, h9, h10, h11, h12, h13⟩
  · rintro ⟨h1, h2, h3, h4, h5, h6, h7, h8, h9, h10, h11, h12, h13⟩
    exact ⟨h1, h2, h3, h4, h5, h6, h7, h8, h9, h10, h11, h12, h13⟩

/-! ## Setter clamps -/

theorem inRangeF_iff {v lo hi : Word} :
    inRangeF v lo hi = true ↔ isNaN v = false ∧ flt v lo = false ∧ flt hi v = false := by
  simp [inRangeF, and_assoc]

/-- A clamp lands in its range when the bounds and the default do. -/
theorem inRangeF_clampF {lo hi dflt : Word} (hlo : inRangeF lo lo hi = true) (hhi : inRangeF hi lo hi = true)
    (hd : inRangeF dflt lo hi = true) (v : Word) : inRangeF (clampF v lo hi dflt) lo hi = true := by
  unfold clampF
  split_ifs with hn hl hh
  · exact hd
  · exact hlo
  · exact hhi
  · exact inRangeF_iff.mpr ⟨by simpa using hn, by simpa using hl, by simpa using hh⟩

theorem clampBufLen_eq (v : Word) : clampBufLen v = BitVec.ofNat 32 (min v.toNat 262144) := by
  unfold clampBufLen clampU
  congr 1
  exact congrArg (min · 262144) (Nat.max_zero v.toNat)

theorem clampBufChans_eq (v : Word) : clampBufChans v = if v.toNat < 2 then 1 else 2 := by
  have clamped : clampU v 1 2 = BitVec.ofNat 32 (min (max v.toNat 1) 2) := rfl
  unfold clampBufChans
  rw [clamped]
  split_ifs with h
  · rw [show min (max v.toNat 1) 2 = 1 by omega]; rfl
  · rw [show min (max v.toNat 1) 2 = 2 by omega]; rfl

theorem clampBqMode_eq (v : Word) : clampBqMode v = BitVec.ofNat 2 (min v.toNat 2) := by
  have clamped : clampU v 0 2 = BitVec.ofNat 32 (min (max v.toNat 0) 2) := rfl
  unfold clampBqMode
  rw [clamped, Nat.max_zero]
  apply BitVec.eq_of_toNat_eq
  simp only [BitVec.toNat_setWidth, BitVec.toNat_ofNat]
  omega

theorem clampRate_inRange (v : Word) :
    inRangeF (clampRate v) Config.params.rateMin Config.params.rateMax = true :=
  inRangeF_clampF (by decide) (by decide) (by decide) v

theorem clampBufLen_le (v : Word) : (clampBufLen v).toNat ≤ Config.bufCap := by
  rw [clampBufLen_eq, bufCap_eq, BitVec.toNat_ofNat]
  omega

theorem clampBufChans_cases (v : Word) : clampBufChans v = 1 ∨ clampBufChans v = 2 := by
  rw [clampBufChans_eq]
  split_ifs
  · exact .inl rfl
  · exact .inr rfl

theorem clampDlyTime_inRange (v : Word) : inRangeF (clampDlyTime v) zeroW maxF = true :=
  inRangeF_clampF (by decide) (by decide) (by decide) v

theorem clampDlyMix_inRange (v : Word) : inRangeF (clampDlyMix v) zeroW oneF = true :=
  inRangeF_clampF (by decide) (by decide) (by decide) v

theorem clampCombTime_inRange (v : Word) : inRangeF (clampCombTime v) zeroW maxF = true :=
  inRangeF_clampF (by decide) (by decide) (by decide) v

theorem clampBqMode_le (v : Word) : (clampBqMode v).toNat ≤ 2 := by
  rw [clampBqMode_eq, BitVec.toNat_ofNat]
  omega

theorem clampBqFreq_inRange (v : Word) : inRangeF (clampBqFreq v) Config.params.bqFmin maxF = true :=
  inRangeF_clampF (by decide) (by decide) (by decide) v

theorem clampBqQ_inRange (v : Word) : inRangeF (clampBqQ v) Config.params.bqQmin Config.params.bqQmax = true :=
  inRangeF_clampF (by decide) (by decide) (by decide) v

theorem clampStftCtrl_inRange (v : Word) : inRangeF (clampStftCtrl v) negOneF oneF = true :=
  inRangeF_clampF (by decide) (by decide) (by decide) v

theorem clampStftRange_inRange (v : Word) : inRangeF (clampStftRange v) zeroW Config.params.rangeMax = true :=
  inRangeF_clampF (by decide) (by decide) (by decide) v

theorem Params.reset_inRange : Params.reset.inRange = true := by decide

end Sys2Proof.Machine
end

section
/-! Where host addresses lead, and what a step that takes a host write answers (20_memory.md R101, R102). -/

namespace Sys2Proof.Machine

open Sys2Proof.Claims

/-- The `i`-th word of the parameter window is `SHADOW.P[i]`. -/
theorem hostLoc_paramWord {i : Nat} (hi : i < 64) :
    hostLoc (BitVec.ofNat 32 (0x20000 + 4 * i)) = some (.param i) := by
  have hn : (BitVec.ofNat 32 (0x20000 + 4 * i)).toNat = 0x20000 + 4 * i := by
    rw [BitVec.toNat_ofNat]; omega
  unfold hostLoc
  simp only [hn, nparam_eq, Config.paramBase]
  rw [if_neg (by omega), if_neg (by omega), if_pos (by omega)]
  congr 2
  omega

/-- The parameter window leads to no word past `P`. -/
theorem lt_of_hostLoc_param {a : Word} {i : Nat} (h : hostLoc a = some (.param i)) : i < Config.nparam := by
  unfold hostLoc at h
  dsimp only at h
  split_ifs at h with h1 h2 h3
  · obtain ⟨r, -, hr⟩ := Option.map_eq_some_iff.mp h
    cases hr
  · simp only [Option.some.injEq, HostLoc.param.injEq] at h
    omega
  all_goals cases h

/-- A step that takes an offer is the offer's effect on the state outside a frame. -/
theorem step_offer (s : State) (i : Input) : step (offer s i) = (idle s).accept i := rfl

/-- A host write that its location accepts is performed and answered. -/
theorem step_acceptedWrite {s t : State} {a w : Word} {loc : HostLoc} (hl : hostLoc a = some loc)
    (ht : (idle s).writeLoc loc w = some t) :
    step (offer s (.hostWrite a w)) = .next { t with emitted := .writeResp true :: t.emitted } := by
  rw [step_offer]
  simp only [State.accept, State.hostWrite, hl, Option.bind_some, ht]
  rfl

/-- While stopped a stopped-only write is performed. -/
theorem State.ifStopped_of_stopped {s : State} (hr : s.ctrlRun = false) (hb : s.blkRun = false) (t : State) :
    s.ifStopped t = some t := by
  simp [State.ifStopped, State.stopped, hr, hb]

/-- A stopped-only write that is performed leaves the written state. -/
theorem State.eq_of_ifStopped {s t u : State} (h : s.ifStopped t = some u) : u = t := by
  unfold State.ifStopped at h
  split_ifs at h
  exact (Option.some.inj h).symm

theorem State.writeCtrl_run {w : Word} (h1 : w.getLsbD 1 = false) (h2 : w.getLsbD 2 = false) (s : State) :
    s.writeCtrl w = some { s with ctrlRun := w.getLsbD 0 } := by
  unfold State.writeCtrl
  rw [h1, h2]
  rfl

theorem State.writeCtrl_bufInit {w : Word} (h1 : w.getLsbD 1 = false) (h2 : w.getLsbD 2 = true) {s : State}
    (hr : s.ctrlRun = false) (hb : s.blkRun = false) :
    s.writeCtrl w = some { s with mem := s.mem.bufInit, ctrlRun := w.getLsbD 0 } := by
  unfold State.writeCtrl
  rw [h1, h2]
  exact State.ifStopped_of_stopped hr hb _

/-- A performed write of CTRL is a soft reset, a BUF_INIT with RUN, or RUN alone. -/
theorem State.writeCtrl_cases {s t : State} {w : Word} (h : s.writeCtrl w = some t) :
    t = s.softReset ∨ t = { s with mem := s.mem.bufInit, ctrlRun := w.getLsbD 0 } ∨
    t = { s with ctrlRun := w.getLsbD 0 } := by
  unfold State.writeCtrl at h
  split_ifs at h
  · exact .inl (Option.some.inj h).symm
  · exact .inr (.inl (State.eq_of_ifStopped h))
  · exact .inr (.inr (Option.some.inj h).symm)

/-! ## BUF_INIT -/

/-- BUF_INIT keeps every byte of `PMEM`. -/
theorem Memory.byte_bufInit_pmem {m : Memory} {a : Nat} (h : Config.inPmem a = true) :
    m.bufInit.byte a = m.byte a := by
  have hb : Config.inBuf a = false := by
    by_contra hb
    exact absurd (inPmem_of_inBuf (by simpa using hb)) (by simp [h])
  have hl : lookupKey a (m.cells.filter fun e => !Config.inBuf e.1) = lookupKey a m.cells :=
    lookupKey_filter_of_pos (fun k => !Config.inBuf k) (by simp [hb]) m.cells
  cases hc : lookupKey a m.cells <;> simp [Memory.byte, Memory.read?, Memory.bufInit, hl, hc, unlisted, h]

/-- After BUF_INIT every word of `BUFMEM` is zero. -/
theorem Memory.word_bufInit {m : Memory} {i : Nat} (hi : i < 262144) : m.bufInit.word (0x100000 + 4 * i) = 0 := by
  have zeroByte : ∀ j, j < 4 → m.bufInit.byte (0x100000 + 4 * i + j) = 0 := fun j hj =>
    Memory.byte_bufInit (inBuf_iff.mpr (by omega))
  have first : m.bufInit.byte (0x100000 + 4 * i) = 0 := zeroByte 0 (by decide)
  unfold Memory.word
  rw [first, zeroByte 1 (by decide), zeroByte 2 (by decide), zeroByte 3 (by decide)]
  rfl

/-! ## Host writes of the control registers -/

/-- Settles O57, from what a write of CTRL does with and without BUF_INIT. -/
theorem controlWrites : Obligations.ControlWrites := by
  unfold Obligations.ControlWrites
  intro s w h1
  refine ⟨fun h2 => ?_, fun h2 hr hb => ?_⟩
  · exact step_acceptedWrite (loc := .reg .ctrl) rfl (State.writeCtrl_run h1 h2 (idle s))
  · exact ⟨s.mem.bufInit,
      step_acceptedWrite (loc := .reg .ctrl) rfl (State.writeCtrl_bufInit (s := idle s) h1 h2 hr hb),
      fun i hi => Memory.word_bufInit hi, fun x hx => Memory.byte_bufInit_pmem hx⟩

/-- A flag stays after a write of FFLAGS exactly if it was set and is not written 1 (10_state.md R57). -/
theorem State.clearFlags_getLsbD (s : State) (w : Word) {k : Nat} (hk : k < 5) :
    (s.clearFlags w).fflags.getLsbD k = (s.fflags.getLsbD k && !w.getLsbD k) := by
  simp [State.clearFlags, hk]

theorem extractLsb'_low_two (w : Word) : w.extractLsb' 0 2 = BitVec.ofNat 2 w.toNat :=
  BitVec.eq_of_toNat_eq (by simp [BitVec.extractLsb'_toNat])

/-- Settles O56: each write is its register's setter, and a flag clears bit by bit. -/
theorem statusAndFlagWrites : Obligations.StatusAndFlagWrites := by
  unfold Obligations.StatusAndFlagWrites
  intro s w
  refine ⟨?_, ⟨(s.clearFlags w).fflags, ?_, fun k hk => s.clearFlags_getLsbD w hk⟩, ?_⟩
  · exact step_acceptedWrite (loc := .reg .status) rfl rfl
  · exact step_acceptedWrite (loc := .reg .fflags) rfl rfl
  · rw [← extractLsb'_low_two]
    exact step_acceptedWrite (loc := .reg .irqEn) rfl rfl

/-- A write that stores the SHADOW copies `p` changes nothing else. -/
theorem step_shadowWrite {s : State} {a w : Word} {loc : HostLoc} {p : Params} (hl : hostLoc a = some loc)
    (hw : (idle s).writeLoc loc w = some ((idle s).setShadow p)) :
    step (offer s (.hostWrite a w)) = .next { idle s with shadow := p, emitted := .writeResp true :: s.emitted } :=
  step_acceptedWrite hl hw

/-- Settles O54: each address leads to its register, whose setter stores the clamped word in SHADOW. -/
theorem shadowedRegisterWrites : Obligations.ShadowedRegisterWrites := by
  unfold Obligations.ShadowedRegisterWrites
  intro s w put
  refine ⟨step_shadowWrite (loc := .reg .dlyTime) rfl rfl, step_shadowWrite (loc := .reg .dlyMix) rfl rfl,
    step_shadowWrite (loc := .reg .combTime) rfl rfl, ?bqMode, step_shadowWrite (loc := .reg .bqFreq) rfl rfl,
    step_shadowWrite (loc := .reg .bqQ) rfl rfl, step_shadowWrite (loc := .reg .stftCtrl) rfl rfl,
    step_shadowWrite (loc := .reg .stftRange) rfl rfl, fun hr hb => ?stopped, fun i hi hp => ?param⟩
  case bqMode =>
    rw [← clampBqMode_eq]
    exact step_shadowWrite (loc := .reg .bqMode) rfl rfl
  case stopped =>
    have performed := State.ifStopped_of_stopped (s := idle s) hr hb
    rw [← clampBufLen_eq, ← clampBufChans_eq]
    exact ⟨step_shadowWrite (loc := .reg .rate) rfl (performed _),
      step_shadowWrite (loc := .reg .bufLen) rfl (performed _),
      step_shadowWrite (loc := .reg .bufChans) rfl (performed _),
      step_shadowWrite (loc := .reg .bufRate) rfl (performed _)⟩
  case param =>
    refine ⟨cellSet s.shadow.p i w, step_shadowWrite (hostLoc_paramWord hi) rfl, fun j => ?_⟩
    split_ifs with hj
    · rw [hj, cellGet_cellSet_same hp]
    · rw [cellGet_cellSet_ne hj]

end Sys2Proof.Machine
end

section
/-! What an instruction can do to the state, said once, and how it moves `pc` (10_state.md R55). -/

namespace Sys2Proof.Machine

/-- Completing an instruction: from `s` it leaves one of these states. Each constructor names what changes; every other
field is kept. -/
inductive State.Completes (s : State) : State → Prop where
  /-- END -/
  | frameEnd : s.Completes (s.finishFrame s.oacc)
  /-- the register files, `OACC`, the flags and `pc` -/
  | registers (sreg : Vector Sample 8) (freg : Vector Word 8) (oacc : Sample) (fflags : FlagSet) {pc : BitVec 17}
      (hpc : pc = s.pc + 1 ∨ pc = s.pc + 2) :
      s.Completes { s with sreg := sreg, freg := freg, oacc := oacc, fflags := fflags, pc := pc }
  /-- BWR -/
  | bufWrite (pos : Word) (v : Sample) : s.Completes (s.bufWrite pos v).advance
  /-- DLY -/
  | delay (m : Word) (dist : Nat) (x : Sample) (sreg : Vector Sample 8) :
      s.Completes { s with dly := (delayStep m dist x s.dly).2, sreg := sreg, pc := s.pc + 1 }
  /-- COMB -/
  | comb (dist : Nat) (x : Sample) (sreg : Vector Sample 8) :
      s.Completes { s with comb := (combStep dist x s.comb).2, sreg := sreg, pc := s.pc + 1 }
  /-- BIQ -/
  | biquad (bqL bqR : BqHist) (sreg : Vector Sample 8) :
      s.Completes { s with bqL := bqL, bqR := bqR, sreg := sreg, pc := s.pc + 1 }
  /-- STFT -/
  | stft (x : Sample) (hopCnt : BitVec 32) (sreg : Vector Sample 8) :
      s.Completes { s with stft := (stftInvoke s.live x s.stft).2, hopCnt := hopCnt, sreg := sreg, pc := s.pc + 1 }

/-- Every instruction completes in one of those ways. -/
theorem exec_completes {i : Instr} {s t : State} (h : exec i s = .next t) : s.Completes t := by
  cases i
  case endp => cases h; exact .frameEnd
  case skipev n =>
    cases h
    refine .registers s.sreg s.freg s.oacc s.fflags ?_
    split_ifs
    · exact .inl rfl
    · exact .inr rfl
  case bwr a b => cases h; exact .bufWrite _ _
  case dly d a => cases h; exact .delay s.live.dlyMix s.dlyFrames.toNat (s.getS a) _
  case comb d a => cases h; exact .comb s.combFrames.toNat (s.getS a) _
  case biq d a => cases h; exact .biquad _ _ _
  case stft d a => cases h; exact .stft (s.getS a) _ _
  all_goals cases h; exact .registers _ _ _ _ (.inl rfl)

@[simp] theorem State.bufWrite_pc (s : State) (pos : Word) (v : Sample) : (s.bufWrite pos v).pc = s.pc := by
  rw [State.bufWrite_eq]

/-- An instruction that is neither END nor SKIPEV goes to the next word. -/
theorem exec_pc_succ {i : Instr} {s t : State} (h : exec i s = .next t) (hend : i ≠ .endp)
    (hskip : ∀ n, i ≠ .skipev n) : t.pc = s.pc + 1 := by
  cases i
  case endp => exact absurd rfl hend
  case skipev n => exact absurd rfl (hskip n)
  case bwr a b =>
    cases h
    exact congrArg (· + 1) (s.bufWrite_pc _ _)
  all_goals cases h; rfl

theorem execEnd_pc {s t : State} (h : exec .endp s = .next t) : t.pc = s.pc := by
  cases h
  exact s.finishFrame_pc _

theorem execSkipev_pc {n : BitVec 16} {s t : State} (h : exec (.skipev n) s = .next t) :
    t.pc = s.pc + 1 ∨ t.pc = s.pc + 2 := by
  cases h
  dsimp only
  split_ifs
  · exact .inl rfl
  · exact .inr rfl

/-- Settles O29, from the rule for END, the rule for SKIPEV and the rule for all others. -/
theorem programCounterRule : Obligations.ProgramCounterRule := by
  unfold Obligations.ProgramCounterRule
  intro i s t h
  refine ⟨?_, ?_, exec_pc_succ h⟩
  · rintro rfl
    exact execEnd_pc h
  · rintro ⟨n, rfl⟩
    exact execSkipev_pc h

end Sys2Proof.Machine
end

section
/-! The units and the derived registers stay in range: rings and their cursors, the STFT unit, the tap distances. -/

namespace Sys2Proof.Machine

/-! ## Delay and Comb -/

theorem RingUnit.wf_iff {len : Nat} {u : RingUnit} :
    u.wf len = true ↔ cellsWf len u.l = true ∧ cellsWf len u.r = true ∧ u.w < len := by
  simp [RingUnit.wf, and_assoc]

/-- A ring unit that writes both channels at its cursor and advances it stays in range (41_buffer.md R270). -/
theorem RingUnit.wf_push {len : Nat} {u : RingUnit} (h : u.wf len = true) (x : Sample) :
    RingUnit.wf len ⟨cellSet u.l u.w x.l, cellSet u.r u.w x.r, ringAdv u.w len⟩ = true := by
  obtain ⟨hl, hr, hw⟩ := RingUnit.wf_iff.mp h
  exact RingUnit.wf_iff.mpr ⟨cellsWf_cellSet hl hw _, cellsWf_cellSet hr hw _, ringAdv_lt (by omega)⟩

theorem delayStep_wf {u : RingUnit} (h : u.wf Config.dlyLen = true) (m : Word) (dist : Nat) (x : Sample) :
    (delayStep m dist x u).2.wf Config.dlyLen = true := RingUnit.wf_push h (delayStep m dist x u).1

theorem combStep_wf {u : RingUnit} (h : u.wf Config.combLen = true) (dist : Nat) (x : Sample) :
    (combStep dist x u).2.wf Config.combLen = true := RingUnit.wf_push h x

/-! ## STFT -/

theorem StftChan.wf_setHist {ch : StftChan} (h : ch.wf = true) {i : Nat} (hi : i < Config.ringLen) (v : Word) :
    ({ ch with hist := cellSet ch.hist i v } : StftChan).wf = true := by
  rw [StftChan.wf_iff] at h ⊢
  exact ⟨cellsWf_cellSet h.1 hi v, h.2⟩

theorem StftChan.wf_setOut {ch : StftChan} (h : ch.wf = true) {i : Nat} (hi : i < Config.ringLen) (v : Word) :
    ({ ch with out := cellSet ch.out i v } : StftChan).wf = true := by
  rw [StftChan.wf_iff] at h ⊢
  obtain ⟨hhist, hout, rest⟩ := h
  exact ⟨hhist, cellsWf_cellSet hout hi v, rest⟩

theorem ringLen_pos : 0 < Config.ringLen := by decide

/-- The append keeps all but the count of invocations in range, whatever count `n` then stands. -/
theorem stftAppend_wf {u : Stft} (h : u.wf = true) (x : Sample) {n : Nat} (hn : n < Config.hop) :
    ({ stftAppend x u with hc := n } : Stft).wf = true := by
  obtain ⟨hl, hr, hhw, horr, how, -⟩ := Stft.wf_iff.mp h
  exact Stft.wf_iff.mpr
    ⟨StftChan.wf_setHist hl hhw _, StftChan.wf_setHist hr hhw _, ringAdv_lt ringLen_pos, horr, how, hn⟩

theorem shiftStep_wf {u : Stft} (h : u.wf = true) (f : Word) : (shiftStep f u).wf = true := by
  obtain ⟨hl, hr, hhw, horr, -, hhc⟩ := Stft.wf_iff.mp h
  have how : ringAt u.ow Config.hop Config.ringLen < Config.ringLen := ringAt_lt ringLen_pos
  unfold shiftStep
  exact Stft.wf_iff.mpr ⟨shiftChan_wf _ _ _ hl, shiftChan_wf _ _ _ hr, hhw, horr, how, hhc⟩

theorem stftEmit_wf {u : Stft} (h : u.wf = true) : (stftEmit u).2.wf = true := by
  obtain ⟨hl, hr, hhw, horr, how, hhc⟩ := Stft.wf_iff.mp h
  exact Stft.wf_iff.mpr
    ⟨StftChan.wf_setOut hl horr _, StftChan.wf_setOut hr horr _, hhw, ringAdv_lt ringLen_pos, how, hhc⟩

/-- An invocation keeps the unit in range: a count that reaches `H` is set back to 0 by the shift step (43_stft.md
R345). -/
theorem stftInvoke_wf {u : Stft} (h : u.wf = true) (p : Params) (x : Sample) : (stftInvoke p x u).2.wf = true := by
  obtain ⟨-, -, -, -, -, counted⟩ := Stft.wf_iff.mp h
  unfold stftInvoke
  apply stftEmit_wf
  split_ifs with due
  · exact shiftStep_wf (stftAppend_wf h x (by decide)) _
  · have count : (stftAppend x u).hc = u.hc + 1 := rfl
    have notDue : u.hc + 1 ≠ Config.hop := by simpa [shiftDue, count] using due
    exact stftAppend_wf h x (n := u.hc + 1) (by omega)

/-! ## Tap distances -/

/-- A tap distance lies in `[1, len - 1]` (44_effects.md R420, R430). -/
theorem tapFrames_range (seconds rate : Word) {len : Nat} (h2 : 2 ≤ len) (hlen : len ≤ 2 ^ 32) :
    1 ≤ (tapFrames seconds rate len).toNat ∧ (tapFrames seconds rate len).toNat ≤ len - 1 := by
  unfold tapFrames
  dsimp only
  split_ifs
  · exact ⟨Nat.le_refl 1, show 1 ≤ len - 1 by omega⟩
  · rw [BitVec.toNat_ofNat]
    omega
  · rw [BitVec.toNat_ofNat]
    omega

theorem dlyFramesOf_range (p : Params) :
    1 ≤ (dlyFramesOf p).toNat ∧ (dlyFramesOf p).toNat ≤ Config.dlyLen - 1 :=
  tapFrames_range _ _ (by decide) (by decide)

theorem combFramesOf_range (p : Params) :
    1 ≤ (combFramesOf p).toNat ∧ (combFramesOf p).toNat ≤ Config.combLen - 1 :=
  tapFrames_range _ _ (by decide) (by decide)

end Sys2Proof.Machine
end

section
/-! Every operation of the block keeps the invariant of Safety.lean; a step is one of them. -/

namespace Sys2Proof.Machine

variable {s : State}

/-! ## Frames -/

/-- The end of a frame: a block that stays open has a frame left, since `POS` was below `BLK_F` and is not equal to it
now. -/
theorem State.Inv.finishFrame (hs : s.Inv) (y : Sample) : (s.finishFrame y).Inv := by
  rw [State.finishFrame_eq]
  refine { hs with blockOpen := ?_, runInBlock := ?_, frameRuns := by simp }
  · dsimp only
    split_ifs with last
    · simp
    · intro hopen
      have := hs.blockOpen hopen
      bv_omega
  · dsimp only
    split_ifs
    · simp
    · exact hs.runInBlock

/-- Taking a fault with a cause code of 60_exceptions.md R500. -/
theorem State.Inv.raiseFault (hs : s.Inv) {cause : BitVec 8} (hle : cause.toNat ≤ 2) (hne : cause ≠ 0)
    (fpc : BitVec 17) (fw : Word) : (s.raiseFault cause fpc fw).Inv := by
  have ended := hs.finishFrame Sample.zero
  rw [State.finishFrame_eq] at ended
  rw [State.raiseFault_eq]
  exact { ended with frameRuns := by simp, causeCode := ⟨hle, fun _ => hne⟩ }

/-- The opening of a frame: a program starts only in a running block with no fault pending. -/
theorem State.Inv.frameOpen (hs : s.Inv) (x : Sample) : (s.frameOpen x).Inv := by
  unfold State.frameOpen
  dsimp only
  split_ifs with runs
  · have running : s.blkRun = true ∧ s.fault = false := by simpa [State.programRuns] using runs
    exact { hs with pcRange := Nat.zero_le _, frameRuns := fun _ => running }
  · exact State.Inv.finishFrame (s := { s with frameCnt := s.frameCnt + 1 }) { hs with } _

/-- BlockStart outside a frame: LIVE takes SHADOW's values, and an empty block is closed at once (42_engine.md R300). -/
theorem State.Inv.blockStart (hs : s.Inv) (hf : s.inFrame = false) (frames : BitVec 32) :
    (s.blockStart frames).Inv := by
  rw [State.blockStart_eq]
  refine { hs with
    liveRange := hs.shadowRange
    delayTap := dlyFramesOf_range s.shadow
    combTap := combFramesOf_range s.shadow
    blockOpen := ?_
    runInBlock := ?_
    frameRuns := by simp [hf] }
  · dsimp only
    split_ifs with h
    · simp
    · intro _
      bv_omega
  · dsimp only
    split_ifs
    · simp
    · simp

/-! ## Instructions -/

/-- Neither of the two ways to move on leaves the range of `pc` (10_state.md R55). -/
theorem pcRange_of_fetched {pc pc' : BitVec 17} (h : pc.toNat < Config.progLen) (hpc : pc' = pc + 1 ∨ pc' = pc + 2) :
    pc'.toNat ≤ Config.progLen + 1 := by
  rw [progLen_eq] at h ⊢
  rcases hpc with rfl | rfl <;> bv_omega

theorem State.bufWrite_mem_wf (h : s.mem.wf = true) (pos : Word) (v : Sample) : (s.bufWrite pos v).mem.wf = true := by
  rcases s.bufWrite_cases pos v with ⟨-, hw⟩ | ⟨-, -, hw⟩ | ⟨-, -, hw⟩ <;> rw [hw]
  · exact h
  · exact Memory.wf_setWord (Memory.wf_setWord h _ _) _ _
  · exact Memory.wf_setWord h _ _

/-- A completed instruction that was fetched from `PMEM` keeps the invariant. -/
theorem State.Inv.completes (hs : s.Inv) (hpc : s.pc.toNat < Config.progLen) {t : State} (ht : s.Completes t) :
    t.Inv := by
  have next : (s.pc + 1).toNat ≤ Config.progLen + 1 := pcRange_of_fetched hpc (.inl rfl)
  cases ht with
  | frameEnd => exact hs.finishFrame s.oacc
  | registers sreg freg oacc fflags moved => exact { hs with pcRange := pcRange_of_fetched hpc moved }
  | bufWrite pos v =>
    rw [State.bufWrite_eq]
    exact { hs with memory := State.bufWrite_mem_wf hs.memory pos v, pcRange := next }
  | delay m dist x sreg => exact { hs with delayUnit := delayStep_wf hs.delayUnit m dist x, pcRange := next }
  | comb dist x sreg => exact { hs with combUnit := combStep_wf hs.combUnit dist x, pcRange := next }
  | biquad bqL bqR sreg => exact { hs with pcRange := next }
  | stft x hopCnt sreg => exact { hs with stftUnit := stftInvoke_wf hs.stftUnit s.live x, pcRange := next }

/-- A step of a frame program keeps the invariant: the fetched instruction, or the fault its fetch raises. -/
theorem State.Inv.step_inFrame (hs : s.Inv) (hf : s.inFrame = true) {t : State} (h : step s = .next t) : t.Inv := by
  rw [step_inside s hf] at h
  rcases s.fetch_cases with ⟨-, hfetch⟩ | ⟨-, e, -, hfetch⟩ | ⟨hpc, i, -, hfetch⟩ <;> rw [hfetch] at h
  · cases h
    exact hs.raiseFault (by decide) (by decide) _ _
  · cases h
    exact hs.raiseFault (by decide) (by decide) _ _
  · exact hs.completes hpc (exec_completes h)

/-! ## Resets -/

/-- The state after power-on reset is in range, field by field (70_reset_and_hazards.md R553). -/
theorem State.reset_inv : State.reset.Inv where
  memory := reset_memory_wf
  pcRange := Nat.zero_le _
  shadowRange := Params.reset_inRange
  liveRange := Params.reset_inRange
  stftUnit := by decide
  delayUnit := by decide
  combUnit := by decide
  delayTap := by decide
  combTap := by decide
  blockOpen := by decide
  runInBlock := by decide
  frameRuns := by decide
  causeCode := by decide

/-- A soft reset is the reset state but for the kept Buffer and the kept block fields. -/
theorem State.Inv.softReset (hs : s.Inv) (hf : s.inFrame = false) : s.softReset.Inv :=
  { State.reset_inv with
    memory := Memory.wf_clearPmem hs.memory
    blockOpen := hs.blockOpen
    runInBlock := fun h => nomatch h
    frameRuns := fun h => absurd (hf.symm.trans h) (by decide) }

theorem State.powerOnReset_inv (s : State) : s.powerOnReset.Inv :=
  { State.reset_inv with memory := Memory.wf_powerOn _ }

/-! ## Host accesses -/

theorem State.Inv.emit (hs : s.Inv) (o : Output) : (s.emit o).Inv := { hs with }

theorem State.Inv.busError (hs : s.Inv) : s.busError.Inv := { hs with }

theorem State.Inv.setMem (hs : s.Inv) {m : Memory} (hm : m.wf = true) : ({ s with mem := m } : State).Inv :=
  { hs with memory := hm }

theorem State.Inv.setShadow (hs : s.Inv) {p : Params} (hp : p.Ranged) : (s.setShadow p).Inv :=
  { hs with shadowRange := Params.inRange_iff.mpr hp }

/-- Write-1-to-clear of STATUS: a fault still pending was pending before, with its cause. -/
theorem State.Inv.clearStatus (hs : s.Inv) (w : Word) : (s.clearStatus w).Inv := by
  have pending : (s.clearStatus w).fault = true → s.fault = true := fun h => (Bool.and_eq_true_iff.mp h).1
  refine { hs with
    frameRuns := fun h => ?_
    causeCode := ⟨hs.causeCode.1, fun h => hs.causeCode.2 (pending h)⟩ }
  obtain ⟨running, clear⟩ := hs.frameRuns h
  exact ⟨running, Bool.eq_false_iff.mpr fun still => absurd (pending still) (by simp [clear])⟩

theorem State.Inv.writeCtrl (hs : s.Inv) (hf : s.inFrame = false) {w : Word} {t : State}
    (h : s.writeCtrl w = some t) : t.Inv := by
  rcases State.writeCtrl_cases h with rfl | rfl | rfl
  · exact hs.softReset hf
  · exact { hs with memory := Memory.wf_bufInit hs.memory }
  · exact { hs with }

/-- A performed register write keeps the invariant: every setter clamp lands in its register's range. -/
theorem State.Inv.writeReg (hs : s.Inv) (hf : s.inFrame = false) {r : Reg} {w : Word} {t : State}
    (h : s.writeReg r w = some t) : t.Inv := by
  have hp : s.shadow.Ranged := Params.inRange_iff.mp hs.shadowRange
  cases r
  case ctrl => exact hs.writeCtrl hf h
  case status => cases h; exact hs.clearStatus w
  case irqEn => cases h; exact { hs with }
  case fflags => cases h; exact { hs with }
  case rate => rw [State.eq_of_ifStopped h]; exact hs.setShadow { hp with rate := clampRate_inRange w }
  case bufLen => rw [State.eq_of_ifStopped h]; exact hs.setShadow { hp with bufLen := clampBufLen_le w }
  case bufChans => rw [State.eq_of_ifStopped h]; exact hs.setShadow { hp with bufChans := clampBufChans_cases w }
  case bufRate => rw [State.eq_of_ifStopped h]; exact hs.setShadow { hp with bufRate := clampRate_inRange w }
  case dlyTime => cases h; exact hs.setShadow { hp with dlyTime := clampDlyTime_inRange w }
  case dlyMix => cases h; exact hs.setShadow { hp with dlyMix := clampDlyMix_inRange w }
  case combTime => cases h; exact hs.setShadow { hp with combTime := clampCombTime_inRange w }
  case bqMode => cases h; exact hs.setShadow { hp with bqMode := clampBqMode_le w }
  case bqFreq => cases h; exact hs.setShadow { hp with bqFreq := clampBqFreq_inRange w }
  case bqQ => cases h; exact hs.setShadow { hp with bqQ := clampBqQ_inRange w }
  case stftCtrl => cases h; exact hs.setShadow { hp with stftCtrl := clampStftCtrl_inRange w }
  case stftRange => cases h; exact hs.setShadow { hp with stftRange := clampStftRange_inRange w }
  all_goals cases h

theorem State.Inv.writeLoc (hs : s.Inv) (hf : s.inFrame = false) {a w : Word} {loc : HostLoc} {t : State}
    (hl : hostLoc a = some loc) (h : s.writeLoc loc w = some t) : t.Inv := by
  cases loc with
  | reg r => exact hs.writeReg hf h
  | param i =>
    cases h
    have hp : s.shadow.Ranged := Params.inRange_iff.mp hs.shadowRange
    exact hs.setShadow { hp with words := cellsWf_cellSet hp.words (lt_of_hostLoc_param hl) w }
  | pmem i => rw [State.eq_of_ifStopped h]; exact hs.setMem (Memory.wf_setWord hs.memory _ w)
  | env c k => cases h
  | buf i => rw [State.eq_of_ifStopped h]; exact hs.setMem (Memory.wf_setWord hs.memory _ w)

theorem State.Inv.hostWrite (hs : s.Inv) (hf : s.inFrame = false) (a w : Word) : (s.hostWrite a w).Inv := by
  rcases s.hostWrite_cases a w with ⟨loc, t, hl, ht, hw⟩ | ⟨-, hw⟩ <;> rw [hw]
  · exact (hs.writeLoc hf hl ht).emit _
  · exact hs.busError.emit _

theorem State.Inv.hostRead (hs : s.Inv) (a : Word) : (s.hostRead a).Inv := by
  rcases s.hostRead_cases a with ⟨loc, -, hr⟩ | ⟨-, hr⟩ <;> rw [hr]
  · exact hs.emit _
  · exact hs.busError.emit _

/-! ## Offers and the step -/

/-- An offer accepted outside a frame program keeps the invariant. -/
theorem State.Inv.accept (hs : s.Inv) (hf : s.inFrame = false) {i : Input} {t : State} (h : s.accept i = .next t) :
    t.Inv := by
  cases i with
  | blockStart frames =>
    simp only [State.accept] at h
    split_ifs at h
    cases h
    exact hs.blockStart hf frames
  | frame x =>
    simp only [State.accept] at h
    split_ifs at h
    cases h
    exact hs.frameOpen x
  | hostRead a => cases h; exact hs.hostRead a
  | hostWrite a w => cases h; exact hs.hostWrite hf a w
  | powerOn => cases h; exact s.powerOnReset_inv

theorem State.Inv.acceptNext (hs : s.Inv) (hf : s.inFrame = false) {t : State} (h : s.acceptNext = .next t) :
    t.Inv := by
  unfold State.acceptNext at h
  split at h
  · cases h
    exact hs
  · next i rest _ => exact State.Inv.accept (s := { s with inputs := rest }) { hs with } hf h

/-- Settles O34: inside a frame a step is a fetched instruction or a fault, outside it is an accepted offer, and each
keeps the invariant. -/
theorem stepKeepsInvariant : Obligations.StepKeepsInvariant := by
  unfold Obligations.StepKeepsInvariant
  intro s t hs h
  cases hf : s.inFrame with
  | true => exact hs.step_inFrame hf h
  | false =>
    rw [step_outside s hf] at h
    exact hs.acceptNext hf h

end Sys2Proof.Machine
end

-- ==== Proofs of the memory family (20_memory.md): O37, O52, O53, O31, O55 ====
section
/-! Where the byte windows of the host map lead (20_memory.md R102), and which address leads to CTRL. -/

namespace Sys2Proof.Machine

/-! ## Host addresses -/

/-- The offset that leads to CTRL (10_state.md R59). -/
theorem eq_of_regAt_ctrl {n : Nat} (h : regAt n = some .ctrl) : n = 8 := by
  unfold regAt at h
  split at h <;> cases h
  rfl

theorem eq_of_hostLoc_ctrl {a : Word} (h : hostLoc a = some (.reg .ctrl)) : a = 8 := by
  unfold hostLoc at h
  dsimp only at h
  split_ifs at h
  · obtain ⟨r, hr, same⟩ := Option.map_eq_some_iff.mp h
    cases same
    exact BitVec.eq_of_toNat_eq (eq_of_regAt_ctrl hr)
  all_goals cases h

/-- From `PMEM` on an aligned address leads to `PMEM`, the envelopes, `BUFMEM` or nowhere. -/
theorem hostLoc_of_ge_pmemBase {a : Word} (aligned : a.toNat % 4 = 0) (h : 0x40000 ≤ a.toNat) :
    hostLoc a =
      if Config.inPmem a.toNat then some (.pmem ((a.toNat - 0x40000) / 4))
      else if 0x80000 ≤ a.toNat ∧ a.toNat < 0x82000 then
        some (.env ((a.toNat - 0x80000) / 4 / 1024) ((a.toNat - 0x80000) / 4 % 1024))
      else if Config.inBuf a.toNat then some (.buf ((a.toNat - 0x100000) / 4))
      else none := by
  have notParam : ¬ (Config.paramBase ≤ a.toNat ∧ a.toNat < Config.paramBase + 4 * Config.nparam) := by
    rw [nparam_eq]; unfold Config.paramBase; omega
  unfold hostLoc
  dsimp only
  rw [if_neg (show ¬ a.toNat % 4 ≠ 0 by omega), if_neg (show ¬ a.toNat < 0x1000 by omega), if_neg notParam]
  rfl

/-- An aligned address of `PMEM` leads to the word that begins there. -/
theorem hostLoc_of_inPmem {a : Word} (aligned : a.toNat % 4 = 0) (h : 0x40000 ≤ a.toNat ∧ a.toNat < 0x40400) :
    ∃ i, hostLoc a = some (.pmem i) ∧ pmemAddr i = a.toNat := by
  refine ⟨(a.toNat - 0x40000) / 4, ?_, by unfold pmemAddr Config.pmemBase; omega⟩
  rw [hostLoc_of_ge_pmemBase aligned h.1, if_pos (inPmem_iff.mpr h)]

/-- An aligned address of `BUFMEM` leads to the word that begins there. -/
theorem hostLoc_of_inBuf {a : Word} (aligned : a.toNat % 4 = 0) (h : 0x100000 ≤ a.toNat ∧ a.toNat < 0x200000) :
    ∃ i, hostLoc a = some (.buf i) ∧ bufAddr i = a.toNat := by
  refine ⟨(a.toNat - 0x100000) / 4, ?_, by unfold bufAddr Config.bufBase; omega⟩
  have buf : Config.inBuf a.toNat = true := inBuf_iff.mpr h
  rw [hostLoc_of_ge_pmemBase aligned (by omega), inPmem_of_inBuf buf, if_neg Bool.false_ne_true,
    if_neg (by omega), if_pos buf]

/-- The words of the envelope window: channel after channel, `N` words each (20_memory.md R102). -/
theorem hostLoc_envWord {c k : Nat} (hc : c < 2) (hk : k < 1024) :
    hostLoc (BitVec.ofNat 32 (0x80000 + 4 * (c * 1024 + k))) = some (.env c k) := by
  have hn : (BitVec.ofNat 32 (0x80000 + 4 * (c * 1024 + k))).toNat = 0x80000 + 4 * (c * 1024 + k) := by
    rw [BitVec.toNat_ofNat]; omega
  have notPmem : ¬ Config.inPmem (0x80000 + 4 * (c * 1024 + k)) = true := by rw [inPmem_iff]; omega
  rw [hostLoc_of_ge_pmemBase (by omega) (by omega), hn, if_neg notPmem, if_pos (by omega)]
  congr 2 <;> omega

end Sys2Proof.Machine
end

section
/-! What a host read answers (20_memory.md R104-R107, R113). -/

namespace Sys2Proof.Machine

open Sys2Proof.Claims

variable {s : State}

/-- A host read of a location answers its word and changes nothing else. -/
theorem step_hostRead {a v : Word} {loc : HostLoc} (hl : hostLoc a = some loc) (hv : (idle s).readLoc loc = v) :
    step (offer s (.hostRead a)) = .next { idle s with emitted := .readResp v true :: s.emitted } := by
  rw [step_offer]
  simp only [State.accept, State.hostRead, hl, hv]
  rfl

theorem setWidth_ofBool_word (b : Bool) : (BitVec.ofBool b).setWidth 32 = BitVec.ofNat 32 b.toNat := by
  cases b <;> rfl

theorem versionConst_eq : Config.versionConst = 0x00010A08 := by decide

/-- STATUS: FAULT in bit 0, BUSERR in bit 1, ACTIVE in bit 2 (10_state.md R63). -/
theorem State.statusWord_eq (s : State) :
    s.statusWord = BitVec.ofNat 32 (s.fault.toNat + 2 * s.busErr.toNat + 4 * s.blkRun.toNat) := by
  unfold State.statusWord
  cases s.fault <;> cases s.busErr <;> cases s.blkRun <;> rfl

theorem step_hostRead_pmem (s : State) {i : Nat} (hi : i < 256) :
    step (offer s (.hostRead (BitVec.ofNat 32 (0x40000 + 4 * i)))) =
      .next { idle s with emitted := .readResp (s.mem.word (0x40000 + 4 * i)) true :: s.emitted } := by
  have hn : (BitVec.ofNat 32 (0x40000 + 4 * i)).toNat = 0x40000 + 4 * i := by rw [BitVec.toNat_ofNat]; omega
  obtain ⟨j, hl, hj⟩ := hostLoc_of_inPmem (a := BitVec.ofNat 32 (0x40000 + 4 * i)) (by omega) (by omega)
  exact step_hostRead hl (congrArg s.mem.word (hj.trans hn))

theorem step_hostRead_buf (s : State) {i : Nat} (hi : i < 262144) :
    step (offer s (.hostRead (BitVec.ofNat 32 (0x100000 + 4 * i)))) =
      .next { idle s with emitted := .readResp (s.mem.word (0x100000 + 4 * i)) true :: s.emitted } := by
  have hn : (BitVec.ofNat 32 (0x100000 + 4 * i)).toNat = 0x100000 + 4 * i := by rw [BitVec.toNat_ofNat]; omega
  obtain ⟨j, hl, hj⟩ := hostLoc_of_inBuf (a := BitVec.ofNat 32 (0x100000 + 4 * i)) (by omega) (by omega)
  exact step_hostRead hl (congrArg s.mem.word (hj.trans hn))

/-- A read of the envelope window: the bins of the channel, then zeros (20_memory.md R105). -/
theorem step_hostRead_env (s : State) {c k : Nat} (hc : c < 2) (hk : k < 1024) :
    step (offer s (.hostRead (BitVec.ofNat 32 (0x80000 + 4 * (c * 1024 + k))))) =
      .next { idle s with
        emitted := .readResp (if k < 513 then cellGet (s.stft.envOf c) k else 0) true :: s.emitted } :=
  step_hostRead (hostLoc_envWord hc hk) rfl

/-- Settles O52: each address leads to its location, whose word is the one stated. -/
theorem hostReadWindows : Obligations.HostReadWindows := by
  unfold Obligations.HostReadWindows
  intro s
  refine ⟨?registers, fun i hi => step_hostRead (hostLoc_paramWord hi) rfl, fun i hi => step_hostRead_pmem s hi,
    fun k hk => ?left, fun k hk => ?right, fun c k hc hlo hhi => ?pastBins, fun i hi => step_hostRead_buf s hi⟩
  case registers =>
    intro gives
    have reg : ∀ {a v : Word} (r : Reg), hostLoc a = some (.reg r) → (idle s).readReg r = v → gives a v :=
      fun _ hl hv => step_hostRead hl hv
    have field : ∀ {n : Nat} (x : BitVec n), x.setWidth 32 = BitVec.ofNat 32 x.toNat :=
      fun x => (BitVec.ofNat_toNat 32 x).symm
    exact ⟨reg .id rfl rfl, reg .version rfl versionConst_eq, reg .ctrl rfl (setWidth_ofBool_word _),
      reg .status rfl (idle s).statusWord_eq, reg .faultCause rfl (field _), reg .faultPc rfl (field _),
      reg .faultInsn rfl rfl, reg .irqEn rfl (field _), reg .fflags rfl (field _),
      reg .frameCnt rfl rfl, reg .blockCnt rfl rfl, reg .hopCnt rfl rfl,
      reg .rate rfl rfl, reg .bufLen rfl rfl, reg .bufChans rfl (field _), reg .bufRate rfl rfl,
      reg .dlyTime rfl rfl, reg .dlyMix rfl rfl, reg .combTime rfl rfl,
      reg .bqMode rfl (field _), reg .bqFreq rfl rfl, reg .bqQ rfl rfl,
      reg .stftCtrl rfl rfl, reg .stftRange rfl rfl,
      reg .bqB0 rfl rfl, reg .bqB1 rfl rfl, reg .bqB2 rfl rfl, reg .bqA1 rfl rfl, reg .bqA2 rfl rfl,
      reg .dlyFrames rfl rfl, reg .combFrames rfl rfl⟩
  case left =>
    have read := step_hostRead_env s (c := 0) (k := k) (by decide) (by omega)
    rwa [if_pos hk, Nat.zero_mul, Nat.zero_add] at read
  case right =>
    have read := step_hostRead_env s (c := 1) (k := k) (by decide) (by omega)
    rwa [if_pos hk, Nat.one_mul] at read
  case pastBins =>
    have read := step_hostRead_env s hc hhi
    rwa [if_neg (by omega)] at read

end Sys2Proof.Machine
end

section
/-! What a host write of a byte memory stores while stopped, and what no access reaches while RUN or BLK_RUN stands
(20_memory.md R106, R107, R117). -/

namespace Sys2Proof.Machine

open Sys2Proof.Claims

variable {s t : State}

/-! ## While stopped -/

/-- A word stored at four mapped bytes reads back, and the bytes outside it are kept. -/
theorem Memory.setWord_stores {m : Memory} (hm : m.wf = true) {n : Nat}
    (inside : ∀ j, j < 4 → mapped (n + j) = true) (w : Word) :
    (m.setWord n w).word n = w ∧ ∀ x, x < n ∨ n + 4 ≤ x → (m.setWord n w).byte x = m.byte x :=
  ⟨Memory.word_setWord_same hm (inside 0 (by decide)) (inside 1 (by decide)) (inside 2 (by decide))
    (inside 3 (by decide)) w, fun _ hx => Memory.byte_setWord_outside hx w⟩

/-- An aligned address of `PMEM` or `BUFMEM` leads to a location where a host write, while stopped, stores its word. -/
theorem writeLoc_memory_stopped {a : Word} (aligned : a.toNat % 4 = 0)
    (window : (0x40000 ≤ a.toNat ∧ a.toNat < 0x40400) ∨ (0x100000 ≤ a.toNat ∧ a.toNat < 0x200000))
    (hr : s.ctrlRun = false) (hb : s.blkRun = false) (w : Word) :
    ∃ loc, hostLoc a = some loc ∧ s.writeLoc loc w = some { s with mem := s.mem.setWord a.toNat w } := by
  rcases window with hp | hbuf
  · obtain ⟨i, hl, hi⟩ := hostLoc_of_inPmem aligned hp
    rw [← hi]
    exact ⟨.pmem i, hl, State.ifStopped_of_stopped hr hb _⟩
  · obtain ⟨i, hl, hi⟩ := hostLoc_of_inBuf aligned hbuf
    rw [← hi]
    exact ⟨.buf i, hl, State.ifStopped_of_stopped hr hb _⟩

/-- Settles O53: the address leads to its memory word, and storing a word changes its four bytes alone. -/
theorem stoppedHostWritesStore : Obligations.StoppedHostWritesStore := by
  unfold Obligations.StoppedHostWritesStore
  intro s a w hr hb hm aligned window
  obtain ⟨loc, hl, written⟩ := writeLoc_memory_stopped (s := idle s) aligned window hr hb w
  have inside : ∀ j, j < 4 → mapped (a.toNat + j) = true := fun j hj => mapped_iff.mpr (by omega)
  exact ⟨s.mem.setWord a.toNat w, step_acceptedWrite hl written, Memory.setWord_stores hm inside w⟩

/-! ## While RUN or BLK_RUN stands -/

theorem State.ifStopped_of_running (hs : s.stopped = false) (t : State) : s.ifStopped t = none := by
  simp [State.ifStopped, hs]

/-- While running a performed write of CTRL that is no soft reset keeps memory: BUF_INIT is refused. -/
theorem State.writeCtrl_mem (hs : s.stopped = false) {w : Word} (noReset : w.getLsbD 1 = false)
    (h : s.writeCtrl w = some t) : t.mem = s.mem := by
  unfold State.writeCtrl at h
  rw [noReset, if_neg Bool.false_ne_true, State.ifStopped_of_running hs] at h
  split_ifs at h
  cases h
  rfl

/-- While running no register write but a soft reset changes memory. -/
theorem State.writeReg_mem (hs : s.stopped = false) {r : Reg} {w : Word}
    (noReset : r = .ctrl → w.getLsbD 1 = false) (h : s.writeReg r w = some t) : t.mem = s.mem := by
  cases r
  case ctrl => exact State.writeCtrl_mem hs (noReset rfl) h
  case rate => rw [State.eq_of_ifStopped h]; rfl
  case bufLen => rw [State.eq_of_ifStopped h]; rfl
  case bufChans => rw [State.eq_of_ifStopped h]; rfl
  case bufRate => rw [State.eq_of_ifStopped h]; rfl
  all_goals cases h <;> rfl

/-- While running a write of `PMEM` or `BUFMEM` is refused, and no other but a soft reset changes memory. -/
theorem State.writeLoc_mem (hs : s.stopped = false) {loc : HostLoc} {w : Word}
    (noReset : loc = .reg .ctrl → w.getLsbD 1 = false) (h : s.writeLoc loc w = some t) : t.mem = s.mem := by
  cases loc with
  | reg r => exact State.writeReg_mem hs (fun hr => noReset (by rw [hr])) h
  | param i => cases h; rfl
  | pmem i => exact nomatch (State.ifStopped_of_running hs _).symm.trans h
  | env c k => cases h
  | buf i => exact nomatch (State.ifStopped_of_running hs _).symm.trans h

theorem State.hostWrite_mem (hs : s.stopped = false) {a w : Word} (noReset : a = 8 → w.getLsbD 1 = false) :
    (s.hostWrite a w).mem = s.mem := by
  rcases s.hostWrite_cases a w with ⟨loc, t, hl, ht, hw⟩ | ⟨-, hw⟩ <;> rw [hw]
  exact State.writeLoc_mem (t := t) hs (fun hc => noReset (eq_of_hostLoc_ctrl (hc ▸ hl))) ht

theorem State.hostRead_mem (s : State) (a : Word) : (s.hostRead a).mem = s.mem := by
  rcases s.hostRead_cases a with ⟨loc, -, hr⟩ | ⟨-, hr⟩ <;> rw [hr]

theorem State.frameOpen_mem (s : State) (x : Sample) : (s.frameOpen x).mem = s.mem := by
  unfold State.frameOpen
  dsimp only
  split_ifs
  · rfl
  · exact State.finishFrame_mem _ _

/-- While running no offer but a reset changes memory. -/
theorem State.accept_mem (hs : s.stopped = false) {i : Input} (noPowerOn : i ≠ .powerOn)
    (noReset : ∀ w, i = .hostWrite 8 w → w.getLsbD 1 = false) (h : s.accept i = .next t) : t.mem = s.mem := by
  cases i with
  | blockStart frames =>
    simp only [State.accept] at h
    split_ifs at h
    cases h
    rw [State.blockStart_eq]
  | frame x =>
    simp only [State.accept] at h
    split_ifs at h
    cases h
    exact s.frameOpen_mem x
  | hostRead a => cases h; exact s.hostRead_mem a
  | hostWrite a w => cases h; exact State.hostWrite_mem hs (fun ha => noReset w (by rw [ha]))
  | powerOn => exact absurd rfl noPowerOn

theorem State.acceptNext_mem (hs : s.stopped = false) (noPowerOn : ∀ rest, s.inputs ≠ .powerOn :: rest)
    (noReset : ∀ w rest, s.inputs = .hostWrite 8 w :: rest → w.getLsbD 1 = false)
    (h : s.acceptNext = .next t) : t.mem = s.mem := by
  unfold State.acceptNext at h
  split at h
  · cases h; rfl
  · next i rest next =>
    exact State.accept_mem (s := { s with inputs := rest }) hs (fun hi => noPowerOn rest (hi ▸ next))
      (fun w hi => noReset w rest (hi ▸ next)) h

/-! ## Inside a frame program -/

/-- `PMEM` lies below every word of the Buffer (20_memory.md R102). -/
theorem Memory.byte_setWord_bufAddr {m : Memory} {x : Nat} (hx : Config.inPmem x = true) (i : Nat) (w : Word) :
    (m.setWord (bufAddr i) w).byte x = m.byte x := by
  rw [inPmem_iff] at hx
  exact Memory.byte_setWord_outside (.inl (by unfold bufAddr Config.bufBase; omega)) w

/-- A Buffer write reaches no byte of `PMEM`. -/
theorem State.bufWrite_byte_pmem {x : Nat} (hx : Config.inPmem x = true) (pos : Word) (v : Sample) :
    (s.bufWrite pos v).mem.byte x = s.mem.byte x := by
  rcases s.bufWrite_cases pos v with ⟨-, hw⟩ | ⟨-, -, hw⟩ | ⟨-, -, hw⟩ <;> rw [hw]
  · rw [Memory.byte_setWord_bufAddr hx, Memory.byte_setWord_bufAddr hx]
  · rw [Memory.byte_setWord_bufAddr hx]

/-- No instruction changes a byte of `PMEM`. -/
theorem State.Completes.byte_pmem (ht : s.Completes t) {x : Nat} (hx : Config.inPmem x = true) :
    t.mem.byte x = s.mem.byte x := by
  cases ht with
  | frameEnd => rw [State.finishFrame_mem]
  | bufWrite pos v => exact State.bufWrite_byte_pmem hx pos v
  | registers | delay | comb | biquad | stft => rfl

/-- No step of a frame program changes a byte of `PMEM`. -/
theorem step_inFrame_byte_pmem (hf : s.inFrame = true) (h : step s = .next t) {x : Nat}
    (hx : Config.inPmem x = true) : t.mem.byte x = s.mem.byte x := by
  rw [step_inside s hf] at h
  rcases s.fetch_cases with ⟨-, hfetch⟩ | ⟨-, e, -, hfetch⟩ | ⟨-, i, -, hfetch⟩ <;> rw [hfetch] at h
  · cases h
    rw [State.raiseFault_eq]
  · cases h
    rw [State.raiseFault_eq]
  · exact (exec_completes h).byte_pmem hx

/-- Settles O37: outside a frame program no offer but a reset changes memory, inside one no step reaches `PMEM`. -/
theorem memoryIsFixedWhileRunning : Obligations.MemoryIsFixedWhileRunning := by
  unfold Obligations.MemoryIsFixedWhileRunning
  intro s t running h noPowerOn noReset
  have notStopped : s.stopped = false := by rcases running with hr | hr <;> simp [State.stopped, hr]
  cases hf : s.inFrame with
  | true => exact ⟨fun x hx => step_inFrame_byte_pmem hf h hx, fun outside => nomatch outside⟩
  | false =>
    rw [step_outside s hf] at h
    have kept := State.acceptNext_mem notStopped noPowerOn noReset h
    exact ⟨fun x _ => by rw [kept], fun _ x => by rw [kept]⟩

end Sys2Proof.Machine
end

section
/-! Which instruction writes which part of the state (20_memory.md R100, 10_state.md R54, 42_engine.md R312). -/

namespace Sys2Proof.Machine

/-- Settles O31, instruction by instruction: each of the six writers keeps what the other five write, and every other
instruction keeps it all. -/
theorem eachStateHasItsWriter : Obligations.EachStateHasItsWriter := by
  unfold Obligations.EachStateHasItsWriter
  intro i s t h
  cases i
  case endp =>
    cases h
    rw [State.finishFrame_eq]
    exact ⟨fun _ => rfl, fun _ => rfl, fun _ => rfl, fun _ => rfl, fun _ => ⟨rfl, rfl⟩, fun _ => ⟨rfl, rfl⟩⟩
  case bwr a b =>
    cases h
    rw [State.bufWrite_eq]
    exact ⟨fun no => absurd rfl (no a b), fun _ => rfl, fun _ => rfl, fun _ => rfl, fun _ => ⟨rfl, rfl⟩,
      fun _ => ⟨rfl, rfl⟩⟩
  case outadd a =>
    cases h
    exact ⟨fun _ => rfl, fun no => absurd rfl (no a), fun _ => rfl, fun _ => rfl, fun _ => ⟨rfl, rfl⟩,
      fun _ => ⟨rfl, rfl⟩⟩
  case dly d a =>
    cases h
    exact ⟨fun _ => rfl, fun _ => rfl, fun no => absurd rfl (no d a), fun _ => rfl, fun _ => ⟨rfl, rfl⟩,
      fun _ => ⟨rfl, rfl⟩⟩
  case comb d a =>
    cases h
    exact ⟨fun _ => rfl, fun _ => rfl, fun _ => rfl, fun no => absurd rfl (no d a), fun _ => ⟨rfl, rfl⟩,
      fun _ => ⟨rfl, rfl⟩⟩
  case biq d a =>
    cases h
    exact ⟨fun _ => rfl, fun _ => rfl, fun _ => rfl, fun _ => rfl, fun no => absurd rfl (no d a),
      fun _ => ⟨rfl, rfl⟩⟩
  case stft d a =>
    cases h
    exact ⟨fun _ => rfl, fun _ => rfl, fun _ => rfl, fun _ => rfl, fun _ => ⟨rfl, rfl⟩,
      fun no => absurd rfl (no d a)⟩
  all_goals
    cases h
    exact ⟨fun _ => rfl, fun _ => rfl, fun _ => rfl, fun _ => rfl, fun _ => ⟨rfl, rfl⟩, fun _ => ⟨rfl, rfl⟩⟩

end Sys2Proof.Machine
end

section
/-! The setter clamp by kind of operand (20_memory.md R116). -/

namespace Sys2Proof.Machine

variable {v lo hi dflt : Word}

theorem flt_self (w : Word) : flt w w = false := by simp [flt]

theorem isNaN_of_flt_left (h : flt v lo = true) : isNaN v = false := by
  simp only [flt, Bool.and_eq_true, Bool.not_eq_true'] at h
  exact h.1.1

theorem isNaN_of_flt_right (h : flt hi v = true) : isNaN v = false := by
  simp only [flt, Bool.and_eq_true, Bool.not_eq_true'] at h
  exact h.1.2

theorem clampF_of_isNaN (h : isNaN v = true) : clampF v lo hi dflt = dflt := by
  unfold clampF
  rw [if_pos h]

theorem clampF_of_below (h : flt v lo = true) : clampF v lo hi dflt = lo := by
  unfold clampF
  rw [isNaN_of_flt_left h, h]
  rfl

theorem clampF_of_above (hlo : flt v lo = false) (h : flt hi v = true) : clampF v lo hi dflt = hi := by
  unfold clampF
  rw [isNaN_of_flt_right h, hlo, h]
  rfl

theorem clampF_of_inRange (h : inRangeF v lo hi = true) : clampF v lo hi dflt = v := by
  obtain ⟨number, notBelow, notAbove⟩ := inRangeF_iff.mp h
  unfold clampF
  rw [number, notBelow, notAbove]
  rfl

/-- Between bounds that are no NaN and in order every clamp lands in the range when the default does. -/
theorem inRangeF_clampF_of_ordered (nlo : isNaN lo = false) (nhi : isNaN hi = false) (ordered : flt hi lo = false)
    (hd : inRangeF dflt lo hi = true) (v : Word) : inRangeF (clampF v lo hi dflt) lo hi = true :=
  inRangeF_clampF (inRangeF_iff.mpr ⟨nlo, flt_self lo, ordered⟩) (inRangeF_iff.mpr ⟨nhi, ordered, flt_self hi⟩) hd v

/-- The clamped number is at most the upper bound's, so it fits the word. -/
theorem clampU_toNat (v lo hi : Word) : (clampU v lo hi).toNat = min (max v.toNat lo.toNat) hi.toNat := by
  have fits : min (max v.toNat lo.toNat) hi.toNat < 2 ^ 32 := (Nat.min_le_right _ _).trans_lt hi.isLt
  unfold clampU
  rw [BitVec.toNat_ofNat, Nat.mod_eq_of_lt fits]

/-- Settles O55, kind by kind; a clamped value is in range, so that clamping it again keeps it. -/
theorem setterClampBehaviour : Obligations.SetterClampBehaviour := by
  unfold Obligations.SetterClampBehaviour
  intro v lo hi dflt
  refine ⟨clampF_of_isNaN, clampF_of_below, clampF_of_above,
    fun number notBelow notAbove => clampF_of_inRange (inRangeF_iff.mpr ⟨number, notBelow, notAbove⟩),
    fun nlo nhi ordered hd => ?_, fun _ => clampU_toNat v lo hi⟩
  have clamped := inRangeF_clampF_of_ordered nlo nhi ordered hd v
  exact ⟨clamped, clampF_of_inRange clamped⟩

end Sys2Proof.Machine
end

-- ==== Proofs of the encoding family (30_encoding.md): O1, O2, O3, O4, O6 ====
section
/-! The required-zero bits of an instruction word, field by field, and the word put together from its fields
(30_encoding.md R151-R153). -/

namespace Sys2Proof

theorem bits_eq_zero_iff {w : Word} {lo n : Nat} : bits w lo n = 0 ↔ w.toNat / 2 ^ lo % 2 ^ n = 0 := by
  rw [← beq_iff_eq, bits_eq_zero, decide_eq_true_eq]

/-- A run of bits is zero when its two parts are. -/
theorem bits_add_eq_zero (w : Word) (lo m n : Nat) :
    (bits w lo (m + n) == 0) = (bits w lo m == 0 && bits w (lo + m) n == 0) := by
  simp only [bits_eq_zero, ← Bool.decide_and, decide_eq_decide, pow_add, Nat.mod_mul, ← Nat.div_div_eq_div_mul]
  have : 0 < 2 ^ m := Nat.two_pow_pos m
  constructor
  · intro h
    have h2 : 2 ^ m * (w.toNat / 2 ^ lo / 2 ^ m % 2 ^ n) = 0 := by omega
    exact ⟨by omega, (Nat.mul_eq_zero.mp h2).resolve_left (by omega)⟩
  · rintro ⟨h1, h2⟩
    rw [h1, h2, Nat.mul_zero]

/-- A run of bits of a run of bits. -/
theorem extractLsb'_bits (w : Word) (lo : Nat) {n start len : Nat} (h : start + len ≤ n) :
    (bits w lo n).extractLsb' start len = bits w (lo + start) len := by
  ext k hk
  have : start + k < n := by omega
  simp [bits, this, Nat.add_assoc]

/-! ## Required zeros as fields -/

theorem zero4_eq (w : Word) : zero4 w = (zero5 w && eField w == 0) := bits_add_eq_zero w 0 11 3
theorem zero3_eq (w : Word) : zero3 w = (zero4 w && cField w == 0) := bits_add_eq_zero w 0 14 3
theorem zero2_eq (w : Word) : zero2 w = (zero3 w && bField w == 0) := bits_add_eq_zero w 0 17 3
theorem zeroA_eq (w : Word) : zeroA w = (zero2 w && dField w == 0) := rfl
theorem zeroAB_eq (w : Word) : zeroAB w = (zero3 w && dField w == 0) := rfl
theorem zeroIn_eq (w : Word) : zeroIn w = (zeroI w && dField w == 0) := bits_add_eq_zero w 16 7 3

theorem zeroZ_eq (w : Word) : zeroZ w = (zeroA w && aField w == 0) := by
  have upper : (bits w 20 6 == 0) = (aField w == 0 && dField w == 0) := bits_add_eq_zero w 20 3 3
  have lower : zeroZ w = (zero2 w && bits w 20 6 == 0) := bits_add_eq_zero w 0 20 6
  rw [lower, upper, zeroA_eq, Bool.and_comm (aField w == 0), Bool.and_assoc]

/-- The bits of BRD1's `b` field: bit 17 is the channel, bits 19:18 are required to be zero (R155). -/
theorem zeroCh_eq (w : Word) : zeroCh w = (zero3 w && (bField w).extractLsb' 1 2 == 0) := by
  unfold bField
  rw [extractLsb'_bits w 17 (n := 3) (start := 1) (len := 2) (by decide)]
  rfl

theorem channelBit_eq (w : Word) : bits w 17 1 = (bField w).extractLsb' 0 1 :=
  (extractLsb'_bits w 17 (n := 3) (start := 0) (len := 1) (by decide)).symm

/-! ## Format words -/

@[simp] theorem zero5_rWord (op : BitVec 6) (d a b c e : RegIdx) : zero5 (rWord op d a b c e) = true := by
  simp only [zero5, bits_eq_zero, rWord_toNat, decide_eq_true_eq]
  omega

@[simp] theorem zeroI_iWord (op : BitVec 6) (d : RegIdx) (imm : BitVec 16) : zeroI (iWord op d imm) = true := by
  simp only [zeroI, bits_eq_zero, iWord_toNat, decide_eq_true_eq]
  have := imm.isLt
  omega

/-- A word with no bit set below its `e` field is the format R word of its fields. -/
theorem rWord_fields {w : Word} (h : zero5 w = true) :
    rWord (opField w) (dField w) (aField w) (bField w) (cField w) (eField w) = w := by
  simp only [zero5, bits_eq_zero, decide_eq_true_eq] at h
  apply BitVec.eq_of_toNat_eq
  simp only [rWord_toNat, opField, dField, aField, bField, cField, eField, bits_toNat]
  have := w.isLt
  omega

/-- A word whose `z7` is zero is the format I word of its fields. -/
theorem iWord_fields {w : Word} (h : zeroI w = true) : iWord (opField w) (dField w) (immField w) = w := by
  simp only [zeroI, bits_eq_zero, decide_eq_true_eq] at h
  apply BitVec.eq_of_toNat_eq
  simp only [iWord_toNat, opField, dField, immField, bits_toNat]
  have := w.isLt
  omega

end Sys2Proof
end

section
/-! The decoder as a table: the operand layouts of 30_encoding.md R151-R155 and, for each opcode of R156, its layout and
the instruction read from the fields. Decoding is looking up a row, checking its zeros and its operands. -/

namespace Sys2Proof

/-- Which operands a word carries, and so which of its bits are required to be zero. -/
inductive Layout where
  /-- no operand -/
  | bare
  /-- SKIPEV's period in `imm16` -/
  | period
  /-- `d` and `imm16` -/
  | dImm
  /-- `d`, and LDP's parameter index in `imm16` -/
  | dIndex
  | a
  | ab
  | da
  /-- `d`, `a` and BRD1's channel in bit 17 -/
  | daCh
  | dab
  | dabc
  | dabce

/-- The decoder's required-zero check. -/
def Layout.zero : Layout → Word → Bool
  | .bare => zeroZ
  | .period => zeroIn
  | .dImm | .dIndex => zeroI
  | .a => zeroA
  | .ab => zeroAB
  | .da => zero2
  | .daCh => zeroCh
  | .dab => zero3
  | .dabc => zero4
  | .dabce => zero5

/-- The word with opcode `op` that carries `w`'s operands and zeros elsewhere. -/
def Layout.word (op : BitVec 6) (w : Word) : Layout → Word
  | .bare => rWord op 0 0 0 0 0
  | .period => iWord op 0 (immField w)
  | .dImm | .dIndex => iWord op (dField w) (immField w)
  | .a => rWord op 0 (aField w) 0 0 0
  | .ab => rWord op 0 (aField w) (bField w) 0 0
  | .da => rWord op (dField w) (aField w) 0 0 0
  | .daCh => rWord op (dField w) (aField w) (if bits w 17 1 == 1 then 1 else 0) 0 0
  | .dab => rWord op (dField w) (aField w) (bField w) 0 0
  | .dabc => rWord op (dField w) (aField w) (bField w) (cField w) 0
  | .dabce => rWord op (dField w) (aField w) (bField w) (cField w) (eField w)

theorem channel_of_upper_zero : ∀ b : RegIdx, b.extractLsb' 1 2 = 0 →
    (if b.extractLsb' 0 1 == 1 then (1 : RegIdx) else 0) = b := by decide

/-- A word with its layout's zeros has nothing but its opcode and its operands. -/
theorem Layout.word_eq {l : Layout} {w : Word} (h : l.zero w = true) : l.word (opField w) w = w := by
  cases l with
  | period =>
    simp only [Layout.zero, zeroIn_eq, Bool.and_eq_true, beq_iff_eq] at h
    obtain ⟨hz, hd⟩ := h
    simpa only [Layout.word, hd] using iWord_fields hz
  | dImm | dIndex => exact iWord_fields h
  | dabce => exact rWord_fields h
  | daCh =>
    simp only [Layout.zero, zeroCh_eq, zero3_eq, zero4_eq, Bool.and_eq_true, beq_iff_eq] at h
    obtain ⟨⟨⟨hz, he⟩, hc⟩, hb⟩ := h
    simpa only [Layout.word, channelBit_eq, channel_of_upper_zero _ hb, hc, he] using rWord_fields hz
  | bare | a | ab | da | dab | dabc =>
    simp only [Layout.zero, zeroZ_eq, zeroA_eq, zeroAB_eq, zero2_eq, zero3_eq, zero4_eq, Bool.and_eq_true,
      beq_iff_eq] at h
    have fields := rWord_fields (w := w) (by simp only [h])
    simpa only [Layout.word, h] using fields

/-- One opcode of 30_encoding.md R156: its layout and the instruction its fields give. -/
structure DecoderRow where
  op : BitVec 6
  layout : Layout
  read : Word → Instr

/-- The 36 opcodes. -/
def decoderRows : List DecoderRow :=
  [⟨0x00, .bare, fun _ => .endp⟩,
   ⟨0x01, .bare, fun _ => .nop⟩,
   ⟨0x02, .period, fun w => .skipev (immField w)⟩,
   ⟨0x04, .dImm, fun w => .ldi (dField w) (immField w)⟩,
   ⟨0x05, .dIndex, fun w => .ldp (dField w) (immField w)⟩,
   ⟨0x06, .a, fun w => .outadd (aField w)⟩,
   ⟨0x08, .dab, fun w => .sadd (dField w) (aField w) (bField w)⟩,
   ⟨0x09, .dab, fun w => .ssub (dField w) (aField w) (bField w)⟩,
   ⟨0x0A, .dab, fun w => .smul (dField w) (aField w) (bField w)⟩,
   ⟨0x0B, .dab, fun w => .sdiv (dField w) (aField w) (bField w)⟩,
   ⟨0x0C, .dab, fun w => .saddf (dField w) (aField w) (bField w)⟩,
   ⟨0x0D, .dab, fun w => .ssubf (dField w) (aField w) (bField w)⟩,
   ⟨0x0E, .dab, fun w => .smulf (dField w) (aField w) (bField w)⟩,
   ⟨0x0F, .dab, fun w => .sdivf (dField w) (aField w) (bField w)⟩,
   ⟨0x10, .dabc, fun w => .sclip (dField w) (aField w) (bField w) (cField w)⟩,
   ⟨0x11, .dabc, fun w => .swrap (dField w) (aField w) (bField w) (cField w)⟩,
   ⟨0x12, .dabce, fun w => .slin (dField w) (aField w) (bField w) (cField w) (eField w)⟩,
   ⟨0x13, .da, fun w => .smov (dField w) (aField w)⟩,
   ⟨0x14, .dab, fun w => .spack (dField w) (aField w) (bField w)⟩,
   ⟨0x15, .da, fun w => .sgetl (dField w) (aField w)⟩,
   ⟨0x16, .da, fun w => .sgetr (dField w) (aField w)⟩,
   ⟨0x18, .dab, fun w => .fadd (dField w) (aField w) (bField w)⟩,
   ⟨0x19, .dab, fun w => .fsub (dField w) (aField w) (bField w)⟩,
   ⟨0x1A, .dab, fun w => .fmul (dField w) (aField w) (bField w)⟩,
   ⟨0x1B, .dab, fun w => .fdiv (dField w) (aField w) (bField w)⟩,
   ⟨0x1C, .da, fun w => .fmov (dField w) (aField w)⟩,
   ⟨0x20, .da, fun w => .brd (dField w) (aField w)⟩,
   ⟨0x21, .daCh, fun w => .brd1 (dField w) (aField w) (bits w 17 1 == 1)⟩,
   ⟨0x22, .ab, fun w => .bwr (aField w) (bField w)⟩,
   ⟨0x23, .da, fun w => .rscale (dField w) (aField w)⟩,
   ⟨0x24, .da, fun w => .sec2fr (dField w) (aField w)⟩,
   ⟨0x25, .da, fun w => .fr2sec (dField w) (aField w)⟩,
   ⟨0x28, .da, fun w => .dly (dField w) (aField w)⟩,
   ⟨0x29, .da, fun w => .comb (dField w) (aField w)⟩,
   ⟨0x2A, .da, fun w => .biq (dField w) (aField w)⟩,
   ⟨0x2B, .da, fun w => .stft (dField w) (aField w)⟩]

variable {w : Word} {i : Instr}

/-- The decoder's first two checks are the row's. -/
theorem decodeFields_row : ∀ r ∈ decoderRows, (opField w).toNat = r.op.toNat →
    decodeFields w = ifZero (r.layout.zero w) (r.read w) := by
  simp only [decoderRows, List.forall_mem_cons]
  exact ⟨decodeFields_endp w, decodeFields_nop w, decodeFields_skipev w, decodeFields_ldi w, decodeFields_ldp w,
    decodeFields_outadd w, decodeFields_sadd w, decodeFields_ssub w, decodeFields_smul w, decodeFields_sdiv w,
    decodeFields_saddf w, decodeFields_ssubf w, decodeFields_smulf w, decodeFields_sdivf w, decodeFields_sclip w,
    decodeFields_swrap w, decodeFields_slin w, decodeFields_smov w, decodeFields_spack w, decodeFields_sgetl w,
    decodeFields_sgetr w, decodeFields_fadd w, decodeFields_fsub w, decodeFields_fmul w, decodeFields_fdiv w,
    decodeFields_fmov w, decodeFields_brd w, decodeFields_brd1 w, decodeFields_bwr w, decodeFields_rscale w,
    decodeFields_sec2fr w, decodeFields_fr2sec w, decodeFields_dly w, decodeFields_comb w, decodeFields_biq w,
    decodeFields_stft w, List.forall_mem_nil _⟩

/-- What a row reads from a word encodes to the row's opcode with the word's operands. -/
theorem encode_read : ∀ r ∈ decoderRows, encode (r.read w) = r.layout.word r.op w := by
  simp [decoderRows, encode, Layout.word]

/-! ## Reserved opcodes -/

/-- R156 lists every opcode: it is reserved or has a row. -/
theorem reservedOp_or_row : ∀ op : BitVec 6, Claims.reservedOp op.toNat ∨ op ∈ decoderRows.map (·.op) := by
  unfold Claims.reservedOp
  decide

theorem decodeFields_reserved (h : Claims.reservedOp (opField w).toNat) :
    decodeFields w = .error .reservedOpcode := by
  unfold decodeFields
  split
  case h_37 => rfl
  all_goals
    next hop =>
      refine absurd h ?_
      rw [hop]
      unfold Claims.reservedOp
      decide

theorem decode_reserved (h : Claims.reservedOp (opField w).toNat) : decode w = .error .reservedOpcode := by
  simp only [decode, decodeFields_reserved h]

/-! ## When a word decodes, and to what -/

theorem ifZero_eq_ok {z : Bool} {j : Instr} : ifZero z j = .ok i ↔ z = true ∧ j = i := by
  cases z <;> simp [ifZero]

/-- The first two checks pass when some row has the opcode and its zeros are zero. -/
theorem decodeFields_eq_ok : decodeFields w = .ok i ↔
    ∃ r ∈ decoderRows, opField w = r.op ∧ r.layout.zero w = true ∧ r.read w = i := by
  constructor
  · intro h
    rcases reservedOp_or_row (opField w) with hres | hrow
    · cases (decodeFields_reserved hres).symm.trans h
    · obtain ⟨r, hr, hop⟩ := List.mem_map.mp hrow
      rw [decodeFields_row r hr (by rw [hop]), ifZero_eq_ok] at h
      exact ⟨r, hr, hop.symm, h⟩
  · rintro ⟨r, hr, hop, h⟩
    rwa [decodeFields_row r hr (by rw [hop]), ifZero_eq_ok]

/-- The last two checks pass the well-formed instructions. -/
theorem checkOperands_eq_ok {j : Instr} : checkOperands j = .ok i ↔ j.wf = true ∧ j = i := by
  cases j with
  | skipev n => by_cases h : n = 0#16 <;> simp [checkOperands, Instr.wf, h]
  | ldp d p => by_cases h : p.toNat < Config.nparam <;> simp [checkOperands, Instr.wf, h]
  | _ => simp [checkOperands, Instr.wf]

theorem decode_eq_ok : decode w = .ok i ↔ decodeFields w = .ok i ∧ i.wf = true := by
  unfold decode
  cases decodeFields w with
  | error e => simp
  | ok j =>
    rw [Except.ok.injEq, checkOperands_eq_ok]
    constructor
    · rintro ⟨hwf, rfl⟩
      exact ⟨rfl, hwf⟩
    · rintro ⟨rfl, hwf⟩
      exact ⟨hwf, rfl⟩

/-- The first two checks read every instruction back from its word: its layout's zeros are zero and each field is the
operand put there. -/
theorem decodeFields_encode (i : Instr) : decodeFields (encode i) = .ok i := by
  cases i with
  | endp | nop => simp [encode, decodeFields, ifZero, zeroZ_eq, zeroA_eq, zero2_eq, zero3_eq, zero4_eq]
  | skipev n => simp [encode, decodeFields, ifZero, zeroIn_eq]
  | ldi d imm | ldp d imm => simp [encode, decodeFields, ifZero]
  | outadd a => simp [encode, decodeFields, ifZero, zeroA_eq, zero2_eq, zero3_eq, zero4_eq]
  | bwr a b => simp [encode, decodeFields, ifZero, zeroAB_eq, zero3_eq, zero4_eq]
  | smov d a | sgetl d a | sgetr d a | fmov d a | brd d a | rscale d a | sec2fr d a | fr2sec d a | dly d a | comb d a
  | biq d a | stft d a => simp [encode, decodeFields, ifZero, zero2_eq, zero3_eq, zero4_eq]
  | brd1 d a ch =>
    cases ch <;> simp [encode, decodeFields, ifZero, zeroCh_eq, channelBit_eq, zero3_eq, zero4_eq]
  | sadd d a b | ssub d a b | smul d a b | sdiv d a b | saddf d a b | ssubf d a b | smulf d a b | sdivf d a b
  | spack d a b | fadd d a b | fsub d a b | fmul d a b | fdiv d a b =>
    simp [encode, decodeFields, ifZero, zero3_eq, zero4_eq]
  | sclip d a b c | swrap d a b c => simp [encode, decodeFields, ifZero, zero4_eq]
  | slin d a b c e => simp [encode, decodeFields, ifZero]

/-- Settles O1: the fields read back, and the operand checks pass a well-formed instruction. -/
theorem decodeInvertsEncode : Obligations.DecodeInvertsEncode := fun i hwf =>
  decode_eq_ok.mpr ⟨decodeFields_encode i, hwf⟩

/-- Settles O2: the word has its row's zeros, so it is its opcode and its operands and nothing else. -/
theorem decodedWordIsItsEncoding : Obligations.DecodedWordIsItsEncoding := by
  intro w i h
  obtain ⟨hfields, hwf⟩ := decode_eq_ok.mp h
  obtain ⟨r, hr, hop, hzero, rfl⟩ := decodeFields_eq_ok.mp hfields
  refine ⟨hwf, ?_⟩
  rw [encode_read r hr, ← hop, Layout.word_eq hzero]

end Sys2Proof
end

section
/-! The rows of opcode_table.json (R156, R165) against the decoder's: a word masked is a row's match when its opcode is
the row's and each required-zero run is zero. -/

namespace Sys2Proof

/-- The word whose bits `lo` to `lo + n - 1` are one. -/
def runMask (lo n : Nat) : Word := (BitVec.allOnes n).setWidth 32 <<< lo

/-- The word whose bits are one in the runs `(lo, n)` of the list. -/
def runsMask (runs : List (Nat × Nat)) : Word := runs.foldr (fun r m => runMask r.1 r.2 ||| m) 0

/-- Two words agree under a mask when they agree in each bit the mask has. -/
theorem and_eq_and_iff {v w m : Word} :
    w &&& m = v &&& m ↔ ∀ k, m.getLsbD k = true → w.getLsbD k = v.getLsbD k := by
  constructor
  · intro h k hk
    simpa [hk] using congrArg (·.getLsbD k) h
  · intro h
    refine BitVec.eq_of_getLsbD_eq fun k _ => ?_
    cases hk : m.getLsbD k <;> simp [hk, h]

theorem getLsbD_runMask {lo n k : Nat} : (runMask lo n).getLsbD k = true ↔ k < 32 ∧ lo ≤ k ∧ k < lo + n := by
  simp only [runMask, BitVec.getLsbD_shiftLeft, BitVec.getLsbD_setWidth, BitVec.getLsbD_allOnes, Bool.and_eq_true,
    Bool.not_eq_true', decide_eq_true_eq, decide_eq_false_iff_not]
  omega

theorem and_runMask_eq_iff {v w : Word} {lo n : Nat} :
    w &&& runMask lo n = v &&& runMask lo n ↔ bits w lo n = bits v lo n := by
  rw [and_eq_and_iff]
  simp only [getLsbD_runMask]
  constructor
  · intro h
    refine BitVec.eq_of_getLsbD_eq fun j hj => ?_
    simp only [bits, BitVec.getLsbD_extractLsb', hj, decide_true, Bool.true_and]
    by_cases hk : lo + j < 32
    · exact h _ ⟨hk, by omega, by omega⟩
    · simp [BitVec.getLsbD_of_ge, Nat.le_of_not_lt hk]
  · rintro h k ⟨-, hlo, hhi⟩
    obtain ⟨j, rfl⟩ := Nat.exists_eq_add_of_le hlo
    have hj : j < n := by omega
    simpa [bits, hj] using congrArg (·.getLsbD j) h

theorem and_or_eq_iff {v w a b : Word} :
    w &&& (a ||| b) = v &&& (a ||| b) ↔ w &&& a = v &&& a ∧ w &&& b = v &&& b := by
  simp only [and_eq_and_iff, BitVec.getLsbD_or, Bool.or_eq_true, or_imp, forall_and]

/-- Two words agree under the mask of some runs when they agree on each run. -/
theorem and_runsMask_eq_iff {v w : Word} (runs : List (Nat × Nat)) :
    w &&& runsMask runs = v &&& runsMask runs ↔ ∀ r ∈ runs, bits w r.1 r.2 = bits v r.1 r.2 := by
  induction runs with
  | nil => simp [runsMask]
  | cons r runs ih => rw [List.forall_mem_cons, ← ih, ← and_runMask_eq_iff, ← and_or_eq_iff]; rfl

/-! ## The rows -/

/-- The runs of bits the table's mask requires to be zero. For LDP they are the table's, which hold `p < 64` too. -/
def Layout.zeroRuns : Layout → List (Nat × Nat)
  | .bare => [(0, 26)]
  | .period => [(16, 10)]
  | .dImm => [(16, 7)]
  | .dIndex => [(6, 17)]
  | .a => [(0, 20), (23, 3)]
  | .ab => [(0, 17), (23, 3)]
  | .da => [(0, 20)]
  | .daCh => [(0, 17), (18, 2)]
  | .dab => [(0, 17)]
  | .dabc => [(0, 14)]
  | .dabce => [(0, 11)]

/-- The zeros of the table's mask are the decoder's, and for LDP also the index check. -/
theorem Layout.zeroRuns_iff (l : Layout) (w : Word) :
    (∀ r ∈ l.zeroRuns, bits w r.1 r.2 = 0) ↔
      l.zero w = true ∧ (l = .dIndex → (immField w).toNat < Config.nparam) := by
  cases l with
  | dIndex =>
    simp only [Layout.zeroRuns, Layout.zero, zeroI, immField, Machine.nparam_eq, List.forall_mem_singleton,
      forall_const, beq_iff_eq, bits_eq_zero_iff, bits_toNat]
    omega
  | _ =>
    simp [Layout.zeroRuns, Layout.zero, zeroZ, zeroIn, zeroI, zeroA, zeroAB, zero2, zero3, zero4, zero5, zeroCh, dField]

/-- The row's match: its opcode and zeros. -/
def DecoderRow.pattern (r : DecoderRow) : Word := rWord r.op 0 0 0 0 0

/-- The row's mask: the opcode and the required zeros. -/
def DecoderRow.mask (r : DecoderRow) : Word := runsMask ((26, 6) :: r.layout.zeroRuns)

theorem opcodeTable_eq : Claims.opcodeTable = decoderRows.map fun r => (r.pattern.toNat, r.mask.toNat) := by decide

theorem pattern_and_mask : ∀ r ∈ decoderRows, r.pattern &&& r.mask = r.pattern ∧
    ∀ z ∈ r.layout.zeroRuns, bits r.pattern z.1 z.2 = 0 := by decide

/-- A word matches a row of the table when it has the row's opcode and the zeros of its mask. -/
theorem and_mask_eq_pattern {r : DecoderRow} (hr : r ∈ decoderRows) (w : Word) :
    w &&& r.mask = r.pattern ↔ opField w = r.op ∧ ∀ z ∈ r.layout.zeroRuns, bits w z.1 z.2 = 0 := by
  obtain ⟨hmask, hzero⟩ := pattern_and_mask r hr
  have hop : bits r.pattern 26 6 = r.op := opField_rWord ..
  have agree : w &&& r.mask = r.pattern ↔
      ∀ z ∈ (26, 6) :: r.layout.zeroRuns, bits w z.1 z.2 = bits r.pattern z.1 z.2 := by
    rw [← and_runsMask_eq_iff, ← DecoderRow.mask, hmask]
  rw [agree, List.forall_mem_cons, hop]
  exact and_congr_right' (forall₂_congr fun z hz => by rw [hzero z hz])

/-- The operands a row reads are well-formed when SKIPEV's period is not zero and LDP's index names a parameter. -/
theorem read_wf : ∀ r ∈ decoderRows, ∀ w, (r.read w).wf = true ↔
    (r.layout = .dIndex → (immField w).toNat < Config.nparam) ∧ (r.pattern.toNat = 0x08000000 → immField w ≠ 0) := by
  simp [decoderRows, Instr.wf, DecoderRow.pattern, rWord]

/-- The legal words by the decoder's rows. -/
theorem exists_decode_iff (w : Word) : (∃ i, decode w = .ok i) ↔
    ∃ r ∈ decoderRows, w &&& r.mask = r.pattern ∧ (r.pattern.toNat = 0x08000000 → immField w ≠ 0) := by
  constructor
  · rintro ⟨i, h⟩
    obtain ⟨hfields, hwf⟩ := decode_eq_ok.mp h
    obtain ⟨r, hr, hop, hzero, rfl⟩ := decodeFields_eq_ok.mp hfields
    obtain ⟨hindex, hperiod⟩ := (read_wf r hr w).mp hwf
    exact ⟨r, hr, (and_mask_eq_pattern hr w).mpr ⟨hop, (r.layout.zeroRuns_iff w).mpr ⟨hzero, hindex⟩⟩, hperiod⟩
  · rintro ⟨r, hr, hmatch, hperiod⟩
    obtain ⟨hop, hruns⟩ := (and_mask_eq_pattern hr w).mp hmatch
    obtain ⟨hzero, hindex⟩ := (r.layout.zeroRuns_iff w).mp hruns
    have hfields : decodeFields w = .ok (r.read w) := decodeFields_eq_ok.mpr ⟨r, hr, hop, hzero, rfl⟩
    exact ⟨r.read w, decode_eq_ok.mpr ⟨hfields, (read_wf r hr w).mpr ⟨hindex, hperiod⟩⟩⟩

/-- Settles O3: the table is the decoder's rows, each with its match and mask. -/
theorem legalWordsAreTheTableRows : Obligations.LegalWordsAreTheTableRows := by
  intro w
  simp only [exists_decode_iff, opcodeTable_eq, List.mem_map, exists_exists_and_eq_and, BitVec.ofNat_toNat,
    BitVec.setWidth_eq]
  rfl

/-- A well-formed instruction is what its word decodes to. -/
theorem decode_of_encode {w : Word} {i : Instr} (hw : encode i = w) (hwf : i.wf = true) : decode w = .ok i :=
  hw ▸ decodeInvertsEncode i hwf

/-- Settles O4: each worked word is the encoding of its instruction. -/
theorem workedEncodings : Obligations.WorkedEncodings :=
  ⟨decode_of_encode rfl rfl, decode_of_encode rfl rfl, decode_of_encode rfl rfl, decode_of_encode rfl rfl,
    decode_of_encode rfl rfl, decode_of_encode rfl rfl, decode_of_encode rfl rfl, decode_of_encode rfl rfl,
    decode_of_encode rfl rfl⟩

end Sys2Proof
end

section
/-! The step of a word that does not decode (R158; 60_exceptions.md R502, R503). -/

namespace Sys2Proof.Machine

/-- A fetched word that does not decode is the fault ILLEGAL_INSN with `pc` and the word captured. -/
theorem State.fetch_of_decode_error {s : State} {e : DecodeError} (hpc : s.pc.toNat < Config.progLen)
    (h : decode (s.pmem s.pc.toNat) = .error e) :
    s.fetch = .faulted (s.raiseFault causeIllegal s.pc (s.pmem s.pc.toNat)) := by
  rcases s.fetch_cases with ⟨hover, -⟩ | ⟨-, -, -, hfetch⟩ | ⟨-, i, hok, -⟩
  · omega
  · exact hfetch
  · cases h.symm.trans hok

/-- Settles O6: a reserved opcode does not decode, so the fetch faults. -/
theorem reservedOpcodeFaults : Obligations.ReservedOpcodeFaults := by
  intro s hframe hpc hres
  rw [step_inside s hframe, State.fetch_of_decode_error hpc (decode_reserved hres)]
  exact congrArg _ (s.raiseFault_eq _ _ _)

end Sys2Proof.Machine
end

-- ==== Proofs of the arithmetic family (40_sample_arith.md): O15, O16, O17, O18, O19, O28, O32, O39, O40, O41, O42, O43, O44 ====
section
/-! The instructions of 40_sample_arith.md R220 to R241: the result, flags and frame of each, how they accrue flags
(R208), and that the Sample operations work lane by lane (R209). -/

namespace Sys2Proof.Machine

open Sys2Proof.Claims

/-! ## What completing an instruction leaves -/

section Completing

variable (s : State) (d : RegIdx)

theorem next_retS_lanes2 (f : Word → Word → FRes) (x y : Sample) : (.next (s.retS d (lanes2 f x y)) : Result) =
    .next (sampleDone s d ⟨(f x.l y.l).val, (f x.r y.r).val⟩ ((f x.l y.l).flags ||| (f x.r y.r).flags)) := rfl

theorem next_retS_lanes2_bothLanes (f : Word → Word → FRes) (x : Sample) (w : Word) :
    (.next (s.retS d (lanes2 f x (bothLanes w))) : Result) =
      .next (sampleDone s d ⟨(f x.l w).val, (f x.r w).val⟩ ((f x.l w).flags ||| (f x.r w).flags)) := rfl

theorem next_retS_lanesF2 (f : Word → Word → Word → FRes) (x : Sample) (u v : Word) :
    (.next (s.retS d (lanesF2 f x u v)) : Result) =
      .next (sampleDone s d ⟨(f x.l u v).val, (f x.r u v).val⟩ ((f x.l u v).flags ||| (f x.r u v).flags)) := rfl

theorem next_retF (r : FRes) : (.next (s.retF d r) : Result) = .next (scalarDone s d r.val r.flags) := rfl

theorem next_putS (v : Sample) : (.next (s.putS d v) : Result) = .next (sampleMoved s d v) := rfl

theorem next_putF (v : Word) : (.next (s.putF d v) : Result) = .next (scalarMoved s d v) := rfl

/-- The two products' and the sum's results and flags of SLIN, lane by lane. -/
theorem next_retS_linF (p q : Word) (x y : Sample) :
    (.next (s.retS d (ofLanes (linF p x.l q y.l) (linF p x.r q y.r))) : Result) =
      .next (sampleDone s d
        ⟨(fadd (fmul p x.l).val (fmul q y.l).val).val, (fadd (fmul p x.r).val (fmul q y.r).val).val⟩
        ((fmul p x.l).flags ||| (fmul q y.l).flags ||| (fadd (fmul p x.l).val (fmul q y.l).val).flags |||
          ((fmul p x.r).flags ||| (fmul q y.r).flags ||| (fadd (fmul p x.r).val (fmul q y.r).val).flags))) := rfl

/-- R241: the immediate is the upper half of the word. -/
theorem ldiValue_eq (imm : BitVec 16) : ldiValue imm = BitVec.ofNat 32 (imm.toNat * 65536) := by
  apply BitVec.eq_of_toNat_eq
  rw [ldiValue, BitVec.toNat_append, BitVec.toNat_ofNat, BitVec.toNat_ofNat, Nat.shiftLeft_eq]
  have := imm.isLt
  simp only [Nat.zero_mod, Nat.or_zero]
  omega

end Completing

/-! ## Results -/

/-- Settles O15: each of the four is its operation on both lanes. -/
theorem sampleArithmeticResults : Obligations.SampleArithmeticResults := by
  unfold Obligations.SampleArithmeticResults
  intro s d a b
  exact ⟨next_retS_lanes2 s d fadd _ _, next_retS_lanes2 s d fsub _ _,
    next_retS_lanes2 s d fmul _ _, next_retS_lanes2 s d fdiv _ _⟩

/-- Settles O16: the scalar stands in both lanes of the second operand. -/
theorem sampleScalarResults : Obligations.SampleScalarResults := by
  unfold Obligations.SampleScalarResults
  intro s d a b
  exact ⟨next_retS_lanes2_bothLanes s d fadd _ _, next_retS_lanes2_bothLanes s d fsub _ _,
    next_retS_lanes2_bothLanes s d fmul _ _, next_retS_lanes2_bothLanes s d fdiv _ _⟩

/-- Settles O17: SCLIP moves what its two comparisons select, SWRAP and SLIN are their operations on both lanes. -/
theorem clipWrapLinResults : Obligations.ClipWrapLinResults := by
  unfold Obligations.ClipWrapLinResults
  intro s d a b c e
  exact ⟨next_putS s d _, next_retS_lanesF2 s d wrapF _ _ _, next_retS_linF s d _ _ _ _⟩

/-- Settles O18: each is a move of its operand; LDI's operand is the immediate in the upper half. -/
theorem moveAndLoadResults : Obligations.MoveAndLoadResults := by
  unfold Obligations.MoveAndLoadResults
  intro s d a b imm p _
  refine ⟨next_putS s d _, next_putS s d _, next_putF s d _, next_putF s d _, next_putF s d _, ?_, next_putF s d _⟩
  rw [← ldiValue_eq]
  exact next_putF s d _

/-- Settles O19: each of the four is its operation on the two scalars. -/
theorem scalarArithmeticResults : Obligations.ScalarArithmeticResults := by
  unfold Obligations.ScalarArithmeticResults
  intro s d a b
  exact ⟨next_retF s d _, next_retF s d _, next_retF s d _, next_retF s d _⟩

/-! ## Flags -/

/-- ORing flags in clears none. -/
theorem flags_and_or_self (f g : FlagSet) : f &&& (f ||| g) = f := by
  ext i
  simp only [BitVec.getElem_and, BitVec.getElem_or]
  cases f[i] <;> rfl

/-- An instruction outside R208's list leaves FFLAGS alone. -/
theorem exec_fflags_of_not_writesFlags {i : Instr} {s t : State} (h : exec i s = .next t)
    (hi : writesFlags i = false) : t.fflags = s.fflags := by
  cases i
  case endp => cases h; exact s.finishFrame_fflags _
  case bwr a b => cases h; rw [State.bufWrite_eq]; rfl
  all_goals cases hi <;> (cases h; rfl)

/-- An instruction ORs flags into FFLAGS, the seventeen of R208's list by `retS` or `retF`. -/
theorem exec_fflags_or {i : Instr} {s t : State} (h : exec i s = .next t) : ∃ f, t.fflags = s.fflags ||| f := by
  cases hi : writesFlags i with
  | false => exact ⟨0#5, by rw [exec_fflags_of_not_writesFlags h hi, BitVec.or_zero]⟩
  | true =>
    cases i
    all_goals cases hi <;> (cases h; exact ⟨_, rfl⟩)

/-- Settles O28: FFLAGS only gains what an instruction ORs in. -/
theorem flagAccrual : Obligations.FlagAccrual := by
  unfold Obligations.FlagAccrual
  intro i s t h
  obtain ⟨f, hf⟩ := exec_fflags_or h
  exact ⟨by rw [hf, flags_and_or_self], exec_fflags_of_not_writesFlags h⟩

/-! ## Lanes -/

section Lanes

variable (s : State) (d : RegIdx)

/-- The left lane of every sample register. -/
def State.leftLane (s : State) (j : RegIdx) : Word := (s.getS j).l

/-- The right lane of every sample register. -/
def State.rightLane (s : State) (j : RegIdx) : Word := (s.getS j).r

/-- A result without flags, as the moves give it in each lane. -/
def FRes.quiet (w : Word) : FRes := ⟨w, flagNone⟩

/-- A move is a result whose lanes raise nothing. -/
theorem putS_eq_retS (v : Sample) : s.putS d v = s.retS d (ofLanes (.quiet v.l) (.quiet v.r)) := by
  have none : s.fflags ||| (flagNone ||| flagNone) = s.fflags := by rw [BitVec.or_self, flagNone, BitVec.or_zero]
  rw [State.putS_eq, State.retS_eq]
  simp only [ofLanes, FRes.quiet, none]

/-- R209: a Sample operation is one operation on the scalars and a lane, done on either lane alike. -/
theorem exec_laneOp {i : Instr} (h : isLaneOp i = true) :
    ∃ (d : RegIdx) (f : Vector Word 8 → (RegIdx → Word) → FRes), ∀ s : State,
      exec i s = .next (s.retS d (ofLanes (f s.freg s.leftLane) (f s.freg s.rightLane))) := by
  cases i
  case sadd d a b => exact ⟨d, fun _ x => fadd (x a) (x b), fun _ => rfl⟩
  case ssub d a b => exact ⟨d, fun _ x => fsub (x a) (x b), fun _ => rfl⟩
  case smul d a b => exact ⟨d, fun _ x => fmul (x a) (x b), fun _ => rfl⟩
  case sdiv d a b => exact ⟨d, fun _ x => fdiv (x a) (x b), fun _ => rfl⟩
  case saddf d a b => exact ⟨d, fun r x => fadd (x a) r[b.toNat], fun _ => rfl⟩
  case ssubf d a b => exact ⟨d, fun r x => fsub (x a) r[b.toNat], fun _ => rfl⟩
  case smulf d a b => exact ⟨d, fun r x => fmul (x a) r[b.toNat], fun _ => rfl⟩
  case sdivf d a b => exact ⟨d, fun r x => fdiv (x a) r[b.toNat], fun _ => rfl⟩
  case sclip d a b c =>
    exact ⟨d, fun r x => .quiet (clipF (x a) r[b.toNat] r[c.toNat]),
      fun s => congrArg Host.Outcome.next (putS_eq_retS s d _)⟩
  case swrap d a b c => exact ⟨d, fun r x => wrapF (x a) r[b.toNat] r[c.toNat], fun _ => rfl⟩
  case slin d a b c e => exact ⟨d, fun r x => linF r[c.toNat] (x a) r[e.toNat] (x b), fun _ => rfl⟩
  case smov d a => exact ⟨d, fun _ x => .quiet (x a), fun s => congrArg Host.Outcome.next (putS_eq_retS s d _)⟩
  all_goals cases h

theorem getS_retS (r : SRes) (j : RegIdx) : (s.retS d r).getS j = if j = d then r.val else s.getS j := by
  split_ifs with h
  · subst h; exact s.getS_setS_same j _
  · exact s.getS_setS_ne h _

/-- After a result the left lanes hold its left lane at the destination and what they held elsewhere. -/
theorem leftLane_retS (l r : FRes) (j : RegIdx) :
    ((s.retS d (ofLanes l r)).getS j).l = if j = d then l.val else s.leftLane j := by
  rw [getS_retS]
  split_ifs <;> rfl

theorem rightLane_retS (l r : FRes) (j : RegIdx) :
    ((s.retS d (ofLanes l r)).getS j).r = if j = d then r.val else s.rightLane j := by
  rw [getS_retS]
  split_ifs <;> rfl

/-- The state with the lanes of every sample register exchanged. -/
def State.swapped (s : State) : State := { s with sreg := s.sreg.map swapLanes }

theorem leftLane_swapped : s.swapped.leftLane = s.rightLane := by
  funext j
  simp [State.leftLane, State.rightLane, State.getS, State.swapped, swapLanes]

theorem rightLane_swapped : s.swapped.rightLane = s.leftLane := by
  funext j
  simp [State.leftLane, State.rightLane, State.getS, State.swapped, swapLanes]

/-- Exchanging the lanes before a result with exchanged lanes exchanges them after it. -/
theorem sreg_swapped_retS (l r : FRes) :
    (s.swapped.retS d (ofLanes r l)).sreg = (s.retS d (ofLanes l r)).sreg.map swapLanes := by
  simp [State.swapped, ofLanes, swapLanes, Vector.map_set]

end Lanes

/-- Settles O32, both parts from the one operation that a Sample operation does on either lane. -/
theorem lanesAreIndependent : Obligations.LanesAreIndependent := by
  unfold Obligations.LanesAreIndependent
  constructor
  · intro i s₁ s₂ t₁ t₂ hi hfreg h₁ h₂
    obtain ⟨d, f, hf⟩ := exec_laneOp hi
    cases (hf s₁).symm.trans h₁
    cases (hf s₂).symm.trans h₂
    constructor
    · intro agree j
      have lanes : s₁.leftLane = s₂.leftLane := funext agree
      rw [leftLane_retS, leftLane_retS, hfreg, lanes]
    · intro agree j
      have lanes : s₁.rightLane = s₂.rightLane := funext agree
      rw [rightLane_retS, rightLane_retS, hfreg, lanes]
  · intro i s t hi h
    obtain ⟨d, f, hf⟩ := exec_laneOp hi
    cases (hf s).symm.trans h
    have run := hf s.swapped
    rw [leftLane_swapped, rightLane_swapped] at run
    exact ⟨_, run, sreg_swapped_retS s d _ _, congrArg (s.fflags ||| ·) (BitVec.or_comm _ _)⟩

end Sys2Proof.Machine
end

section
/-! Rounding to the nearest integer, ties to even, and the integer part of a ratio's binary logarithm. -/

namespace Sys2Proof.Machine

/-! ## The nearest integer -/

section Nearest

variable {a b : Nat}

theorem divNearestEven_mul_right {c : Nat} (hc : 0 < c) : divNearestEven (a * c) (b * c) = divNearestEven a b := by
  have lt_iff (x y : Nat) : x * c < y * c ↔ x < y := Nat.mul_lt_mul_right hc
  simp only [divNearestEven, Nat.mul_div_mul_right a b hc, Nat.mul_mod_mul_right, ← Nat.mul_assoc, lt_iff]

/-- The nearest integer is at most half a divisor away, and even if it is exactly half of one away. -/
theorem divNearestEven_half (a b : Nat) (hb : 0 < b) :
    2 * ((divNearestEven a b * b : Nat) - a : Int).natAbs ≤ b ∧
      (2 * ((divNearestEven a b * b : Nat) - a : Int).natAbs = b → divNearestEven a b % 2 = 0) := by
  have parts : a / b * b + a % b = a := Nat.div_add_mod' a b
  have lt : a % b < b := Nat.mod_lt a hb
  have succ : (a / b + 1) * b = a / b * b + b := Nat.succ_mul _ _
  unfold divNearestEven
  dsimp only
  split_ifs
  · omega
  · rw [succ]; omega
  · rcases Nat.mod_two_eq_zero_or_one (a / b) with even | odd
    · rw [even, Nat.add_zero]; omega
    · rw [odd, succ]; omega

/-- No integer is nearer, and when another is equally near the delivered one is even. -/
theorem divNearestEven_nearest (hb : 0 < b) (m : Nat) :
    ((divNearestEven a b * b : Nat) - a : Int).natAbs ≤ ((m * b : Nat) - a : Int).natAbs ∧
      (((divNearestEven a b * b : Nat) - a : Int).natAbs = ((m * b : Nat) - a : Int).natAbs →
        m ≠ divNearestEven a b → divNearestEven a b % 2 = 0) := by
  obtain ⟨half, even⟩ := divNearestEven_half a b hb
  generalize divNearestEven a b = k at half even ⊢
  rcases Nat.lt_trichotomy m k with below | same | above
  · have : (m + 1) * b ≤ k * b := Nat.mul_le_mul_right b below
    rw [Nat.succ_mul] at this
    omega
  · subst same
    exact ⟨Nat.le_refl _, fun _ ne => absurd rfl ne⟩
  · have : (k + 1) * b ≤ m * b := Nat.mul_le_mul_right b above
    rw [Nat.succ_mul] at this
    omega

theorem le_divNearestEven {m : Nat} (hb : 0 < b) (h : m * b ≤ a) : m ≤ divNearestEven a b := by
  have half := (divNearestEven_half a b hb).1
  by_contra hlt
  have : (divNearestEven a b + 1) * b ≤ m * b := Nat.mul_le_mul_right b (not_le.1 hlt)
  rw [Nat.succ_mul] at this
  omega

/-- An even bound is stayed below exactly under the midpoint to its predecessor. -/
theorem divNearestEven_lt_iff {m : Nat} (hb : 0 < b) (hm : m % 2 = 0) (h0 : 0 < m) :
    divNearestEven a b < m ↔ 2 * a < (2 * m - 1) * b := by
  obtain ⟨half, even⟩ := divNearestEven_half a b hb
  generalize divNearestEven a b = k at half even ⊢
  have bound : (2 * m - 1) * b + b = 2 * (m * b) := by
    rw [← Nat.succ_mul, ← Nat.mul_assoc]
    congr 1
    omega
  constructor
  · intro lt
    have step : (k + 1) * b ≤ m * b := Nat.mul_le_mul_right b lt
    rw [Nat.succ_mul] at step
    rcases Nat.lt_or_ge (2 * a) ((2 * m - 1) * b) with below | atLeast
    · exact below
    · -- at the midpoint `k` is the predecessor of `m`, which is odd
      have tie : 2 * ((k * b : Nat) - a : Int).natAbs = b := by omega
      have eq : (k + 1) * b = m * b := by rw [Nat.succ_mul]; omega
      have := Nat.eq_of_mul_eq_mul_right hb eq
      have := even tie
      omega
  · intro below
    by_contra ge
    have : m * b ≤ k * b := Nat.mul_le_mul_right b (not_lt.1 ge)
    omega

theorem divNearestEven_le {m : Nat} (hb : 0 < b) (h : a ≤ m * b) : divNearestEven a b ≤ m := by
  have half := (divNearestEven_half a b hb).1
  by_contra hlt
  have : (m + 1) * b ≤ divNearestEven a b * b := Nat.mul_le_mul_right b (not_le.1 hlt)
  rw [Nat.succ_mul] at this
  omega

/-- A division without remainder, and no other, is delivered exactly. -/
theorem divNearestEven_exact_iff (hb : 0 < b) : divNearestEven a b * b = a ↔ a % b = 0 := by
  constructor
  · intro h
    rw [← h, Nat.mul_mod_left]
  · intro h
    have : divNearestEven a b = a / b := by
      unfold divNearestEven
      rw [h, if_pos hb]
    rw [this, Nat.div_mul_cancel (Nat.dvd_of_mod_eq_zero h)]

end Nearest

/-! ## The logarithm of a ratio -/

section Logarithm

variable {n d : Nat}

/-- A power of two with an integer exponent on either side of a comparison of naturals. -/
theorem natCast_lt_mul_zpow_iff (n d : Nat) (e : Int) :
    (n : ℚ) < d * 2 ^ e ↔ if 0 ≤ e then n < d * 2 ^ e.toNat else n * 2 ^ (-e).toNat < d := by
  split_ifs with h
  · obtain ⟨k, rfl⟩ := Int.eq_ofNat_of_zero_le h
    rw [Int.toNat_natCast, zpow_natCast]
    exact_mod_cast Iff.rfl
  · obtain ⟨k, hk⟩ := Int.eq_ofNat_of_zero_le (show 0 ≤ -e by omega)
    rw [hk, Int.toNat_natCast, ← neg_neg e, hk, zpow_neg, zpow_natCast, ← div_eq_mul_inv, lt_div_iff₀ (by positivity)]
    exact_mod_cast Iff.rfl

/-- `ratLog2` corrects the difference of the two logarithms by one comparison. -/
theorem ratLog2_eq (n d : Nat) : ratLog2 n d =
    if (n : ℚ) < d * 2 ^ ((n.log2 : Int) - d.log2) then (n.log2 : Int) - d.log2 - 1 else (n.log2 : Int) - d.log2 := by
  simp only [natCast_lt_mul_zpow_iff]
  unfold ratLog2
  dsimp only
  split_ifs <;> simp_all <;> omega

/-- `ratLog2` is the integer part of the binary logarithm. -/
theorem ratLog2_spec (hn : 0 < n) (hd : 0 < d) :
    (d : ℚ) * 2 ^ ratLog2 n d ≤ n ∧ (n : ℚ) < d * 2 ^ (ratLog2 n d + 1) := by
  have nLo : (2 : ℚ) ^ (n.log2 : Int) ≤ n := by exact_mod_cast Nat.log2_self_le hn.ne'
  have nHi : (n : ℚ) < 2 ^ ((n.log2 : Int) + 1) := by exact_mod_cast Nat.lt_log2_self (n := n)
  have dLo : (2 : ℚ) ^ (d.log2 : Int) ≤ d := by exact_mod_cast Nat.log2_self_le hd.ne'
  have dHi : (d : ℚ) < 2 ^ ((d.log2 : Int) + 1) := by exact_mod_cast Nat.lt_log2_self (n := d)
  rw [ratLog2_eq]
  split_ifs with below
  · rw [sub_add_cancel]
    refine ⟨?_, below⟩
    calc (d : ℚ) * 2 ^ ((n.log2 : Int) - d.log2 - 1)
        ≤ 2 ^ ((d.log2 : Int) + 1) * 2 ^ ((n.log2 : Int) - d.log2 - 1) := by gcongr
      _ = 2 ^ (n.log2 : Int) := by rw [← zpow_add₀ two_ne_zero]; congr 1; ring
      _ ≤ n := nLo
  · refine ⟨not_lt.1 below, ?_⟩
    calc (n : ℚ) < 2 ^ ((n.log2 : Int) + 1) := nHi
      _ = 2 ^ (d.log2 : Int) * 2 ^ ((n.log2 : Int) - d.log2 + 1) := by rw [← zpow_add₀ two_ne_zero]; congr 1; ring
      _ ≤ d * 2 ^ ((n.log2 : Int) - d.log2 + 1) := by gcongr

/-- The logarithm's upper bound, cleared of negative exponents. -/
theorem mul_two_pow_lt_of_ratLog2 (hn : 0 < n) (hd : 0 < d) {t u : Nat} (h : ratLog2 n d + 1 + t ≤ u) :
    n * 2 ^ t < d * 2 ^ u := by
  have scaled : (n : ℚ) * 2 ^ (t : Int) < d * 2 ^ (u : Int) := by
    calc (n : ℚ) * 2 ^ (t : Int) < d * 2 ^ (ratLog2 n d + 1) * 2 ^ (t : Int) := by
          gcongr
          exact (ratLog2_spec hn hd).2
      _ = d * 2 ^ (ratLog2 n d + 1 + t) := by rw [mul_assoc, ← zpow_add₀ two_ne_zero]
      _ ≤ d * 2 ^ (u : Int) := by
          gcongr
          exact one_le_two
  exact_mod_cast scaled

/-- The logarithm's lower bound, cleared of negative exponents. -/
theorem mul_two_pow_le_of_ratLog2 (hn : 0 < n) (hd : 0 < d) {t u : Nat} (h : (u : Int) ≤ ratLog2 n d + t) :
    d * 2 ^ u ≤ n * 2 ^ t := by
  have scaled : (d : ℚ) * 2 ^ (u : Int) ≤ n * 2 ^ (t : Int) := by
    calc (d : ℚ) * 2 ^ (u : Int) ≤ d * 2 ^ (ratLog2 n d + t) := by
          gcongr
          exact one_le_two
      _ = d * 2 ^ ratLog2 n d * 2 ^ (t : Int) := by rw [mul_assoc, ← zpow_add₀ two_ne_zero]
      _ ≤ n * 2 ^ (t : Int) := by
          gcongr
          exact (ratLog2_spec hn hd).1
  exact_mod_cast scaled

end Logarithm

end Sys2Proof.Machine
end

section
/-! The pattern that a rounding assembles from its sign, exponent and significand, and the magnitudes that finite
patterns hold (00_scope.md R12, 40_sample_arith.md R204). -/

namespace Sys2Proof.Machine

/-! ## A pattern from its sign and magnitude bits -/

section Pattern

variable {p : Nat} (neg : Bool)

theorem toNat_withSign (hp : p < 2 ^ 31) : (withSign neg (BitVec.ofNat 32 p)).toNat = neg.toNat * 2 ^ 31 + p := by
  have fits : (BitVec.ofNat 32 p).toNat = p := Nat.mod_eq_of_lt (hp.trans (by decide))
  cases neg
  · rw [withSign, if_neg Bool.false_ne_true, fits, Bool.toNat_false, Nat.zero_mul, Nat.zero_add]
  · have disjoint : 2 ^ 31 ||| p = 2 ^ 31 + p := by simpa using (Nat.two_pow_add_eq_or_of_lt hp 1).symm
    rw [withSign, if_pos rfl, BitVec.toNat_or, fits]
    exact disjoint

theorem signBit_withSign (hp : p < 2 ^ 31) : signBit (withSign neg (BitVec.ofNat 32 p)) = neg := by
  rw [signBit_eq, toNat_withSign neg hp]
  cases neg
  · exact decide_eq_false (by simpa using hp)
  · exact decide_eq_true (by simp)

theorem expField_withSign (hp : p < 2 ^ 31) : expField (withSign neg (BitVec.ofNat 32 p)) = p / 2 ^ 23 := by
  rw [expField_eq, toNat_withSign neg hp]
  cases neg <;> simp only [Bool.toNat_false, Bool.toNat_true] <;> omega

theorem fracField_withSign (hp : p < 2 ^ 31) : fracField (withSign neg (BitVec.ofNat 32 p)) = p % 2 ^ 23 := by
  rw [fracField_eq, toNat_withSign neg hp]
  cases neg <;> simp only [Bool.toNat_false, Bool.toNat_true] <;> omega

theorem getLsbD_zero_withSign (hp : p < 2 ^ 31) :
    (withSign neg (BitVec.ofNat 32 p)).getLsbD 0 = decide (p % 2 = 1) := by
  rw [BitVec.getLsbD, toNat_withSign neg hp, Nat.testBit_zero]
  congr 2
  omega

theorem isFinite_withSign (hp : p < 255 * 2 ^ 23) : isFinite (withSign neg (BitVec.ofNat 32 p)) = true := by
  rw [isFinite, expField_withSign neg (by omega), bne_iff_ne]
  omega

/-- The pattern put together from an exponent `j` and a significand `k` of at most 24 bits holds `k * 2^j`; a
significand that has grown to `2^24` carries into the exponent. -/
theorem magOf_withSign {j k : Nat} (hp : j * 2 ^ 23 + k < 2 ^ 31) (hk : k ≤ 2 ^ 24) (hj : j = 0 ∨ 2 ^ 23 ≤ k) :
    magOf (withSign neg (BitVec.ofNat 32 (j * 2 ^ 23 + k))) = k * 2 ^ j := by
  rw [magOf, expField_withSign neg hp, fracField_withSign neg hp]
  rcases Nat.lt_or_ge k (2 ^ 23) with small | large
  · obtain rfl : j = 0 := by omega
    rw [if_pos (by omega), Nat.pow_zero]
    omega
  · rw [if_neg (by omega)]
    rcases Nat.lt_or_ge k (2 ^ 24) with normal | carry
    · rw [show (j * 2 ^ 23 + k) / 2 ^ 23 - 1 = j by omega, show 2 ^ 23 + (j * 2 ^ 23 + k) % 2 ^ 23 = k by omega]
    · obtain rfl : k = 2 ^ 24 := by omega
      rw [show (j * 2 ^ 23 + 2 ^ 24) / 2 ^ 23 - 1 = j + 1 by omega,
        show 2 ^ 23 + (j * 2 ^ 23 + 2 ^ 24) % 2 ^ 23 = 2 ^ 23 by omega]
      ring

end Pattern

/-! ## The magnitudes of the finite patterns -/

/-- A finite magnitude is a significand of at most 24 bits on the grid of its exponent, with all 24 bits above the
smallest exponent. -/
theorem magOf_of_isFinite {w : Word} (hw : isFinite w = true) :
    ∃ m j : Nat, magOf w = m * 2 ^ j ∧ m < 2 ^ 24 ∧ j ≤ 253 ∧ (j = 0 ∨ 2 ^ 23 ≤ m) := by
  have frac := fracField_lt w
  have exp := expField_lt w
  rw [isFinite, bne_iff_ne] at hw
  by_cases sub : expField w = 0
  · exact ⟨fracField w, 0, by rw [magOf_of_subnormal sub, Nat.pow_zero, Nat.mul_one], by omega, by omega, .inl rfl⟩
  · exact ⟨2 ^ 23 + fracField w, expField w - 1, magOf_of_normal sub, by omega, by omega, .inr (by omega)⟩

/-- Every finite magnitude lies below the threshold to infinity (R201), `2^128 - 2^103`. -/
theorem magOf_lt_threshold {w : Word} (hw : isFinite w = true) : magOf w < 2 ^ 149 * (2 ^ 128 - 2 ^ 103) := by
  obtain ⟨m, j, eq, hm, hj, -⟩ := magOf_of_isFinite hw
  calc magOf w = m * 2 ^ j := eq
    _ ≤ (2 ^ 24 - 1) * 2 ^ 253 := Nat.mul_le_mul (by omega) (Nat.pow_le_pow_right (by decide) hj)
    _ < 2 ^ 149 * (2 ^ 128 - 2 ^ 103) := by decide

end Sys2Proof.Machine
end

section
/-! `RN` of a ratio (40_sample_arith.md R201, R204, R208): below the threshold to infinity the result is the significand
`roundSig` on the grid of step `2^roundExp`, both in units of 2^-149; from this its magnitude, its flags, and that no
finite pattern is nearer. -/

namespace Sys2Proof.Machine

/-- The exponent of the grid on which `RN` of `n/d` lies, in units of 2^-149. -/
def roundExp (n d : Nat) : Nat := (max (ratLog2 n d - 23) (-149) + 149).toNat

/-- The significand of `RN` of `n/d` on its grid. -/
def roundSig (n d : Nat) : Nat := divNearestEven (n * 2 ^ 149) (d * 2 ^ roundExp n d)

section Rounding

variable {n d : Nat}

/-! ## The grid -/

/-- The ratio is less than 2^24 steps of its grid. -/
theorem lt_roundExp (hn : 0 < n) (hd : 0 < d) : n * 2 ^ 149 < d * 2 ^ (roundExp n d + 24) :=
  mul_two_pow_lt_of_ratLog2 hn hd (by unfold roundExp; omega)

/-- Above the smallest exponent the ratio is at least 2^23 steps of its grid. -/
theorem roundExp_le (hn : 0 < n) (hd : 0 < d) : roundExp n d = 0 ∨ d * 2 ^ (roundExp n d + 23) ≤ n * 2 ^ 149 := by
  by_cases h : roundExp n d = 0
  · exact .inl h
  · exact .inr (mul_two_pow_le_of_ratLog2 hn hd (by unfold roundExp at h ⊢; omega))

theorem two_pow_roundExp_pos (hd : 0 < d) : 0 < d * 2 ^ roundExp n d := Nat.mul_pos hd (Nat.two_pow_pos _)

theorem roundSig_le (hn : 0 < n) (hd : 0 < d) : roundSig n d ≤ 2 ^ 24 := by
  refine divNearestEven_le (two_pow_roundExp_pos hd) ?_
  calc n * 2 ^ 149 ≤ d * 2 ^ (roundExp n d + 24) := (lt_roundExp hn hd).le
    _ = 2 ^ 24 * (d * 2 ^ roundExp n d) := by ring

theorem le_roundSig (hn : 0 < n) (hd : 0 < d) : roundExp n d = 0 ∨ 2 ^ 23 ≤ roundSig n d := by
  refine (roundExp_le hn hd).imp id fun h => le_divNearestEven (two_pow_roundExp_pos hd) ?_
  calc 2 ^ 23 * (d * 2 ^ roundExp n d) = d * 2 ^ (roundExp n d + 23) := by ring
    _ ≤ n * 2 ^ 149 := h

/-- The threshold is half a step of the topmost grid under `2^24` of its steps. -/
theorem threshold_eq : 2 ^ 128 - 2 ^ 103 = (2 * 2 ^ 24 - 1) * 2 ^ 103 := by decide

/-- Below the threshold to infinity the pattern is that of a finite value. -/
theorem roundPattern_lt (hn : 0 < n) (hd : 0 < d) (h : n < d * (2 ^ 128 - 2 ^ 103)) :
    roundExp n d * 2 ^ 23 + roundSig n d < 255 * 2 ^ 23 := by
  have sig := roundSig_le hn hd
  have scaled : 2 * (n * 2 ^ 149) < (2 * 2 ^ 24 - 1) * (d * 2 ^ 253) := by
    have := Nat.mul_lt_mul_of_pos_right h (Nat.two_pow_pos 150)
    rw [threshold_eq] at this
    calc 2 * (n * 2 ^ 149) = n * 2 ^ 150 := by ring
      _ < d * ((2 * 2 ^ 24 - 1) * 2 ^ 103) * 2 ^ 150 := this
      _ = (2 * 2 ^ 24 - 1) * (d * 2 ^ 253) := by ring
  have exp : roundExp n d ≤ 253 := by
    by_contra large
    obtain ⟨m, hm⟩ : ∃ m, roundExp n d = m + 1 := ⟨roundExp n d - 1, by omega⟩
    have grid : 2 ^ 24 * (d * 2 ^ 253) ≤ n * 2 ^ 149 := by
      calc 2 ^ 24 * (d * 2 ^ 253) ≤ 2 ^ 24 * (d * 2 ^ m) :=
            Nat.mul_le_mul_left _ (Nat.mul_le_mul_left d (Nat.pow_le_pow_right (by decide) (by omega)))
        _ = d * 2 ^ (roundExp n d + 23) := by rw [hm]; ring
        _ ≤ n * 2 ^ 149 := (roundExp_le hn hd).resolve_left (by omega)
    omega
  rcases Nat.lt_or_ge (roundExp n d) 253 with small | top
  · omega
  · have eq : roundExp n d = 253 := by omega
    have : roundSig n d < 2 ^ 24 := by
      rw [roundSig, eq, divNearestEven_lt_iff (by positivity) (by decide) (by decide)]
      exact scaled
    omega

/-! ## The assembled result -/

/-- The fraction that `roundPos` divides is `n/d` in steps of the grid. -/
theorem scaleFrac_grid (n d j : Nat) : ∃ c, 0 < c ∧ (scaleFrac n d ((j : Int) - 149)).1 * c = n * 2 ^ 149 ∧
    (scaleFrac n d ((j : Int) - 149)).2 * c = d * 2 ^ j := by
  unfold scaleFrac
  split_ifs with h
  · refine ⟨2 ^ 149, by decide, rfl, ?_⟩
    rw [Nat.mul_assoc, ← Nat.pow_add]
    congr 2
    omega
  · refine ⟨2 ^ j, Nat.two_pow_pos _, ?_, rfl⟩
    rw [Nat.mul_assoc, ← Nat.pow_add]
    congr 2
    omega

theorem scaleFrac_neg (n d : Nat) {k : Nat} (hk : 0 < k) : scaleFrac n d (-(k : Int)) = (n * 2 ^ k, d) := by
  rw [scaleFrac, if_neg (by omega), neg_neg, Int.toNat_natCast]

/-- `RN` from the threshold on. -/
theorem roundPos_of_overflow {neg : Bool} (h : d * (2 ^ 128 - 2 ^ 103) ≤ n) :
    roundPos neg n d = ⟨withSign neg posInf, flagOF ||| flagNX⟩ := by
  rw [roundPos, if_pos h]

/-- `RN` below the threshold: the pattern of `roundSig` on the grid, inexact if the ratio is no whole number of
steps. -/
theorem roundPos_of_lt {neg : Bool} (h : n < d * (2 ^ 128 - 2 ^ 103)) :
    roundPos neg n d = ⟨withSign neg (BitVec.ofNat 32 (roundExp n d * 2 ^ 23 + roundSig n d)),
      flagIf (n * 2 ^ 149 % (d * 2 ^ roundExp n d) != 0) flagNX |||
        flagIf (n * 2 ^ 149 % (d * 2 ^ roundExp n d) != 0 && isTiny n d) flagUF⟩ := by
  have grid : max (ratLog2 n d - 23) (-149) = (roundExp n d : Int) - 149 := by unfold roundExp; omega
  obtain ⟨c, hc, num, den⟩ := scaleFrac_grid n d (roundExp n d)
  have exact (x : Nat) : (x * c != 0) = (x != 0) := by simp [bne, hc.ne']
  rw [roundPos, if_neg (not_le.2 h), roundSig, ← num, ← den, divNearestEven_mul_right hc, Nat.mul_mod_mul_right, exact]
  dsimp only
  rw [grid, sub_add_cancel, Int.toNat_natCast]

/-! ## Flags -/

/-- The result is exact when the ratio is a whole number of steps. -/
theorem inexact_iff (hd : 0 < d) :
    (n * 2 ^ 149 % (d * 2 ^ roundExp n d) != 0) = decide (roundSig n d * 2 ^ roundExp n d * d ≠ n * 2 ^ 149) := by
  have := divNearestEven_exact_iff (a := n * 2 ^ 149) (two_pow_roundExp_pos (n := n) hd)
  rw [← roundSig, ← Nat.mul_assoc, Nat.mul_right_comm] at this
  rw [Bool.eq_iff_iff, bne_iff_ne, decide_eq_true_iff]
  exact not_congr this.symm

/-- Rounded to 24 bits the ratio stays under 2^-126 when it is under 2^-126 by more than half a step (R208). -/
theorem isTiny_iff (hn : 0 < n) (hd : 0 < d) : isTiny n d = true ↔ n * 2 ^ 151 < d * (2 ^ 25 - 1) := by
  unfold isTiny
  dsimp only
  split_ifs with normal low
  · have := mul_two_pow_le_of_ratLog2 hn hd (t := 126) (u := 0) (by omega)
    simp only [false_iff]
    omega
  · have := mul_two_pow_lt_of_ratLog2 hn hd (t := 127) (u := 0) (by omega)
    simp only [true_iff]
    calc n * 2 ^ 151 = 2 ^ 24 * (n * 2 ^ 127) := by ring
      _ < 2 ^ 24 * (d * 2 ^ 0) := Nat.mul_lt_mul_of_pos_left this (by decide)
      _ ≤ d * (2 ^ 25 - 1) := by omega
  · have steps := scaleFrac_neg n d (show 0 < 150 by decide)
    rw [Nat.cast_ofNat] at steps
    rw [decide_eq_true_iff, steps, divNearestEven_lt_iff hd (by decide) (by decide)]
    dsimp only
    omega

/-! ## Sign, magnitude and flags of a finite result -/

section Finite

variable (neg : Bool) (hn : 0 < n) (hd : 0 < d) (h : n < d * (2 ^ 128 - 2 ^ 103))

include hn hd h

theorem isFinite_roundPos : isFinite (roundPos neg n d).val = true := by
  rw [roundPos_of_lt h]
  exact isFinite_withSign neg (roundPattern_lt hn hd h)

theorem signBit_roundPos : signBit (roundPos neg n d).val = neg := by
  rw [roundPos_of_lt h]
  exact signBit_withSign neg ((roundPattern_lt hn hd h).trans (by decide))

theorem magOf_roundPos : magOf (roundPos neg n d).val = roundSig n d * 2 ^ roundExp n d := by
  rw [roundPos_of_lt h]
  exact magOf_withSign neg ((roundPattern_lt hn hd h).trans (by decide)) (roundSig_le hn hd) (le_roundSig hn hd)

/-- The fraction is even when the significand is. -/
theorem getLsbD_zero_roundPos (even : roundSig n d % 2 = 0) : (roundPos neg n d).val.getLsbD 0 = false := by
  rw [roundPos_of_lt h]
  refine (getLsbD_zero_withSign neg ((roundPattern_lt hn hd h).trans (by decide))).trans (decide_eq_false ?_)
  omega

/-- Inexact says that the value differs from the ratio, underflow that it does and the ratio is tiny. -/
theorem flags_roundPos : (roundPos neg n d).flags =
    flagIf (decide (magOf (roundPos neg n d).val * d ≠ n * 2 ^ 149)) flagNX |||
      flagIf (decide (magOf (roundPos neg n d).val * d ≠ n * 2 ^ 149 ∧ n * 2 ^ 151 < d * (2 ^ 25 - 1))) flagUF := by
  have tiny : isTiny n d = decide (n * 2 ^ 151 < d * (2 ^ 25 - 1)) :=
    Bool.eq_iff_iff.2 ((isTiny_iff hn hd).trans decide_eq_true_iff.symm)
  rw [magOf_roundPos neg hn hd h, roundPos_of_lt h, inexact_iff hd, tiny, Bool.decide_and]

/-- No finite pattern is nearer to the ratio. On the grid `roundSig` is the nearest integer; a pattern off the grid has
a smaller exponent, so it lies below the grid's least significand `2^23`, which is at most the ratio. -/
theorem roundPos_nearest {w : Word} (hw : isFinite w = true) :
    ((magOf (roundPos neg n d).val : Int) * d - n * 2 ^ 149).natAbs ≤ ((magOf w : Int) * d - n * 2 ^ 149).natAbs ∧
      (((magOf (roundPos neg n d).val : Int) * d - n * 2 ^ 149).natAbs = ((magOf w : Int) * d - n * 2 ^ 149).natAbs →
        magOf w ≠ magOf (roundPos neg n d).val → (roundPos neg n d).val.getLsbD 0 = false) := by
  obtain ⟨m, e, mag, hm, -, -⟩ := magOf_of_isFinite hw
  have step := two_pow_roundExp_pos (n := n) hd
  have result : magOf (roundPos neg n d).val * d = roundSig n d * (d * 2 ^ roundExp n d) := by
    rw [magOf_roundPos neg hn hd h]
    ring
  have casts : (n : Int) * 2 ^ 149 = (n * 2 ^ 149 : Nat) := by push_cast; rfl
  rw [casts, ← Nat.cast_mul, ← Nat.cast_mul, result]
  clear casts
  rcases Nat.lt_or_ge e (roundExp n d) with off | on
  · have low : magOf w * d < 2 ^ 23 * (d * 2 ^ roundExp n d) := by
      calc magOf w * d = m * (2 ^ e * d) := by rw [mag, Nat.mul_assoc]
        _ < 2 ^ 24 * (2 ^ e * d) := Nat.mul_lt_mul_of_pos_right hm (by positivity)
        _ = 2 ^ 23 * (d * 2 ^ (e + 1)) := by ring
        _ ≤ 2 ^ 23 * (d * 2 ^ roundExp n d) :=
          Nat.mul_le_mul_left _ (Nat.mul_le_mul_left d (Nat.pow_le_pow_right (by decide) off))
    have atMost : 2 ^ 23 * (d * 2 ^ roundExp n d) ≤ n * 2 ^ 149 := by
      calc 2 ^ 23 * (d * 2 ^ roundExp n d) = d * 2 ^ (roundExp n d + 23) := by ring
        _ ≤ n * 2 ^ 149 := (roundExp_le hn hd).resolve_left (by omega)
    have near := (divNearestEven_nearest (a := n * 2 ^ 149) step (2 ^ 23)).1
    rw [← roundSig] at near
    generalize n * 2 ^ 149 = r at atMost near ⊢
    generalize magOf w * d = x at low ⊢
    generalize roundSig n d * (d * 2 ^ roundExp n d) = y at near ⊢
    generalize 2 ^ 23 * (d * 2 ^ roundExp n d) = z at low atMost near
    omega
  · have onGrid : magOf w * d = m * 2 ^ (e - roundExp n d) * (d * 2 ^ roundExp n d) := by
      obtain ⟨i, rfl⟩ := Nat.exists_eq_add_of_le on
      rw [mag, Nat.add_sub_cancel_left]
      ring
    obtain ⟨near, even⟩ := divNearestEven_nearest (a := n * 2 ^ 149) step (m * 2 ^ (e - roundExp n d))
    rw [onGrid]
    refine ⟨near, fun tie ne => getLsbD_zero_roundPos neg hn hd h (even tie fun same => ne ?_)⟩
    exact Nat.eq_of_mul_eq_mul_right hd (by rw [onGrid, result, same, roundSig])

end Finite

end Rounding

end Sys2Proof.Machine
end

section
/-! The flags of `RN` (40_sample_arith.md R208) and `RN` of a ratio whose denominator is a multiple of 2^149, which for
the sum, the wrap and the root is the comparison of whole numbers. -/

namespace Sys2Proof.Machine

/-! ## Flags -/

theorem flags_nx_uf_bits (nx uf : Bool) :
    (flagIf nx flagNX ||| flagIf uf flagUF).getLsbD 0 = nx ∧ (flagIf nx flagNX ||| flagIf uf flagUF).getLsbD 1 = uf ∧
      (flagIf nx flagNX ||| flagIf uf flagUF).getLsbD 2 = false ∧
      (flagIf nx flagNX ||| flagIf uf flagUF).getLsbD 3 = false ∧
      (flagIf nx flagNX ||| flagIf uf flagUF).getLsbD 4 = false := by
  cases nx <;> cases uf <;> decide

/-- Settles O40, bit by bit from the flags of a finite result. -/
theorem inexactAndUnderflowFlags : Obligations.InexactAndUnderflowFlags := by
  unfold Obligations.InexactAndUnderflowFlags
  intro neg n d hn hd h
  dsimp only
  rw [flags_roundPos neg hn hd h]
  obtain ⟨nx, uf, rest⟩ := flags_nx_uf_bits (decide (magOf (roundPos neg n d).val * d ≠ n * 2 ^ 149))
    (decide (magOf (roundPos neg n d).val * d ≠ n * 2 ^ 149 ∧ n * 2 ^ 151 < d * (2 ^ 25 - 1)))
  exact ⟨by rw [nx, decide_eq_true_iff], by rw [uf, decide_eq_true_iff], rest⟩

/-! ## Denominators in units of 2^-149 -/

section Units

variable (neg : Bool) {n c : Nat} (hn : 0 < n) (hc : 0 < c) (h : n < 2 ^ 149 * c * (2 ^ 128 - 2 ^ 103))

include hn hc h

/-- `roundPos_nearest` with the unit cancelled: the ratio is `n/c` units. -/
theorem roundPos_nearest_units {w : Word} (hw : isFinite w = true) :
    ((magOf (roundPos neg n (2 ^ 149 * c)).val * c : Nat) - n : Int).natAbs ≤ ((magOf w * c : Nat) - n : Int).natAbs ∧
      (((magOf (roundPos neg n (2 ^ 149 * c)).val * c : Nat) - n : Int).natAbs =
          ((magOf w * c : Nat) - n : Int).natAbs →
        magOf w ≠ magOf (roundPos neg n (2 ^ 149 * c)).val → (roundPos neg n (2 ^ 149 * c)).val.getLsbD 0 = false) := by
  have cancel (x : Nat) : ((x : Int) * (2 ^ 149 * c : Nat) - n * 2 ^ 149).natAbs =
      2 ^ 149 * ((x * c : Nat) - n : Int).natAbs := by
    have split : (x : Int) * (2 ^ 149 * c : Nat) - n * 2 ^ 149 = 2 ^ 149 * ((x * c : Nat) - n) := by
      push_cast
      ring
    rw [split, Int.natAbs_mul]
    rfl
  obtain ⟨near, even⟩ := roundPos_nearest neg hn (Nat.mul_pos (Nat.two_pow_pos 149) hc) h hw
  rw [cancel, cancel] at near even
  exact ⟨Nat.le_of_mul_le_mul_left near (Nat.two_pow_pos 149), fun tie => even (by rw [tie])⟩

theorem flags_roundPos_units : (roundPos neg n (2 ^ 149 * c)).flags =
    flagIf (decide (magOf (roundPos neg n (2 ^ 149 * c)).val * c ≠ n)) flagNX |||
      flagIf (decide (magOf (roundPos neg n (2 ^ 149 * c)).val * c ≠ n ∧ 4 * n < c * (2 ^ 25 - 1))) flagUF := by
  have cancel (x : Nat) : x * (2 ^ 149 * c) = n * 2 ^ 149 ↔ x * c = n := by
    rw [Nat.mul_left_comm, Nat.mul_comm n]
    exact Nat.mul_right_inj (Nat.two_pow_pos 149).ne'
  have cancelTiny : n * 2 ^ 151 < 2 ^ 149 * c * (2 ^ 25 - 1) ↔ 4 * n < c * (2 ^ 25 - 1) := by
    rw [show n * 2 ^ 151 = 2 ^ 149 * (4 * n) by ring, Nat.mul_assoc]
    exact Nat.mul_lt_mul_left (Nat.two_pow_pos 149)
  rw [flags_roundPos neg hn (Nat.mul_pos (Nat.two_pow_pos 149) hc) h]
  simp only [ne_eq, cancel, cancelTiny]

end Units

/-! ## Exact values -/

/-- `RN` of the magnitude of a finite value gives it back and raises nothing. -/
theorem roundPos_magOf (neg : Bool) {w : Word} (hw : isFinite w = true) (h0 : 0 < magOf w) :
    isFinite (roundPos neg (magOf w) fixUnit).val = true ∧ signBit (roundPos neg (magOf w) fixUnit).val = neg ∧
      magOf (roundPos neg (magOf w) fixUnit).val = magOf w ∧ (roundPos neg (magOf w) fixUnit).flags = flagNone := by
  have below : magOf w < 2 ^ 149 * 1 * (2 ^ 128 - 2 ^ 103) := magOf_lt_threshold hw
  have unit : fixUnit = 2 ^ 149 * 1 := rfl
  have pos : 0 < 2 ^ 149 * 1 := by decide
  rw [unit]
  have near := (roundPos_nearest_units neg h0 one_pos below hw).1
  have exact : magOf (roundPos neg (magOf w) (2 ^ 149 * 1)).val = magOf w := by omega
  refine ⟨isFinite_roundPos neg h0 pos below, signBit_roundPos neg h0 pos below, exact, ?_⟩
  rw [flags_roundPos_units neg h0 one_pos below, exact, Nat.mul_one]
  simp only [ne_eq, not_true, false_and, decide_false]
  rfl

/-- Rounding an exact value that is a binary32 keeps it and raises nothing. -/
theorem roundFrac_fixOf {w : Word} (hw : isFinite w = true) :
    fixOf (roundFrac (fixOf w) fixUnit).val = fixOf w ∧ isFinite (roundFrac (fixOf w) fixUnit).val = true ∧
      (roundFrac (fixOf w) fixUnit).flags = flagNone := by
  unfold roundFrac
  split_ifs with zero
  · exact ⟨zero.symm ▸ by decide, by decide, rfl⟩
  · have pos : 0 < magOf w := by rw [← natAbs_fixOf]; omega
    rw [natAbs_fixOf]
    obtain ⟨finite, sign, mag, flags⟩ := roundPos_magOf (decide (fixOf w < 0)) hw pos
    refine ⟨?_, finite, flags⟩
    have abs := natAbs_fixOf w
    rw [fixOf, sign, mag]
    split_ifs with neg
    · have := of_decide_eq_true neg
      omega
    · have := mt decide_eq_true neg
      omega

/-! ## No rounding gives a NaN -/

theorem isNaN_withSign_posInf (neg : Bool) : isNaN (withSign neg posInf) = false := by cases neg <;> decide

theorem isNaN_withSign_zeroW (neg : Bool) : isNaN (withSign neg zeroW) = false := by cases neg <;> decide

theorem isNaN_roundPos (neg : Bool) {n d : Nat} (hn : 0 < n) (hd : 0 < d) : isNaN (roundPos neg n d).val = false := by
  rcases Nat.lt_or_ge n (d * (2 ^ 128 - 2 ^ 103)) with below | overflow
  · exact isNaN_of_isFinite (isFinite_roundPos neg hn hd below)
  · rw [roundPos_of_overflow overflow]
    exact isNaN_withSign_posInf neg

theorem isNaN_roundFrac (z : Int) {d : Nat} (hd : 0 < d) : isNaN (roundFrac z d).val = false := by
  unfold roundFrac
  split_ifs with zero
  · decide
  · exact isNaN_roundPos _ (Int.natAbs_pos.2 zero) hd

end Sys2Proof.Machine
end

section
/-! The five operations for every kind of operand (40_sample_arith.md R201 to R203): one equation per case. -/

namespace Sys2Proof.Machine

variable {a b : Word}

/-! ## NaN operands -/

theorem nanResult_eq (a b : Word) :
    nanResult a b = ⟨canonNaN, if isSNaN a = true ∨ isSNaN b = true then flagNV else flagNone⟩ := by
  simp only [nanResult, flagIf, Bool.or_eq_true]

theorem fadd_of_isNaN (h : isNaN a = true ∨ isNaN b = true) : fadd a b = nanResult a b := by
  rw [fadd, if_pos (Bool.or_eq_true_iff.2 h)]

theorem fmul_of_isNaN (h : isNaN a = true ∨ isNaN b = true) : fmul a b = nanResult a b := by
  rw [fmul, if_pos (Bool.or_eq_true_iff.2 h)]

theorem fdiv_of_isNaN (h : isNaN a = true ∨ isNaN b = true) : fdiv a b = nanResult a b := by
  rw [fdiv, if_pos (Bool.or_eq_true_iff.2 h)]

/-- The sign flip of the subtraction changes neither a NaN nor whether it signals. -/
theorem fsub_of_isNaN (h : isNaN a = true ∨ isNaN b = true) : fsub a b = nanResult a b := by
  rw [fsub, fadd_of_isNaN (by rwa [isNaN_fneg]), nanResult, isSNaN_fneg, nanResult]

theorem fsqrt_of_isNaN (h : isNaN a = true) : fsqrt a = nanResult a a := by
  rw [fsqrt, if_pos h]

/-! ## Two infinities -/

section InfInf

variable (ha : isInf a = true) (hb : isInf b = true)

include ha hb

theorem fadd_inf_inf : fadd a b = if signBit a = signBit b then ⟨a, flagNone⟩ else invalidResult := by
  by_cases signs : signBit a = signBit b <;> simp [fadd, isNaN_of_isInf, ha, hb, signs]

theorem fsub_inf_inf : fsub a b = if signBit a = signBit b then invalidResult else ⟨a, flagNone⟩ := by
  rw [fsub, fadd_inf_inf ha (by rwa [isInf_fneg]), signBit_fneg]
  cases signBit a <;> cases signBit b <;> rfl

theorem fmul_inf_inf : fmul a b = ⟨withSign (signXor a b) posInf, flagNone⟩ := by
  simp [fmul, isNaN_of_isInf, isZero_of_isInf, ha, hb]

theorem fdiv_inf_inf : fdiv a b = invalidResult := by
  simp [fdiv, isNaN_of_isInf, ha, hb]

end InfInf

/-! ## An infinity and a finite value -/

section InfFin

variable (ha : isInf a = true) (hb : isFinite b = true)

include ha hb

theorem fadd_inf_fin : fadd a b = ⟨a, flagNone⟩ := by
  simp [fadd, isNaN_of_isInf, isNaN_of_isFinite, isInf_of_isFinite, ha, hb]

theorem fadd_fin_inf : fadd b a = ⟨a, flagNone⟩ := by
  simp [fadd, isNaN_of_isInf, isNaN_of_isFinite, isInf_of_isFinite, ha, hb]

theorem fsub_inf_fin : fsub a b = ⟨a, flagNone⟩ := fadd_inf_fin ha (by rwa [isFinite_fneg])

theorem fsub_fin_inf : fsub b a = ⟨fneg a, flagNone⟩ := fadd_fin_inf (by rwa [isInf_fneg]) hb

theorem fmul_inf_fin :
    fmul a b = if isZero b then invalidResult else ⟨withSign (signXor a b) posInf, flagNone⟩ := by
  simp [fmul, isNaN_of_isInf, isZero_of_isInf, isNaN_of_isFinite, ha, hb]

theorem fmul_fin_inf : fmul b a = fmul a b := by
  rw [fmul_inf_fin ha hb]
  have sign : signXor b a = signXor a b := bne_comm
  simp [fmul, isNaN_of_isInf, isZero_of_isInf, isNaN_of_isFinite, ha, hb, sign]

theorem fdiv_inf_fin : fdiv a b = ⟨withSign (signXor a b) posInf, flagNone⟩ := by
  simp [fdiv, isNaN_of_isInf, isNaN_of_isFinite, isInf_of_isFinite, ha, hb]

theorem fdiv_fin_inf : fdiv b a = ⟨withSign (signXor b a) zeroW, flagNone⟩ := by
  simp [fdiv, isNaN_of_isInf, isNaN_of_isFinite, isInf_of_isFinite, ha, hb]

end InfFin

/-! ## Two finite values -/

section FinFin

variable (ha : isFinite a = true) (hb : isFinite b = true)

include ha hb

theorem fadd_fin_fin : fadd a b =
    if fixOf a + fixOf b = 0 then ⟨withSign (isZero a && isZero b && signBit a && signBit b) zeroW, flagNone⟩
    else roundPos (decide (fixOf a + fixOf b < 0)) (fixOf a + fixOf b).natAbs fixUnit := by
  simp only [fadd, roundFrac, isNaN_of_isFinite, isInf_of_isFinite, ha, hb, Bool.or_false, Bool.false_eq_true, if_false]
  split_ifs <;> rfl

theorem fmul_fin_fin : fmul a b =
    if isZero a || isZero b then ⟨withSign (signXor a b) zeroW, flagNone⟩
    else roundPos (signXor a b) (magOf a * magOf b) (fixUnit * fixUnit) := by
  simp only [fmul, isNaN_of_isFinite, isInf_of_isFinite, ha, hb, Bool.or_false, Bool.false_eq_true, if_false]

theorem fdiv_fin_fin : fdiv a b =
    if isZero b then if isZero a then invalidResult else ⟨withSign (signXor a b) posInf, flagDZ⟩
    else if isZero a then ⟨withSign (signXor a b) zeroW, flagNone⟩
    else roundPos (signXor a b) (magOf a) (magOf b) := by
  simp only [fdiv, isNaN_of_isFinite, isInf_of_isFinite, ha, hb, Bool.or_false, Bool.false_eq_true, if_false]

end FinFin

/-! ## The root -/

theorem fsqrt_of_isZero (h : isZero a = true) : fsqrt a = ⟨a, flagNone⟩ := by
  simp [fsqrt, isNaN_of_isFinite (isFinite_of_isZero h), h]

theorem fsqrt_of_negative (h : fixOf a < 0) (hn : isNaN a = false) : fsqrt a = invalidResult := by
  obtain ⟨neg, nonzero⟩ := fixOf_neg_iff.1 h
  simp [fsqrt, hn, nonzero, neg]

theorem fsqrt_posInf : fsqrt posInf = ⟨posInf, flagNone⟩ := by
  have kinds : isNaN posInf = false ∧ isZero posInf = false ∧ signBit posInf = false ∧ isInf posInf = true := by decide
  obtain ⟨nan, zero, sign, inf⟩ := kinds
  simp [fsqrt, nan, zero, sign, inf]

/-! ## Zeros -/

theorem isZero_and_signBit_iff : (isZero a = true ∧ signBit a = true) ↔ a = 0x80000000 := by
  constructor
  · rintro ⟨zero, sign⟩
    rw [eq_of_isZero zero, sign]
    rfl
  · rintro rfl
    decide

/-- R201: the sum of two negative zeros is the only exact zero sum that is negative. -/
theorem fadd_eq_zero (ha : isFinite a = true) (hb : isFinite b = true) (h : fixOf a + fixOf b = 0) :
    fadd a b = ⟨if a = 0x80000000 ∧ b = 0x80000000 then 0x80000000 else 0, flagNone⟩ := by
  have both : (isZero a && isZero b && signBit a && signBit b) = true ↔ a = 0x80000000 ∧ b = 0x80000000 := by
    simp only [← isZero_and_signBit_iff, Bool.and_eq_true]
    tauto
  rw [fadd_fin_fin ha hb, if_pos h]
  simp only [withSign, both]
  split_ifs <;> rfl

theorem fsub_eq_zero (ha : isFinite a = true) (hb : isFinite b = true) (h : fixOf a - fixOf b = 0) :
    fsub a b = ⟨if a = 0x80000000 ∧ b = 0 then 0x80000000 else 0, flagNone⟩ := by
  have flip : fneg b = 0x80000000 ↔ b = 0 :=
    ⟨fun hb => by rw [← fneg_fneg b, hb]; rfl, fun hb => by rw [hb]; rfl⟩
  rw [fsub, fadd_eq_zero ha (by rwa [isFinite_fneg]) (by rwa [fixOf_fneg, ← sub_eq_add_neg])]
  simp only [flip]

theorem getLsbD_fneg (a : Word) {k : Nat} (hk : k < 32) : (fneg a).getLsbD k = (a.getLsbD k != decide (k = 31)) := by
  rw [fneg, BitVec.getLsbD_xor]
  rcases Nat.lt_or_ge k 31 with low | top
  · rw [signMask_getLsbD low, decide_eq_false (by omega)]
  · obtain rfl : k = 31 := by omega
    rfl

/-! ## Every operand -/

/-- Settles O41, each clause from the equation of its operands' kinds. -/
theorem floatSpecialCases : Obligations.FloatSpecialCases := by
  unfold Obligations.FloatSpecialCases
  refine ⟨fun a b ha hb => ⟨fadd_eq_zero ha hb, fsub_eq_zero ha hb, ?_, ?_, ?_, ?_⟩,
    fun a b ha hb => ⟨fadd_inf_inf ha hb, fsub_inf_inf ha hb, fmul_inf_inf ha hb, fdiv_inf_inf ha hb⟩,
    fun a b ha hb => ⟨fadd_inf_fin ha hb, fadd_fin_inf ha hb, fsub_inf_fin ha hb, fsub_fin_inf ha hb,
      fmul_inf_fin ha hb, fmul_fin_inf ha hb, fdiv_inf_fin ha hb, ?_⟩,
    ?_, fsqrt_of_isZero (by decide), fsqrt_of_isZero (by decide), fsqrt_posInf, ?_, ?_, ?_⟩
  · intro zero
    rw [fmul_fin_fin ha hb, if_pos (Bool.or_eq_true_iff.2 zero)]
    rfl
  · intro za zb
    rw [fdiv_fin_fin ha hb, zb, za]
    rfl
  · intro za zb
    rw [fdiv_fin_fin ha hb, zb, za]
    rfl
  · intro za zb
    rw [fdiv_fin_fin ha hb, zb, za]
    rfl
  · rw [fdiv_fin_inf ha hb, signXor, bne_comm]
    rfl
  · intro a neg
    have below : fixOf a < 0 := by
      simp only [flt, Bool.and_eq_true, decide_eq_true_iff] at neg
      exact neg.2
    exact fsqrt_of_negative below (isNaN_of_flt_left neg)
  · intro a b nan
    rw [fadd_of_isNaN nan, fsub_of_isNaN nan, fmul_of_isNaN nan, fdiv_of_isNaN nan, nanResult_eq]
    exact ⟨rfl, rfl, rfl, rfl⟩
  · intro a nan
    rw [fsqrt_of_isNaN nan, nanResult_eq]
    simp only [or_self]
  · intro a k hk
    exact getLsbD_fneg a hk

end Sys2Proof.Machine
end

section
/-! The square root (40_sample_arith.md R202): the doubled integer root with its sticky half compares with every even
number as the exact root does, so rounding it rounds the root. -/

namespace Sys2Proof.Machine

/-! ## The doubled root with its sticky half -/

/-- Twice the integer root of `n`, and one more if `n` is no square. -/
def stickyRoot (n : Nat) : Nat := if isqrt n * isqrt n = n then 2 * isqrt n else 2 * isqrt n + 1

theorem le_stickyRoot_iff (n x : Nat) : 2 * x ≤ stickyRoot n ↔ x * x ≤ n := by
  rw [← Nat.le_sqrt, ← isqrt_eq, stickyRoot]
  split_ifs <;> omega

theorem stickyRoot_le_iff (n x : Nat) : stickyRoot n ≤ 2 * x ↔ n ≤ x * x := by
  obtain ⟨lo, hi⟩ := isqrt_spec n
  unfold stickyRoot
  split_ifs with square
  · rw [Nat.mul_le_mul_left_iff Nat.two_pos, ← Nat.mul_self_le_mul_self_iff, square]
  · constructor
    · intro le
      have : (isqrt n + 1) * (isqrt n + 1) ≤ x * x := Nat.mul_self_le_mul_self (by omega)
      omega
    · intro le
      have : isqrt n < x := Nat.mul_self_lt_mul_self_iff.1 (by omega)
      omega

/-- In steps of `1/(4h)` the sticky root of `m (2h)^2` lies to `s/2` as the root of `m` does. -/
theorem stickyRoot_scaled_le_iff {h : Nat} (hh : 0 < h) (m s : Nat) :
    stickyRoot (m * (2 * h * (2 * h))) ≤ 2 * (h * s) ↔ 4 * m ≤ s ^ 2 := by
  rw [stickyRoot_le_iff, show m * (2 * h * (2 * h)) = h * h * (4 * m) by ring,
    show h * s * (h * s) = h * h * s ^ 2 by ring]
  exact Nat.mul_le_mul_left_iff (Nat.mul_pos hh hh)

theorem le_stickyRoot_scaled_iff {h : Nat} (hh : 0 < h) (m s : Nat) :
    2 * (h * s) ≤ stickyRoot (m * (2 * h * (2 * h))) ↔ s ^ 2 ≤ 4 * m := by
  rw [le_stickyRoot_iff, show m * (2 * h * (2 * h)) = h * h * (4 * m) by ring,
    show h * s * (h * s) = h * h * s ^ 2 by ring]
  exact Nat.mul_le_mul_left_iff (Nat.mul_pos hh hh)

/-! ## The root of a finite positive value -/

/-- The square of the root in units of 2^-149. -/
def rootSquare (a : Word) : Nat := magOf a * 2 ^ 149

/-- The sticky root that `fsqrt` rounds, in steps of `2^-102` units. -/
def rootSig (a : Word) : Nat := stickyRoot (rootSquare a * (2 * 2 ^ 100 * (2 * 2 ^ 100)))

theorem magOf_pos_of_fixOf_pos {a : Word} (pos : 0 < fixOf a) : 0 < magOf a := by
  rw [← natAbs_fixOf]
  omega

theorem fsqrt_eq_roundPos {a : Word} (ha : isFinite a = true) (pos : 0 < fixOf a) :
    fsqrt a = roundPos false (rootSig a) (2 ^ 149 * (4 * 2 ^ 100)) := by
  have nonzero : isZero a = false := by
    rw [← Bool.not_eq_true, ← fixOf_eq_zero]
    omega
  have guard : 2 ^ sqrtGuard = 2 * 2 ^ 100 * (2 * 2 ^ 100) := by decide
  have halfGuard : 2 * 2 ^ (sqrtGuard / 2) = 4 * 2 ^ 100 := by decide
  have num : magOf a * 2 ^ (149 + sqrtGuard) = rootSquare a * (2 * 2 ^ 100 * (2 * 2 ^ 100)) := by
    rw [rootSquare, Nat.mul_assoc, Nat.pow_add, guard]
  have den : 2 * 2 ^ (149 + sqrtGuard / 2) = 2 ^ 149 * (4 * 2 ^ 100) := by
    rw [Nat.pow_add, Nat.mul_left_comm, halfGuard]
  rw [fsqrt, isNaN_of_isFinite ha, nonzero, signBit_of_fixOf_pos pos, isInf_of_isFinite ha, rootSig, stickyRoot]
  simp only [Bool.false_eq_true, if_false, num, den]

/-- The root lies on the same side of half a sum of magnitudes as the sticky root. -/
theorem rootSig_le_iff (a : Word) (s : Nat) : rootSig a ≤ 2 * (2 ^ 100 * s) ↔ 4 * rootSquare a ≤ s ^ 2 :=
  stickyRoot_scaled_le_iff (Nat.two_pow_pos 100) _ s

theorem le_rootSig_iff (a : Word) (s : Nat) : 2 * (2 ^ 100 * s) ≤ rootSig a ↔ s ^ 2 ≤ 4 * rootSquare a :=
  le_stickyRoot_scaled_iff (Nat.two_pow_pos 100) _ s

/-- The root of a positive value is at least 2^-75, far above the smallest normal binary32. -/
theorem le_rootSig {a : Word} (pos : 0 < fixOf a) : 2 * (2 ^ 100 * 2 ^ 75) ≤ rootSig a := by
  rw [le_rootSig_iff, rootSquare]
  have := magOf_pos_of_fixOf_pos pos
  omega

/-- A value under a bound of at least one unit has its root under the bound. -/
theorem four_mul_lt_sq {m u t : Nat} (h : m < u * t) (ht : 0 < t) : 4 * (m * u) < (2 * (u * t)) ^ 2 := by
  have hu : 0 < u := Nat.pos_of_mul_pos_right (Nat.zero_lt_of_lt h)
  calc 4 * (m * u) < 4 * (u * t * u) := by gcongr
    _ ≤ 4 * (u * t * (u * t)) := by
      gcongr
      exact Nat.le_mul_of_pos_right u ht
    _ = (2 * (u * t)) ^ 2 := by ring

/-- No root reaches the threshold to infinity. -/
theorem rootSig_lt {a : Word} (ha : isFinite a = true) : rootSig a < 2 ^ 149 * (4 * 2 ^ 100) * (2 ^ 128 - 2 ^ 103) := by
  have small := four_mul_lt_sq (magOf_lt_threshold ha) (by decide)
  rw [← rootSquare, ← not_le, ← le_rootSig_iff, not_le] at small
  calc rootSig a < 2 * (2 ^ 100 * (2 * (2 ^ 149 * (2 ^ 128 - 2 ^ 103)))) := small
    _ = 2 ^ 149 * (4 * 2 ^ 100) * (2 ^ 128 - 2 ^ 103) := by ac_rfl

/-- A magnitude is the root exactly if it is the sticky root. -/
theorem eq_rootSig_iff (a : Word) (r : Nat) : r * (4 * 2 ^ 100) = rootSig a ↔ r ^ 2 = rootSquare a := by
  have steps : r * (4 * 2 ^ 100) = 2 * (2 ^ 100 * (2 * r)) := by ring
  have square : (2 * r) ^ 2 = 4 * r ^ 2 := by ring
  rw [steps, Nat.eq_iff_le_and_ge, Nat.eq_iff_le_and_ge, le_rootSig_iff, rootSig_le_iff, square,
    Nat.mul_le_mul_left_iff (by decide), Nat.mul_le_mul_left_iff (by decide)]

section Root

variable {a : Word} (ha : isFinite a = true) (pos : 0 < fixOf a)

include ha pos

theorem isFinite_fsqrt : isFinite (fsqrt a).val = true ∧ signBit (fsqrt a).val = false := by
  have sig : 0 < rootSig a := (le_rootSig pos).trans_lt' (by decide)
  rw [fsqrt_eq_roundPos ha pos]
  exact ⟨isFinite_roundPos false sig (by decide) (rootSig_lt ha),
    signBit_roundPos false sig (by decide) (rootSig_lt ha)⟩

/-- No finite pattern is nearer to the root: half the sum of the two magnitudes separates them. -/
theorem fsqrt_nearest {w : Word} (hw : isFinite w = true) :
    (magOf (fsqrt a).val < magOf w → 4 * rootSquare a ≤ (magOf (fsqrt a).val + magOf w) ^ 2) ∧
      (magOf w < magOf (fsqrt a).val → (magOf (fsqrt a).val + magOf w) ^ 2 ≤ 4 * rootSquare a) ∧
      (magOf w ≠ magOf (fsqrt a).val → (magOf (fsqrt a).val + magOf w) ^ 2 = 4 * rootSquare a →
        (fsqrt a).val.getLsbD 0 = false) := by
  have sig : 0 < rootSig a := (le_rootSig pos).trans_lt' (by decide)
  rw [fsqrt_eq_roundPos ha pos]
  obtain ⟨near, even⟩ := roundPos_nearest_units false sig (by decide) (rootSig_lt ha) hw
  rw [← rootSig_le_iff, ← le_rootSig_iff]
  refine ⟨fun lt => by omega, fun lt => by omega, fun ne middle => even ?_ ne⟩
  have le := (rootSig_le_iff a _).2 middle.ge
  have ge := (le_rootSig_iff a _).2 middle.le
  omega

/-- The root is inexact when its square is not the operand, and never tiny. -/
theorem flags_fsqrt : (fsqrt a).flags = if magOf (fsqrt a).val ^ 2 = rootSquare a then flagNone else flagNX := by
  have large := le_rootSig pos
  have notTiny : ¬ 4 * rootSig a < 4 * 2 ^ 100 * (2 ^ 25 - 1) := by omega
  rw [fsqrt_eq_roundPos ha pos, flags_roundPos_units false (by omega) (by decide) (rootSig_lt ha)]
  simp only [notTiny, and_false, ne_eq, eq_rootSig_iff]
  split_ifs with exact
  · rw [decide_eq_false (not_not.2 exact)]
    rfl
  · rw [decide_eq_true exact]
    rfl

end Root

/-! ## Every rounding -/

theorem fixUnit_mul_fixUnit : fixUnit * fixUnit = 2 ^ 298 := by
  rw [show 298 = 149 + 149 from rfl, Nat.pow_add, fixUnit]

/-- Settles O39, from the three parts: the rounding of a ratio, the four operations on finite operands, the root. -/
theorem roundingIsToNearestEven : Obligations.RoundingIsToNearestEven := by
  unfold Obligations.RoundingIsToNearestEven
  refine ⟨fun neg n d hn hd => ⟨roundPos_of_overflow, fun h => ?_⟩, fun a b ha hb => ⟨?_, ?_, ?_⟩, fun a ha pos => ?_⟩
  · exact ⟨isFinite_roundPos neg hn hd h, signBit_roundPos neg hn hd h, fun w hw => roundPos_nearest neg hn hd h hw⟩
  · intro nonzero
    rw [fadd_fin_fin ha hb, if_neg nonzero]
    rfl
  · intro nonzero
    rw [fsub, fadd_fin_fin ha (by rwa [isFinite_fneg]), fixOf_fneg, ← sub_eq_add_neg, if_neg nonzero]
    rfl
  · intro za zb
    simp only [fmul_fin_fin ha hb, fdiv_fin_fin ha hb, za, zb, fixUnit_mul_fixUnit, signXor, Bool.or_self,
      Bool.false_eq_true, if_false, and_self]
  · obtain ⟨finite, positive⟩ := isFinite_fsqrt ha pos
    exact ⟨finite, positive, fun w hw => fsqrt_nearest ha pos hw, flags_fsqrt ha pos⟩

end Sys2Proof.Machine
end

section
/-! NaN results of the operations (40_sample_arith.md R203), SWRAP's wrap (R229), and the special values of the function
units (R206). -/

namespace Sys2Proof.Machine

/-! ## NaN results -/

/-- A result that is the canonical NaN if it is a NaN at all. -/
def FRes.Canonical (r : FRes) : Prop := isNaN r.val = true → r.val = canonNaN

theorem FRes.canonical_of_isNaN_eq_false {r : FRes} (h : isNaN r.val = false) : r.Canonical :=
  fun nan => absurd (h.symm.trans nan) Bool.false_ne_true

theorem canonical_nanResult (a b : Word) : (nanResult a b).Canonical := fun _ => rfl

theorem canonical_invalidResult : invalidResult.Canonical := fun _ => rfl

theorem canonical_inf (neg : Bool) (f : FlagSet) : FRes.Canonical ⟨withSign neg posInf, f⟩ :=
  FRes.canonical_of_isNaN_eq_false (isNaN_withSign_posInf neg)

theorem canonical_zero (neg : Bool) (f : FlagSet) : FRes.Canonical ⟨withSign neg zeroW, f⟩ :=
  FRes.canonical_of_isNaN_eq_false (isNaN_withSign_zeroW neg)

theorem canonical_roundPos (neg : Bool) {n d : Nat} (hn : 0 < n) (hd : 0 < d) : (roundPos neg n d).Canonical :=
  FRes.canonical_of_isNaN_eq_false (isNaN_roundPos neg hn hd)

theorem magOf_pos_of_not_isZero {w : Word} (h : ¬isZero w = true) : 0 < magOf w :=
  Nat.pos_of_ne_zero (mt magOf_eq_zero.1 h)

/-- Every pattern is of one of three kinds. -/
theorem kind_cases (w : Word) : isNaN w = true ∨ isInf w = true ∨ isFinite w = true := by
  rw [isFinite_iff]
  cases isNaN w <;> cases isInf w <;> simp

theorem fadd_canonical (a b : Word) : (fadd a b).Canonical := by
  unfold fadd
  split_ifs with nan infA opposite infB zero
  · exact canonical_nanResult a b
  · exact canonical_invalidResult
  · exact FRes.canonical_of_isNaN_eq_false (isNaN_of_isInf infA)
  · exact FRes.canonical_of_isNaN_eq_false (isNaN_of_isInf infB)
  · exact canonical_zero _ _
  · exact FRes.canonical_of_isNaN_eq_false (isNaN_roundFrac _ (by decide))

theorem fmul_canonical (a b : Word) : (fmul a b).Canonical := by
  unfold fmul
  split_ifs with nan inf invalid zero
  · exact canonical_nanResult a b
  · exact canonical_invalidResult
  · exact canonical_inf _ _
  · exact canonical_zero _ _
  · rw [Bool.or_eq_true, not_or] at zero
    have pos := Nat.mul_pos (magOf_pos_of_not_isZero zero.1) (magOf_pos_of_not_isZero zero.2)
    exact canonical_roundPos _ pos (by decide)

theorem fdiv_canonical (a b : Word) : (fdiv a b).Canonical := by
  unfold fdiv
  split_ifs with nan infA bothInf infB zeroB bothZero zeroA
  · exact canonical_nanResult a b
  · exact canonical_invalidResult
  · exact canonical_inf _ _
  · exact canonical_zero _ _
  · exact canonical_invalidResult
  · exact canonical_inf _ _
  · exact canonical_zero _ _
  · exact canonical_roundPos _ (magOf_pos_of_not_isZero zeroA) (magOf_pos_of_not_isZero zeroB)

theorem fsqrt_canonical (a : Word) : (fsqrt a).Canonical := by
  rcases kind_cases a with nan | inf | finite
  · rw [fsqrt_of_isNaN nan]
    exact canonical_nanResult a a
  · cases sign : signBit a
    · rw [eq_of_isInf inf, sign]
      exact fsqrt_posInf ▸ canonical_inf false flagNone
    · rw [fsqrt_of_negative (fixOf_neg_iff.2 ⟨sign, isZero_of_isInf inf⟩) (isNaN_of_isInf inf)]
      exact canonical_invalidResult
  · have number := isNaN_of_isFinite finite
    rcases lt_trichotomy (fixOf a) 0 with neg | zero | pos
    · rw [fsqrt_of_negative neg number]
      exact canonical_invalidResult
    · rw [fsqrt_of_isZero (fixOf_eq_zero.1 zero)]
      exact FRes.canonical_of_isNaN_eq_false number
    · exact FRes.canonical_of_isNaN_eq_false (isNaN_of_isFinite (isFinite_fsqrt finite pos).1)

theorem wrapF_canonical (x lo hi : Word) : (wrapF x lo hi).Canonical := by
  unfold wrapF
  split_ifs with special empty
  · exact canonical_invalidResult
  · simp only [Bool.or_eq_true, Bool.not_eq_true', not_or, Bool.not_eq_false] at special
    exact FRes.canonical_of_isNaN_eq_false (isNaN_of_isFinite special.1.2)
  · exact FRes.canonical_of_isNaN_eq_false (isNaN_roundFrac _ (by decide))

/-- Settles O42, operation by operation. -/
theorem naNResultsAreCanonical : Obligations.NaNResultsAreCanonical := by
  unfold Obligations.NaNResultsAreCanonical
  intro a b c
  exact ⟨fadd_canonical a b, fadd_canonical a (fneg b), fmul_canonical a b, fdiv_canonical a b, fsqrt_canonical a,
    wrapF_canonical a b c⟩

/-! ## Wrap -/

section Wrap

variable {x lo hi : Word}

theorem flt_iff_of_isFinite {a b : Word} (ha : isFinite a = true) (hb : isFinite b = true) :
    flt a b = true ↔ fixOf a < fixOf b := by
  simp [flt, isNaN_of_isFinite ha, isNaN_of_isFinite hb]

theorem wrapF_of_not_finite (h : isFinite x = false ∨ isFinite lo = false ∨ isFinite hi = false) :
    wrapF x lo hi = ⟨canonNaN, flagNV⟩ := by
  have special : (!isFinite x || !isFinite lo || !isFinite hi) = true := by
    rcases h with h | h | h <;> simp [h]
  rw [wrapF, if_pos special]
  rfl

/-- The value that SWRAP rounds, in units of 2^-149: `x` moved into `[lo, hi)` by whole spans. -/
def wrapped (x lo hi : Word) : Int := fixOf lo + (fixOf x - fixOf lo) % (fixOf hi - fixOf lo)

variable (hx : isFinite x = true) (hlo : isFinite lo = true) (hhi : isFinite hi = true)

include hx hlo hhi

theorem wrapF_of_empty (h : flt lo hi = false) : wrapF x lo hi = ⟨lo, flagNone⟩ := by
  simp [wrapF, hx, hlo, hhi, h]

theorem wrapF_of_range (h : flt lo hi = true) : wrapF x lo hi = roundFrac (wrapped x lo hi) fixUnit := by
  simp [wrapF, hx, hlo, hhi, h, wrapped]

omit hx hlo hhi

theorem wrapped_eq_sub (x lo hi : Word) :
    wrapped x lo hi = fixOf x - (fixOf x - fixOf lo) / (fixOf hi - fixOf lo) * (fixOf hi - fixOf lo) := by
  rw [wrapped, Int.emod_def]
  ring

theorem wrapped_range (h : fixOf lo < fixOf hi) (x : Word) :
    fixOf lo ≤ wrapped x lo hi ∧ wrapped x lo hi < fixOf hi := by
  have nonneg := Int.emod_nonneg (fixOf x - fixOf lo) (show fixOf hi - fixOf lo ≠ 0 by omega)
  have lt := Int.emod_lt_of_pos (fixOf x - fixOf lo) (show 0 < fixOf hi - fixOf lo by omega)
  unfold wrapped
  omega

theorem wrapped_of_inRange (low : fixOf lo ≤ fixOf x) (high : fixOf x < fixOf hi) : wrapped x lo hi = fixOf x := by
  rw [wrapped, Int.emod_eq_of_lt (by omega) (by omega)]
  omega

theorem wrapped_of_eq_hi (h : fixOf x = fixOf hi) : wrapped x lo hi = fixOf lo := by
  rw [wrapped, h, Int.emod_self, add_zero]

end Wrap

/-- Settles O43: the wrap rounds the one value that whole spans move into the range, which is exact where it is an
operand's. -/
theorem wrapKeepsValuesInRange : Obligations.WrapKeepsValuesInRange := by
  unfold Obligations.WrapKeepsValuesInRange
  intro x lo hi
  refine ⟨wrapF_of_not_finite, fun hx hlo hhi => ⟨wrapF_of_empty hx hlo hhi, fun range => ?_⟩⟩
  have lt := (flt_iff_of_isFinite hlo hhi).1 range
  obtain ⟨low, high⟩ := wrapped_range lt x
  rw [wrapF_of_range hx hlo hhi range]
  refine ⟨⟨_, _, wrapped_eq_sub x lo hi, low, high, rfl⟩, fun notBelow below => ?_, fun top => ?_⟩
  · have above : fixOf lo ≤ fixOf x := not_lt.1 fun h =>
      Bool.false_ne_true (notBelow.symm.trans ((flt_iff_of_isFinite hx hlo).2 h))
    rw [wrapped_of_inRange above ((flt_iff_of_isFinite hx hhi).1 below)]
    exact roundFrac_fixOf hx
  · rw [wrapped_of_eq_hi top]
    exact roundFrac_fixOf hlo

/-! ## Function units -/

section Units

variable {x y : Word}

theorem fsin_of_isZero (h : isZero x = true) : fsin x = x := by
  simp [fsin, isFinite_of_isZero h, h]

theorem fcos_of_isZero (h : isZero x = true) : fcos x = oneF := by
  simp [fcos, isFinite_of_isZero h, h]

theorem fsin_of_not_finite (h : isFinite x = false) : fsin x = canonNaN := by simp [fsin, h]

theorem fcos_of_not_finite (h : isFinite x = false) : fcos x = canonNaN := by simp [fcos, h]

theorem fexp2_of_isNaN (h : isNaN x = true) : fexp2 x = canonNaN := by simp [fexp2, h]

theorem fexp2_of_isInf (h : isInf x = true) : fexp2 x = if signBit x then zeroW else posInf := by
  simp [fexp2, isNaN_of_isInf h, h]

theorem fatan2_of_isNaN (h : isNaN y = true ∨ isNaN x = true) : fatan2 y x = canonNaN := by
  rw [fatan2, if_pos (Bool.or_eq_true_iff.2 h)]

theorem fatan2_of_isZero_left (hy : isZero y = true) (hx : isNaN x = false) :
    fatan2 y x = withSign (signBit y) (if signBit x then rnPi else zeroW) := by
  simp [fatan2, isNaN_of_isFinite (isFinite_of_isZero hy), hy, hx]

theorem fatan2_of_isZero_right (hy : isNaN y = false) (hy0 : isZero y = false) (hx : isZero x = true) :
    fatan2 y x = withSign (signBit y) rnHalfPi := by
  have hx' := isFinite_of_isZero hx
  simp [fatan2, isNaN_of_isFinite, isInf_of_isFinite, hx', hy, hy0, hx]

theorem fatan2_of_isInf_right (hy : isFinite y = true) (hy0 : isZero y = false) (hx : isInf x = true) :
    fatan2 y x = withSign (signBit y) (if signBit x then rnPi else zeroW) := by
  simp [fatan2, isNaN_of_isFinite, isInf_of_isFinite, isNaN_of_isInf, isZero_of_isInf, hy, hy0, hx]

theorem fatan2_of_isInf_left (hy : isInf y = true) (hx : isFinite x = true) :
    fatan2 y x = withSign (signBit y) rnHalfPi := by
  simp [fatan2, isNaN_of_isFinite, isInf_of_isFinite, isNaN_of_isInf, isZero_of_isInf, hy, hx]

theorem fatan2_of_isInf_both (hy : isInf y = true) (hx : isInf x = true) :
    fatan2 y x = withSign (signBit y) (if signBit x then rnThreeQuarterPi else rnQuarterPi) := by
  simp [fatan2, isNaN_of_isInf, isZero_of_isInf, hy, hx]

theorem isFinite_eq_false (h : isNaN x = true ∨ isInf x = true) : isFinite x = false := by
  rw [← Bool.not_eq_true, isFinite_iff]
  rcases h with h | h <;> simp [h]

end Units

/-- Settles O44, unit by unit and kind by kind. -/
theorem functionUnitSpecialValues : Obligations.FunctionUnitSpecialValues := by
  unfold Obligations.FunctionUnitSpecialValues
  refine ⟨fsin_of_isZero (by decide), fsin_of_isZero (by decide), fcos_of_isZero (by decide),
    fcos_of_isZero (by decide),
    fun x inf => ⟨fsin_of_not_finite (isFinite_eq_false (.inr inf)), fcos_of_not_finite (isFinite_eq_false (.inr inf))⟩,
    fexp2_of_isInf (by decide), fexp2_of_isInf (by decide), fun y x zero => ?_,
    fun y x zero number nonzero => fatan2_of_isZero_right number nonzero zero,
    fun y x finite nonzero inf => fatan2_of_isInf_right finite nonzero inf,
    fun y x inf finite => fatan2_of_isInf_left inf finite, fun y x infY infX => fatan2_of_isInf_both infY infX,
    fun x nan => ⟨fsin_of_not_finite (isFinite_eq_false (.inl nan)), fcos_of_not_finite (isFinite_eq_false (.inl nan)),
      fexp2_of_isNaN nan, fun y => ⟨fatan2_of_isNaN (.inl nan), fatan2_of_isNaN (.inr nan)⟩⟩⟩
  by_cases nan : isNaN x = true
  · rw [if_pos nan]
    exact fatan2_of_isNaN (.inr nan)
  · rw [if_neg nan]
    exact fatan2_of_isZero_left zero (eq_false_of_ne_true nan)

end Sys2Proof.Machine
end

-- ==== Proofs of the buffer family (41_buffer.md): O21, O22, O49, O50, O48 ====
section
/-! The ring cursor (41_buffer.md R270) and the Buffer port: where its frames lie (R272 to R274), what BRD and BRD1 read
(R275, R276), what BWR stores (R277, R278), and that a read gives back what was written. -/

namespace Sys2Proof.Machine

open Sys2Proof.Claims

/-! ## Ring cursor -/

/-- `ringAt` is the mathematical remainder, for a negative offset too. -/
theorem ringAt_eq_emod {cur len : Nat} {off : Int} (h : 0 < len) :
    (ringAt cur off len : Int) = ((cur : Int) + off) % (len : Int) :=
  Int.toNat_of_nonneg (Int.emod_nonneg _ (by omega))

/-- Settles O48: `ringAdv` is a remainder by definition, and both remainders lie below `len`. -/
theorem ringCursorOperations : Obligations.RingCursorOperations := by
  unfold Obligations.RingCursorOperations
  intro cur len off h
  exact ⟨rfl, ringAt_eq_emod h, ringAdv_lt h, ringAt_lt h⟩

/-! ## The clamped frame index (R274) -/

theorem clampIdx_of_isNaN (len : Nat) {pos : Word} (h : isNaN pos = true) : clampIdx len pos = 0 :=
  if_pos (by rw [h, Bool.true_or])

theorem clampIdx_negInf (len : Nat) : clampIdx len 0xFF800000 = 0 := if_pos (by decide)

theorem clampIdx_posInf (len : Nat) : clampIdx len 0x7F800000 = len - 1 := by
  rw [clampIdx, if_neg (by decide), if_pos (by decide)]

theorem clampIdx_of_isFinite (len : Nat) {pos : Word} (h : isFinite pos = true) :
    clampIdx len pos = min (floorZ pos).toNat (len - 1) := by
  simp [clampIdx, isNaN_of_isFinite h, isInf_of_isFinite h]

/-- The same as integers, where the floor may be negative. -/
theorem natCast_clampIdx_of_isFinite {len : Nat} (hlen : 1 ≤ len) {pos : Word} (h : isFinite pos = true) :
    (clampIdx len pos : Int) = min (max (fixOf pos / (2 ^ 149 : Int)) 0) ((len : Int) - 1) := by
  have floor : floorZ pos = fixOf pos / (2 ^ 149 : Int) := rfl
  rw [clampIdx_of_isFinite len h, ← floor]
  omega

/-! ## Where the frames lie (R272, R273) -/

section Port

variable {s : State}

theorem stereo_of_two (h : s.live.bufChans = 2) : s.stereo = true := by rw [State.stereo, h]; rfl

theorem stereo_of_one (h : s.live.bufChans = 1) : s.stereo = false := by rw [State.stereo, h]; rfl

theorem frameWord_of_stereo (h : s.stereo = true) (i c : Nat) : s.frameWord i c = 2 * i + c := if_pos h

theorem frameWord_of_mono (h : s.stereo = false) (i c : Nat) : s.frameWord i c = i := by rw [State.frameWord, h]; rfl

/-- All channels of the frames fit into the Buffer's memory. -/
theorem lenEff_mul_chans_le (s : State) : s.lenEff * s.live.bufChans.toNat ≤ Config.bufCap :=
  (Nat.mul_le_mul_right _ (min_le_right _ _)).trans (Nat.div_mul_le_self _ _)

/-- R273: "every word the port forms is below `BUF_CAP`". -/
theorem frameWord_lt (hchans : s.live.bufChans = 1 ∨ s.live.bufChans = 2) {i c : Nat} (hi : i < s.lenEff)
    (hc : c < s.live.bufChans.toNat) : s.frameWord i c < Config.bufCap := by
  have fits := lenEff_mul_chans_le s
  rcases hchans with one | two
  · rw [frameWord_of_mono (stereo_of_one one)]
    rw [one, show (1 : BitVec 2).toNat = 1 from rfl] at fits
    omega
  · rw [frameWord_of_stereo (stereo_of_two two)]
    rw [two, show (2 : BitVec 2).toNat = 2 from rfl] at fits hc
    omega

theorem stereo_clampIdx_lt (frames : s.lenEff ≠ 0) (two : s.live.bufChans = 2) (pos : Word) {c : Nat} (hc : c < 2) :
    2 * clampIdx s.lenEff pos + c < Config.bufCap := by
  rw [← frameWord_of_stereo (stereo_of_two two)]
  exact frameWord_lt (.inr two) (clampIdx_lt (Nat.pos_of_ne_zero frames) pos) (by rwa [two])

theorem mono_clampIdx_lt (frames : s.lenEff ≠ 0) (one : s.live.bufChans = 1) (pos : Word) :
    clampIdx s.lenEff pos < Config.bufCap := by
  rw [← frameWord_of_mono (stereo_of_one one) (clampIdx s.lenEff pos) 0]
  exact frameWord_lt (.inl one) (clampIdx_lt (Nat.pos_of_ne_zero frames) pos) (by rw [one]; decide)

/-! ## Reads (R275, R276) -/

theorem bufRead_of_empty (empty : s.lenEff = 0) (pos : Word) : s.bufRead pos = ⟨0, 0⟩ := if_pos empty

theorem bufRead_of_stereo (frames : s.lenEff ≠ 0) (h : s.stereo = true) (pos : Word) : s.bufRead pos =
    ⟨s.mem.word (bufAddr (2 * clampIdx s.lenEff pos)), s.mem.word (bufAddr (2 * clampIdx s.lenEff pos + 1))⟩ := by
  rw [State.bufRead, if_neg frames]
  simp only [frameWord_of_stereo h, State.bufGet, Nat.add_zero]

theorem bufRead_of_mono (frames : s.lenEff ≠ 0) (h : s.stereo = false) (pos : Word) : s.bufRead pos =
    ⟨s.mem.word (bufAddr (clampIdx s.lenEff pos)), s.mem.word (bufAddr (clampIdx s.lenEff pos))⟩ := by
  rw [State.bufRead, if_neg frames]
  simp only [frameWord_of_mono h, State.bufGet]

theorem bufRead1_of_empty (empty : s.lenEff = 0) (pos : Word) (c : Nat) : s.bufRead1 pos c = 0 := if_pos empty

theorem bufRead1_of_stereo (frames : s.lenEff ≠ 0) (h : s.stereo = true) (pos : Word) (c : Nat) :
    s.bufRead1 pos c = s.mem.word (bufAddr (2 * clampIdx s.lenEff pos + c)) := by
  rw [State.bufRead1, if_neg frames, frameWord_of_stereo h, State.bufGet]

theorem bufRead1_of_mono (frames : s.lenEff ≠ 0) (h : s.stereo = false) (pos : Word) (c : Nat) :
    s.bufRead1 pos c = s.mem.word (bufAddr (clampIdx s.lenEff pos)) := by
  rw [State.bufRead1, if_neg frames, frameWord_of_mono h, State.bufGet]

/-! ## Writes (R277, R278) -/

theorem Memory.word_setWord_bufAddr_same {m : Memory} (hm : m.wf = true) {i : Nat} (hi : i < Config.bufCap) (w : Word) :
    (m.setWord (bufAddr i) w).word (bufAddr i) = w :=
  (Memory.setWord_stores hm (fun _ hj => bufAddr_mapped hi hj) w).1

theorem Memory.word_setWord_bufAddr_ne {m : Memory} {i j : Nat} (h : j ≠ i) (w : Word) :
    (m.setWord (bufAddr i) w).word (bufAddr j) = m.word (bufAddr j) :=
  Memory.word_setWord_outside (by unfold bufAddr; omega) w

theorem bufWrite_of_empty (empty : s.lenEff = 0) (pos : Word) (v : Sample) : s.bufWrite pos v = s := if_pos empty

theorem bufWrite_mem_of_stereo (frames : s.lenEff ≠ 0) (h : s.stereo = true) (pos : Word) (v : Sample) :
    (s.bufWrite pos v).mem = (s.mem.setWord (bufAddr (2 * clampIdx s.lenEff pos)) v.l).setWord
      (bufAddr (2 * clampIdx s.lenEff pos + 1)) v.r := by
  rcases s.bufWrite_cases pos v with ⟨empty, -⟩ | ⟨-, -, hw⟩ | ⟨-, mono, -⟩
  · exact absurd empty frames
  · rw [hw]
  · rw [h] at mono
    cases mono

theorem bufWrite_mem_of_mono (frames : s.lenEff ≠ 0) (h : s.stereo = false) (pos : Word) (v : Sample) :
    (s.bufWrite pos v).mem = s.mem.setWord (bufAddr (clampIdx s.lenEff pos)) (fadd v.l v.r).val := by
  rcases s.bufWrite_cases pos v with ⟨empty, -⟩ | ⟨-, stereo, -⟩ | ⟨-, -, hw⟩
  · exact absurd empty frames
  · rw [h] at stereo
    cases stereo
  · rw [hw]

/-- A stereo frame's first word holds the left lane after a write: the second word's store does not reach it. -/
theorem bufWrite_word_left (hm : s.mem.wf = true) (frames : s.lenEff ≠ 0) (two : s.live.bufChans = 2) (pos : Word)
    (v : Sample) : (s.bufWrite pos v).mem.word (bufAddr (2 * clampIdx s.lenEff pos)) = v.l := by
  rw [bufWrite_mem_of_stereo frames (stereo_of_two two), Memory.word_setWord_bufAddr_ne (Nat.lt_succ_self _).ne]
  exact Memory.word_setWord_bufAddr_same hm (stereo_clampIdx_lt frames two pos (c := 0) (by decide)) _

theorem bufWrite_word_right (hm : s.mem.wf = true) (frames : s.lenEff ≠ 0) (two : s.live.bufChans = 2) (pos : Word)
    (v : Sample) : (s.bufWrite pos v).mem.word (bufAddr (2 * clampIdx s.lenEff pos + 1)) = v.r := by
  rw [bufWrite_mem_of_stereo frames (stereo_of_two two)]
  exact Memory.word_setWord_bufAddr_same (Memory.wf_setWord hm _ _) (stereo_clampIdx_lt frames two pos (by decide)) _

theorem bufWrite_word_mono (hm : s.mem.wf = true) (frames : s.lenEff ≠ 0) (one : s.live.bufChans = 1) (pos : Word)
    (v : Sample) : (s.bufWrite pos v).mem.word (bufAddr (clampIdx s.lenEff pos)) = (fadd v.l v.r).val := by
  rw [bufWrite_mem_of_mono frames (stereo_of_one one)]
  exact Memory.word_setWord_bufAddr_same hm (mono_clampIdx_lt frames one pos) _

theorem bufWrite_byte_of_stereo (frames : s.lenEff ≠ 0) (h : s.stereo = true) (pos : Word) (v : Sample) {x : Nat}
    (hx : x < 0x100000 + 8 * clampIdx s.lenEff pos ∨ 0x100000 + 8 * clampIdx s.lenEff pos + 8 ≤ x) :
    (s.bufWrite pos v).mem.byte x = s.mem.byte x := by
  rw [bufWrite_mem_of_stereo frames h,
    Memory.byte_setWord_outside (by unfold bufAddr Config.bufBase; omega),
    Memory.byte_setWord_outside (by unfold bufAddr Config.bufBase; omega)]

theorem bufWrite_byte_of_mono (frames : s.lenEff ≠ 0) (h : s.stereo = false) (pos : Word) (v : Sample) {x : Nat}
    (hx : x < 0x100000 + 4 * clampIdx s.lenEff pos ∨ 0x100000 + 4 * clampIdx s.lenEff pos + 4 ≤ x) :
    (s.bufWrite pos v).mem.byte x = s.mem.byte x := by
  rw [bufWrite_mem_of_mono frames h]
  exact Memory.byte_setWord_outside hx _

/-! ## A read after a write at the same position -/

@[simp] theorem bufWrite_lenEff (s : State) (pos : Word) (v : Sample) : (s.bufWrite pos v).lenEff = s.lenEff := by
  rw [State.bufWrite_eq]; rfl

@[simp] theorem bufWrite_stereo (s : State) (pos : Word) (v : Sample) : (s.bufWrite pos v).stereo = s.stereo := by
  rw [State.bufWrite_eq]; rfl

@[simp] theorem getF_bufWrite (s : State) (pos : Word) (v : Sample) (i : RegIdx) :
    (s.bufWrite pos v).getF i = s.getF i := by
  rw [State.bufWrite_eq]; rfl

theorem bufRead_bufWrite_of_two (hm : s.mem.wf = true) (frames : s.lenEff ≠ 0) (two : s.live.bufChans = 2)
    (pos : Word) (v : Sample) : (s.bufWrite pos v).bufRead pos = v := by
  have stereo := stereo_of_two two
  rw [bufRead_of_stereo (by rwa [bufWrite_lenEff]) (by rwa [bufWrite_stereo]), bufWrite_lenEff,
    bufWrite_word_left hm frames two, bufWrite_word_right hm frames two]

theorem bufRead_bufWrite_of_one (hm : s.mem.wf = true) (frames : s.lenEff ≠ 0) (one : s.live.bufChans = 1)
    (pos : Word) (v : Sample) :
    (s.bufWrite pos v).bufRead pos = ⟨(fadd v.l v.r).val, (fadd v.l v.r).val⟩ := by
  have mono := stereo_of_one one
  rw [bufRead_of_mono (by rwa [bufWrite_lenEff]) (by rwa [bufWrite_stereo]), bufWrite_lenEff,
    bufWrite_word_mono hm frames one]

end Port

/-! ## The three instructions -/

section BufferInstructions

variable (s : State) (a b d : RegIdx)

theorem exec_brd : exec (.brd d a) s = .next (sampleMoved s d (s.bufRead (s.getF a))) := next_putS s d _

theorem exec_brd1 (ch : Bool) : exec (.brd1 d a ch) s = .next (scalarMoved s d (s.bufRead1 (s.getF a) ch.toNat)) := by
  cases ch <;> exact next_putF s d _

/-- BWR changes the memory and `pc` alone. -/
theorem exec_bwr : exec (.bwr a b) s =
    .next { s with mem := (s.bufWrite (s.getF b) (s.getS a)).mem, pc := s.pc + 1 } :=
  congrArg (fun t : State => (.next t.advance : Result)) (s.bufWrite_eq _ _)

/-- BWR and then BRD with the same position register leave in the destination what the port reads back. -/
theorem getS_of_bwr_brd {s t u : State} {a b d : RegIdx} (ht : exec (.bwr a b) s = .next t)
    (hu : exec (.brd d b) t = .next u) :
    u.getS d = (s.bufWrite (s.getF b) (s.getS a)).bufRead (s.getF b) := by
  cases ht
  cases hu
  calc
    _ = (s.bufWrite (s.getF b) (s.getS a)).bufRead ((s.bufWrite (s.getF b) (s.getS a)).getF b) :=
      State.getS_setS_same _ d _
    _ = _ := by rw [getF_bufWrite]

end BufferInstructions

/-! ## The obligations of the Buffer port -/

/-- Settles O49: the floor is clamped by the last frame, and a frame below `LEN_EFF` has its words below `BUF_CAP`. -/
theorem bufferIndexSaturates : Obligations.BufferIndexSaturates := by
  unfold Obligations.BufferIndexSaturates
  intro s pos chans
  refine ⟨rfl, fun frames => ⟨?_, ?_, natCast_clampIdx_of_isFinite frames,
    fun c hc => frameWord_lt chans (clampIdx_lt frames pos) hc⟩⟩
  · rintro (nan | rfl)
    · exact clampIdx_of_isNaN _ nan
    · exact clampIdx_negInf _
  · rintro rfl
    exact clampIdx_posInf _

/-- Settles O21, by the port's answer for each kind of Buffer. -/
theorem bufferReadResults : Obligations.BufferReadResults := by
  unfold Obligations.BufferReadResults
  intro s d a ch
  rw [exec_brd, exec_brd1]
  refine ⟨fun empty => ?_, fun frames two => ?_, fun frames one => ?_⟩
  · rw [bufRead_of_empty empty, bufRead1_of_empty empty]
    exact ⟨rfl, rfl⟩
  · have stereo := stereo_of_two two
    rw [bufRead_of_stereo frames stereo, bufRead1_of_stereo frames stereo]
    exact ⟨rfl, rfl⟩
  · have mono := stereo_of_one one
    rw [bufRead_of_mono frames mono, bufRead1_of_mono frames mono]
    exact ⟨rfl, rfl⟩

/-- Settles O22: the memory is the one the port's write leaves. -/
theorem bufferWriteResults : Obligations.BufferWriteResults := by
  unfold Obligations.BufferWriteResults
  intro s a b hm
  refine ⟨fun empty => ?_, fun frames two => ⟨_, exec_bwr s a b, ?_⟩, fun frames one => ⟨_, exec_bwr s a b, ?_⟩⟩
  · rw [exec_bwr, bufWrite_of_empty empty]
  · exact ⟨bufWrite_word_left hm frames two _ _, bufWrite_word_right hm frames two _ _,
      fun _ hx => bufWrite_byte_of_stereo frames (stereo_of_two two) _ _ hx⟩
  · exact ⟨bufWrite_word_mono hm frames one _ _, fun _ hx => bufWrite_byte_of_mono frames (stereo_of_one one) _ _ hx⟩

/-- Settles O50, from the port's read after its write. -/
theorem bufferReadsBackWhatWasWritten : Obligations.BufferReadsBackWhatWasWritten := by
  unfold Obligations.BufferReadsBackWhatWasWritten
  intro s t u a b d hm frames ht hu
  rw [getS_of_bwr_brd ht hu]
  exact ⟨fun two => bufRead_bufWrite_of_two hm frames two _ _, fun one => bufRead_bufWrite_of_one hm frames one _ _⟩

end Sys2Proof.Machine
end

-- ==== Proofs of the engine family (42_engine.md): O13, O36, O5, O9, O10, O11, O12, O14, O20 ====
section
/-! The rules of the sequencer's operations (42_engine.md R300 to R306): the fetch, the opening of a frame, when a driver
call is enabled and what it is then, and SKIPEV (R318). -/

namespace Sys2Proof.Machine

variable {s t : State}

/-! ## Fetch -/

/-- A fetched word that decodes is the instruction to execute. -/
theorem State.fetch_of_decode_ok {i : Instr} (hpc : s.pc.toNat < Config.progLen)
    (h : decode (s.pmem s.pc.toNat) = .ok i) : s.fetch = .instr i := by
  rcases s.fetch_cases with ⟨hover, -⟩ | ⟨-, e, herr, -⟩ | ⟨-, j, hok, hfetch⟩
  · omega
  · cases h.symm.trans herr
  · cases h.symm.trans hok
    exact hfetch

theorem State.raiseFault_inFrame (s : State) (cause : BitVec 8) (fpc : BitVec 17) (fw : Word) :
    (s.raiseFault cause fpc fw).inFrame = false := by
  rw [State.raiseFault_eq]

theorem State.raiseFault_live (s : State) (cause : BitVec 8) (fpc : BitVec 17) (fw : Word) :
    (s.raiseFault cause fpc fw).live = s.live := by
  rw [State.raiseFault_eq]

/-! ## Frames and blocks -/

theorem State.frameEnabled_iff : s.frameEnabled = true ↔ s.inBlock = true ∧ s.pos.toNat < s.blkF.toNat := by
  simp [State.frameEnabled]

theorem State.frameEnabled_eq_false_iff :
    s.frameEnabled = false ↔ s.inBlock = false ∨ s.blkF.toNat ≤ s.pos.toNat := by
  rw [← Bool.not_eq_true, State.frameEnabled_iff, not_and_or, Bool.not_eq_true, not_lt]

theorem State.programRuns_iff : s.programRuns = true ↔ s.blkRun = true ∧ s.fault = false := by
  simp [State.programRuns]

theorem State.programRuns_eq_false_iff : s.programRuns = false ↔ s.blkRun = false ∨ s.fault = true := by
  rw [← Bool.not_eq_true, State.programRuns_iff, not_and_or, Bool.not_eq_true, Bool.not_eq_false]

/-- The opening of a frame whose program runs. -/
theorem State.frameOpen_of_programRuns (h : s.programRuns = true) (x : Sample) : s.frameOpen x =
    { s with
      frameCnt := s.frameCnt + 1
      sreg := s.sreg.set 0 x
      oacc := Sample.zero
      pc := 0
      inFrame := true } := by
  rw [State.frameOpen, if_pos h]
  rfl

/-- The opening of a silent frame is its end. -/
theorem State.frameOpen_of_silent (h : s.programRuns = false) (x : Sample) :
    s.frameOpen x = ({ s with frameCnt := s.frameCnt + 1 } : State).finishFrame Sample.zero := by
  simp [State.frameOpen, h]

/-- The four inputs of the coefficients are the same (R306). -/
theorem sameBqInputs_iff {p q : Params} : sameBqInputs p q = true ↔
    p.bqMode = q.bqMode ∧ p.bqFreq = q.bqFreq ∧ p.bqQ = q.bqQ ∧ p.rate = q.rate := by
  simp [sameBqInputs, and_assoc]

/-! ## Driver calls -/

theorem State.accept_blockStart (h : s.inBlock = false) (frames : BitVec 32) :
    s.accept (.blockStart frames) = .next (s.blockStart frames) := by
  simp [State.accept, h]

theorem State.accept_blockStart_disabled (h : s.inBlock = true) (frames : BitVec 32) :
    s.accept (.blockStart frames) = .fault .blockStartNotEnabled := by
  simp [State.accept, h]

theorem State.accept_frame (h : s.frameEnabled = true) (x : Sample) :
    s.accept (.frame x) = .next (s.frameOpen x) := by
  simp [State.accept, h]

theorem State.accept_frame_disabled (h : s.frameEnabled = false) (x : Sample) :
    s.accept (.frame x) = .fault .frameNotEnabled := by
  simp [State.accept, h]

/-- An accepted BlockStart is the model's `blockStart`. -/
theorem State.eq_blockStart_of_accept {frames : BitVec 32} (h : s.accept (.blockStart frames) = .next t) :
    t = s.blockStart frames := by
  cases hb : s.inBlock with
  | true => exact nomatch (State.accept_blockStart_disabled hb frames).symm.trans h
  | false => cases (State.accept_blockStart hb frames).symm.trans h; rfl

/-- An accepted frame is the model's `frameOpen`. -/
theorem State.eq_frameOpen_of_accept {x : Sample} (h : s.accept (.frame x) = .next t) : t = s.frameOpen x := by
  cases he : s.frameEnabled with
  | true => cases (State.accept_frame he x).symm.trans h; rfl
  | false => exact nomatch (State.accept_frame_disabled he x).symm.trans h

/-! ## SKIPEV -/

/-- SKIPEV at a position its period divides (R318). -/
theorem exec_skipev_of_mod_eq {n : BitVec 16} (h : s.pos.toNat % n.toNat = 0) :
    exec (.skipev n) s = .next { s with pc := s.pc + 1 } := by
  simp [exec, execSkipev, skipPeriod, h]

/-- SKIPEV at a position its period does not divide (R318). -/
theorem exec_skipev_of_mod_ne {n : BitVec 16} (h : s.pos.toNat % n.toNat ≠ 0) :
    exec (.skipev n) s = .next { s with pc := s.pc + 2 } := by
  simp [exec, execSkipev, skipPeriod, h]

end Sys2Proof.Machine
end

section
/-! A frame program ends (42_engine.md R304): every step of it moves `pc` forward or ends the frame, and a fetch past
`PROG_LEN` ends it. -/

namespace Sys2Proof.Machine

variable {s t : State}

/-- Every instruction answers a next state. -/
theorem exec_answers (i : Instr) (s : State) : ∃ t, exec i s = .next t := by
  cases i <;> exact ⟨_, rfl⟩

/-- END ends the frame; every other instruction moves `pc` on by 1 or 2. -/
theorem State.Completes.ends_or_advances (ht : s.Completes t) :
    t.inFrame = false ∨ t.pc = s.pc + 1 ∨ t.pc = s.pc + 2 := by
  cases ht with
  | frameEnd => exact .inl (s.finishFrame_inFrame _)
  | registers _ _ _ _ moved => exact .inr moved
  | bufWrite pos v => exact .inr (.inl (congrArg (· + 1) (s.bufWrite_pc pos v)))
  | delay | comb | biquad | stft => exact .inr (.inl rfl)

/-- A `pc` below `PROG_LEN` does not wrap when it moves on. -/
theorem lt_of_pc_advances {pc pc' : BitVec 17} (h : pc.toNat < Config.progLen) (hpc : pc' = pc + 1 ∨ pc' = pc + 2) :
    pc.toNat < pc'.toNat := by
  rw [progLen_eq] at h
  rcases hpc with rfl | rfl <;> bv_omega

/-- A step of a frame program answers a next state. Either the frame has ended, or an instruction was fetched below
`PROG_LEN` and `pc` has grown. -/
theorem step_ends_or_advances (hf : s.inFrame = true) :
    ∃ t, step s = .next t ∧ (t.inFrame = false ∨ s.pc.toNat < Config.progLen ∧ s.pc.toNat < t.pc.toNat) := by
  rw [step_inside s hf]
  rcases s.fetch_cases with ⟨-, hfetch⟩ | ⟨-, e, -, hfetch⟩ | ⟨hpc, i, -, hfetch⟩ <;> rw [hfetch]
  · exact ⟨_, rfl, .inl (State.raiseFault_inFrame ..)⟩
  · exact ⟨_, rfl, .inl (State.raiseFault_inFrame ..)⟩
  · obtain ⟨t, ht⟩ := exec_answers i s
    exact ⟨t, ht, (exec_completes ht).ends_or_advances.imp_right fun moved => ⟨hpc, lt_of_pc_advances hpc moved⟩⟩

theorem runFrame_of_ended (hf : s.inFrame = false) (k : Nat) : runFrame k s = .next s := by
  cases k with
  | zero => rfl
  | succ k => simp [runFrame, hf]

theorem runFrame_succ (hf : s.inFrame = true) (h : step s = .next t) (k : Nat) :
    runFrame (k + 1) s = runFrame k t := by
  simp [runFrame, hf, h]

/-- With `k` words of `PMEM` left above `pc`, the frame program ends within `k` instructions and one fetch. -/
theorem runFrame_ends {k : Nat} (hk : Config.progLen ≤ s.pc.toNat + k) :
    ∃ t, runFrame (k + 1) s = .next t ∧ t.inFrame = false := by
  induction k generalizing s with
  | zero =>
    cases hf : s.inFrame with
    | false => exact ⟨s, runFrame_of_ended hf _, hf⟩
    | true =>
      obtain ⟨t, ht, ended | ⟨hpc, -⟩⟩ := step_ends_or_advances hf
      · exact ⟨t, runFrame_succ hf ht 0, ended⟩
      · omega
  | succ k ih =>
    cases hf : s.inFrame with
    | false => exact ⟨s, runFrame_of_ended hf _, hf⟩
    | true =>
      obtain ⟨t, ht, ended | ⟨-, advanced⟩⟩ := step_ends_or_advances hf <;> rw [runFrame_succ hf ht]
      · exact ⟨t, runFrame_of_ended ended _, ended⟩
      · exact ih (by omega)

/-- Settles O13: from any `pc` at most `PROG_LEN` words are left. -/
theorem frameProgramTerminates : Obligations.FrameProgramTerminates := by
  unfold Obligations.FrameProgramTerminates
  intro s
  exact runFrame_ends (Nat.le_add_left _ _)

end Sys2Proof.Machine
end

section
/-! What changes LIVE (42_engine.md R305): a commit, a soft reset and a power-on reset, and no other offer, host access or
instruction. -/

namespace Sys2Proof.Machine

variable {s t : State}

/-! ## Inside a frame program -/

theorem State.Completes.live (ht : s.Completes t) : t.live = s.live := by
  cases ht with
  | frameEnd => exact s.finishFrame_live _
  | bufWrite pos v => rw [State.bufWrite_eq]; rfl
  | registers | delay | comb | biquad | stft => rfl

theorem step_inFrame_live (hf : s.inFrame = true) (h : step s = .next t) : t.live = s.live := by
  rw [step_inside s hf] at h
  rcases s.fetch_cases with ⟨-, hfetch⟩ | ⟨-, e, -, hfetch⟩ | ⟨-, i, -, hfetch⟩ <;> rw [hfetch] at h
  · cases h
    exact State.raiseFault_live ..
  · cases h
    exact State.raiseFault_live ..
  · exact (exec_completes h).live

/-! ## Host accesses -/

/-- A performed write of CTRL keeps LIVE, or its SRST bit resets it. -/
theorem State.writeCtrl_live {w : Word} (h : s.writeCtrl w = some t) :
    t.live = s.live ∨ (w.getLsbD 1 = true ∧ t.live = Params.reset) := by
  unfold State.writeCtrl at h
  split_ifs at h with srst bufInit
  · cases h
    exact .inr ⟨srst, rfl⟩
  · rw [State.eq_of_ifStopped h]
    exact .inl rfl
  · cases h
    exact .inl rfl

theorem State.writeReg_live {r : Reg} {w : Word} (h : s.writeReg r w = some t) :
    t.live = s.live ∨ (r = .ctrl ∧ w.getLsbD 1 = true ∧ t.live = Params.reset) := by
  cases r
  case ctrl => exact (State.writeCtrl_live h).imp_right fun reset => ⟨rfl, reset⟩
  case rate | bufLen | bufChans | bufRate => rw [State.eq_of_ifStopped h]; exact .inl rfl
  all_goals cases h <;> exact .inl rfl

theorem State.writeLoc_live {loc : HostLoc} {w : Word} (h : s.writeLoc loc w = some t) :
    t.live = s.live ∨ (loc = .reg .ctrl ∧ w.getLsbD 1 = true ∧ t.live = Params.reset) := by
  cases loc with
  | reg r => exact (State.writeReg_live h).imp_right fun ⟨hr, reset⟩ => ⟨congrArg _ hr, reset⟩
  | param i => cases h; exact .inl rfl
  | pmem i => rw [State.eq_of_ifStopped h]; exact .inl rfl
  | env c k => cases h
  | buf i => rw [State.eq_of_ifStopped h]; exact .inl rfl

theorem State.hostWrite_live (s : State) (a w : Word) : (s.hostWrite a w).live = s.live ∨
    (a = 8 ∧ w.getLsbD 1 = true ∧ (s.hostWrite a w).live = Params.reset) := by
  rcases s.hostWrite_cases a w with ⟨loc, t, hl, ht, hw⟩ | ⟨-, hw⟩ <;> rw [hw]
  · exact (State.writeLoc_live ht).imp_right fun ⟨hc, reset⟩ => ⟨eq_of_hostLoc_ctrl (hc ▸ hl), reset⟩
  · exact .inl rfl

theorem State.hostRead_live (s : State) (a : Word) : (s.hostRead a).live = s.live := by
  rcases s.hostRead_cases a with ⟨loc, -, hr⟩ | ⟨-, hr⟩ <;> rw [hr]

/-! ## Offers and the step -/

/-- The offers that set LIVE, with SHADOW at `shadow`, and the value each sets: a BlockStart, a power-on reset and a CTRL
write with SRST. -/
inductive Input.SetsLive (shadow : Params) : Input → Params → Prop where
  /-- R305 -/
  | commit (frames : BitVec 32) : SetsLive shadow (.blockStart frames) shadow
  /-- 70_reset_and_hazards.md R551 -/
  | powerOn : SetsLive shadow .powerOn Params.reset
  /-- 70_reset_and_hazards.md R552 -/
  | softReset {w : Word} (srst : w.getLsbD 1 = true) : SetsLive shadow (.hostWrite 8 w) Params.reset

theorem State.frameOpen_live (s : State) (x : Sample) : (s.frameOpen x).live = s.live := by
  cases h : s.programRuns with
  | true => rw [State.frameOpen_of_programRuns h]
  | false => rw [State.frameOpen_of_silent h, State.finishFrame_live]

/-- An accepted offer keeps LIVE or is one of the three that set it. -/
theorem State.accept_live {i : Input} (h : s.accept i = .next t) :
    t.live = s.live ∨ i.SetsLive s.shadow t.live := by
  cases i with
  | blockStart frames =>
    rw [State.eq_blockStart_of_accept h, State.blockStart_eq]
    exact .inr (.commit frames)
  | frame x =>
    rw [State.eq_frameOpen_of_accept h]
    exact .inl (s.frameOpen_live x)
  | hostRead a => cases h; exact .inl (s.hostRead_live a)
  | hostWrite a w =>
    cases h
    refine (s.hostWrite_live a w).imp_right ?_
    rintro ⟨rfl, srst, reset⟩
    rw [reset]
    exact .softReset srst
  | powerOn => cases h; exact .inr .powerOn

/-- A step outside a frame that changes LIVE took an offer that sets it. -/
theorem State.acceptNext_live (h : s.acceptNext = .next t) (changed : t.live ≠ s.live) :
    ∃ i rest, s.inputs = i :: rest ∧ i.SetsLive s.shadow t.live := by
  unfold State.acceptNext at h
  split at h
  · cases h
    exact absurd rfl changed
  · next i rest next =>
    exact ⟨i, rest, next, (State.accept_live (s := { s with inputs := rest }) h).resolve_left changed⟩

/-- Settles O36: no step of a frame program changes LIVE, and an offer that changes it is one of the three that set it. -/
theorem liveChangesOnlyAtCommit : Obligations.LiveChangesOnlyAtCommit := by
  unfold Obligations.LiveChangesOnlyAtCommit
  intro s t h changed
  cases hf : s.inFrame with
  | true => exact absurd (step_inFrame_live hf h) changed
  | false =>
    rw [step_outside s hf] at h
    obtain ⟨i, rest, next, sets⟩ := State.acceptNext_live h changed
    refine ⟨rfl, ?_⟩
    generalize t.live = p at sets ⊢
    cases sets with
    | commit frames => exact .inl ⟨frames, rest, next, rfl⟩
    | powerOn => exact .inr (.inl ⟨⟨rest, next⟩, rfl⟩)
    | softReset srst => exact .inr (.inr ⟨⟨_, rest, next, srst⟩, rfl⟩)

end Sys2Proof.Machine
end

section
/-! The step inside a frame (42_engine.md R302), the driver's two calls (R300, R302, R303), and the control and rate
conversion instructions (R315 to R324; 41_buffer.md R285). -/

namespace Sys2Proof.Machine

open Sys2Proof.Claims

variable {s : State}

/-! ## Instructions of a frame program -/

/-- Settles O5: the fetch gives the decoded instruction, and the step executes it. -/
theorem stepRunsTheDecodedInstruction : Obligations.StepRunsTheDecodedInstruction := by
  unfold Obligations.StepRunsTheDecodedInstruction
  intro s i hframe hpc hdecode
  rw [step_inside s hframe, State.fetch_of_decode_ok hpc hdecode]

/-! ## Frames -/

/-- An enabled frame offered is opened on the state outside a frame. -/
theorem step_frame (hb : s.inBlock = true) (hpos : s.pos.toNat < s.blkF.toNat) (x : Sample) :
    step (offer s (.frame x)) = .next ((idle s).frameOpen x) := by
  rw [step_offer]
  exact State.accept_frame (State.frameEnabled_iff.mpr ⟨hb, hpos⟩) x

/-- Settles O9: an enabled frame is opened, and its program runs. -/
theorem frameStartsTheProgram : Obligations.FrameStartsTheProgram := by
  unfold Obligations.FrameStartsTheProgram
  intro s x hb hpos hrun hfault
  have runs : (idle s).programRuns = true := State.programRuns_iff.mpr ⟨hrun, hfault⟩
  rw [step_frame hb hpos, State.frameOpen_of_programRuns runs]
  rfl

/-- Settles O10: an enabled frame is opened, and with the program stopped that is the frame's end. -/
theorem silentFrame : Obligations.SilentFrame := by
  unfold Obligations.SilentFrame
  intro s x hb hpos hsilent
  have silent : (idle s).programRuns = false := State.programRuns_eq_false_iff.mpr hsilent
  rw [step_frame hb hpos, State.frameOpen_of_silent silent, State.finishFrame_eq]
  simp only [idle, hb]

/-! ## BlockStart -/

/-- Settles O11: outside a block a BlockStart is accepted, and the commit compares the four inputs. -/
theorem blockStartCommits : Obligations.BlockStartCommits := by
  unfold Obligations.BlockStartCommits
  intro s frames hb
  rw [step_offer, State.accept_blockStart (s := idle s) hb, State.blockStart_eq]
  simp only [idle, sameBqInputs_iff]

/-- Settles O12: neither call is enabled there. -/
theorem disabledDriverCallsStop : Obligations.DisabledDriverCallsStop := by
  unfold Obligations.DisabledDriverCallsStop
  exact ⟨fun s frames hb => State.accept_blockStart_disabled (s := idle s) hb frames,
    fun s x hno => State.accept_frame_disabled (s := idle s) (State.frameEnabled_eq_false_iff.mpr hno) x⟩

/-! ## Instructions -/

/-- Settles O14: END is the frame's end with output `OACC`, SKIPEV one case or the other, and NOP and OUTADD are what
their rules write. -/
theorem controlInstructionResults : Obligations.ControlInstructionResults := by
  unfold Obligations.ControlInstructionResults
  refine ⟨fun s => ?endp, fun s => rfl, fun s n _ on => exec_skipev_of_mod_eq on,
    fun s n _ off => exec_skipev_of_mod_ne off, fun s a => rfl⟩
  case endp => exact congrArg Host.Outcome.next (s.finishFrame_eq s.oacc)

/-- Settles O20: each is a scalar result; RSCALE's flags are those of the ratio and of the product. -/
theorem rateConversionResults : Obligations.RateConversionResults := by
  unfold Obligations.RateConversionResults
  intro s d a
  exact ⟨next_retF s d _, next_retF s d _, next_retF s d (scaleF (s.getF a) s.live.bufRate s.live.rate)⟩

end Sys2Proof.Machine
end

-- ==== Proofs of the STFT family (43_stft.md): O26, O33, O45 ====
section
/-! The engine (43_stft.md R350, R351): the bit reversal bit by bit, the order of the butterflies, and one butterfly. -/

namespace Sys2Proof.Machine

open Sys2Proof.Claims

/-! ## Bit reversal -/

/-- Of the reversal onto `acc` the low `k` bits are those of `i` reversed, the others those of `acc`. -/
theorem testBit_bitrevLoop (k i acc b : Nat) :
    (bitrevLoop k i acc).testBit b = if b < k then i.testBit (k - 1 - b) else acc.testBit (b - k) := by
  induction k generalizing i acc with
  | zero => rfl
  | succ k ih =>
    rw [bitrevLoop, ih]
    rcases Nat.lt_trichotomy b k with low | rfl | high
    · rw [if_pos low, if_pos (by omega), Nat.testBit_div_two]
      congr 1
      omega
    · rw [if_neg (by omega), if_pos (by omega), Nat.sub_self, Nat.add_sub_cancel, Nat.sub_self, Nat.testBit_zero,
        Nat.testBit_zero]
      congr 2
      omega
    · obtain ⟨n, hn⟩ : ∃ n, b - k = n + 1 := ⟨b - k - 1, by omega⟩
      rw [if_neg (by omega), if_neg (by omega), hn, Nat.testBit_succ, show b - (k + 1) = n by omega]
      congr 1
      omega

theorem testBit_bitrev (k i b : Nat) : (bitrev k i).testBit b = if b < k then i.testBit (k - 1 - b) else false := by
  rw [bitrev, testBit_bitrevLoop, Nat.zero_testBit]

theorem bitrev_lt (k i : Nat) : bitrev k i < 2 ^ k :=
  Nat.lt_pow_two_of_testBit _ fun b hb => by rw [testBit_bitrev, if_neg (by omega)]

/-! ## The order of the butterflies (R350) -/

/-- The input of the engine in bit-reversed places. -/
def bitrevInput (a : Array Cplx) : Array Cplx :=
  ((List.range Config.fftN).map fun i => cplxAt a (bitrev 10 i)).toArray

theorem cplxAt_bitrevInput (a : Array Cplx) {i : Nat} (hi : i < 1024) :
    cplxAt (bitrevInput a) i = cplxAt a (bitrev 10 i) :=
  cplxAt_rangeMap (fun i => cplxAt a (bitrev 10 i)) hi

theorem fft_eq_foldl_stages (fwd : Bool) (a : Array Cplx) :
    fft fwd a = (List.range 10).foldl (fun A s => fftStage fwd (2 ^ (s + 1)) A) (bitrevInput a) := by
  rw [fft, bitrevInput, show Config.fftN.log2 = 10 by decide]

/-- The stage of length `2^(s+1)`, butterfly by butterfly. -/
theorem fftStage_two_pow (fwd : Bool) (s : Nat) (a : Array Cplx) :
    fftStage fwd (2 ^ (s + 1)) a = (List.range (1024 / 2 ^ (s + 1))).foldl (fun A g =>
      (List.range (2 ^ s)).foldl (fun A j =>
        butterfly fwd A (g * 2 ^ (s + 1) + j) (g * 2 ^ (s + 1) + j + 2 ^ s) (j * (1024 / 2 ^ (s + 1)))) A) a := by
  simp only [fftStage, fftGroup, fftN_eq, show 2 ^ (s + 1) / 2 = 2 ^ s by rw [Nat.pow_succ]; omega]

/-- R350. -/
theorem engineMakes_fft (fwd : Bool) (a : Array Cplx) : engineMakes fwd a (fft fwd a) := by
  refine ⟨bitrevInput a, by simp [bitrevInput, fftN_eq], fun i hi => ⟨bitrev 10 i, bitrev_lt 10 i, fun b hb => ?_,
    cplxAt_bitrevInput a hi⟩, ?_⟩
  · rw [testBit_bitrev, if_pos hb]
  · simp only [fft_eq_foldl_stages, fftStage_two_pow]

/-! ## One butterfly (R351) -/

theorem butterflyMakes_butterfly (fwd : Bool) (a : Array Cplx) (p q t : Nat) :
    butterflyMakes fwd a p q t (butterfly fwd a p q t) := by
  intro hp hq hpq ht
  have stored (v w : Cplx) (i : Nat) : cplxAt ((a.setIfInBounds p v).setIfInBounds q w) i =
      if i = q then w else if i = p then v else cplxAt a i := by
    rw [cplxAt_set _ (by rwa [Array.size_setIfInBounds]), cplxAt_set _ hp]
  simp only [butterfly, twiddleTable_getD ht, stored, Array.size_setIfInBounds]
  exact ⟨by rw [if_neg hpq, if_pos trivial], by rw [if_pos trivial], trivial,
    fun i hip hiq => by rw [if_neg hiq, if_neg hip]⟩

end Sys2Proof.Machine
end

section
/-! The shift step of one channel (43_stft.md R346 to R386): what each stage leaves in the arrays, read off the channel
that the whole step leaves. -/

namespace Sys2Proof.Machine

open Sys2Proof.Claims

/-! ## The stages -/

/-- The channel after the analysis of the frame that ends at `hw`. -/
def analysed (hw : Nat) (ch : StftChan) : StftChan := analyse (fft true (extractFrame hw ch.hist)) ch

/-- The channel after the phases are moved on: the shift step but for its overlap-add. -/
def resynthesised (f : Word) (hw : Nat) (ch : StftChan) : StftChan := accumulatePhases (shiftBins f (analysed hw ch))

theorem shiftChan_eq (f : Word) (hw ow : Nat) (ch : StftChan) : shiftChan f hw ow ch =
    overlapAdd ow (fft false (spectrum (resynthesised f hw ch))) (resynthesised f hw ch) := rfl

/-! ## What two channels share that differ in some arrays -/

section Agreement

variable {c c' : StftChan}

theorem StftChan.agree_except_out (h : { c with out := [] } = { c' with out := [] }) :
    c.anaPh = c'.anaPh ∧ c.anaMag = c'.anaMag ∧ c.anaFrq = c'.anaFrq ∧ c.env = c'.env ∧
      c.synPh = c'.synPh ∧ c.synMag = c'.synMag ∧ c.synFrq = c'.synFrq := by
  obtain ⟨-, -, anaPh, anaMag, anaFrq, synPh, synMag, synFrq, env⟩ := StftChan.mk.inj h
  exact ⟨anaPh, anaMag, anaFrq, env, synPh, synMag, synFrq⟩

theorem StftChan.agree_except_synPh (h : { c with synPh := [] } = { c' with synPh := [] }) :
    c.out = c'.out ∧ c.anaPh = c'.anaPh ∧ c.anaMag = c'.anaMag ∧ c.anaFrq = c'.anaFrq ∧ c.env = c'.env ∧
      c.synMag = c'.synMag ∧ c.synFrq = c'.synFrq := by
  obtain ⟨-, out, anaPh, anaMag, anaFrq, -, synMag, synFrq, env⟩ := StftChan.mk.inj h
  exact ⟨out, anaPh, anaMag, anaFrq, env, synMag, synFrq⟩

theorem StftChan.agree_except_synBins
    (h : { c with synMag := [], synFrq := [] } = { c' with synMag := [], synFrq := [] }) :
    c.out = c'.out ∧ c.anaPh = c'.anaPh ∧ c.anaMag = c'.anaMag ∧ c.anaFrq = c'.anaFrq ∧ c.env = c'.env ∧
      c.synPh = c'.synPh := by
  obtain ⟨-, out, anaPh, anaMag, anaFrq, synPh, -, -, env⟩ := StftChan.mk.inj h
  exact ⟨out, anaPh, anaMag, anaFrq, env, synPh⟩

theorem StftChan.agree_except_ana
    (h : { c with anaMag := [], anaPh := [], anaFrq := [], env := [] } =
      { c' with anaMag := [], anaPh := [], anaFrq := [], env := [] }) :
    c.out = c'.out ∧ c.synPh = c'.synPh := by
  obtain ⟨-, out, -, -, -, synPh, -⟩ := StftChan.mk.inj h
  exact ⟨out, synPh⟩

end Agreement

/-! ## The arrays, stage by stage -/

theorem shiftChan_agrees_resynthesised (f : Word) (hw ow : Nat) (ch : StftChan) :
    (shiftChan f hw ow ch).synPh = (resynthesised f hw ch).synPh ∧
      (shiftChan f hw ow ch).synMag = (resynthesised f hw ch).synMag := by
  rw [shiftChan_eq]
  obtain ⟨-, -, -, -, synPh, synMag, -⟩ := StftChan.agree_except_out
    (overlapAdd_rest ow (fft false (spectrum (resynthesised f hw ch))) (resynthesised f hw ch))
  exact ⟨synPh, synMag⟩

/-- R380: the value of a bin is read from the arrays the step leaves. -/
theorem synthValue_resynthesised (f : Word) (hw ow : Nat) (ch : StftChan) :
    synthValue (resynthesised f hw ch) = synthValue (shiftChan f hw ow ch) := by
  obtain ⟨synPh, synMag⟩ := shiftChan_agrees_resynthesised f hw ow ch
  funext j
  rw [synthValue, synthValue, synPh, synMag]

section Stages

variable (f : Word) (hw ow : Nat) {ch : StftChan} (h : ch.wf = true)

include h

theorem analysed_wf : (analysed hw ch).wf = true := analyse_wf _ h

theorem shiftBins_analysed_wf : (shiftBins f (analysed hw ch)).wf = true := shiftBins_wf f (analysed_wf hw h)

theorem resynthesised_wf : (resynthesised f hw ch).wf = true := accumulatePhases_wf (shiftBins_analysed_wf f hw h)

/-- After the analysis the analysis arrays are left alone. -/
theorem shiftChan_agrees_analysed :
    (shiftChan f hw ow ch).anaPh = (analysed hw ch).anaPh ∧ (shiftChan f hw ow ch).anaMag = (analysed hw ch).anaMag ∧
      (shiftChan f hw ow ch).anaFrq = (analysed hw ch).anaFrq ∧ (shiftChan f hw ow ch).env = (analysed hw ch).env := by
  obtain ⟨-, ph, mag, frq, env, -⟩ := StftChan.agree_except_synBins (shiftBins_bins f (analysed_wf hw h)).2
  obtain ⟨-, ph', mag', frq', env', -⟩ :=
    StftChan.agree_except_synPh (accumulatePhases_bins (shiftBins_analysed_wf f hw h)).2
  rw [shiftChan_eq]
  obtain ⟨ph'', mag'', frq'', env'', -⟩ := StftChan.agree_except_out
    (overlapAdd_rest ow (fft false (spectrum (resynthesised f hw ch))) (resynthesised f hw ch))
  exact ⟨ph''.trans (ph'.trans ph), mag''.trans (mag'.trans mag), frq''.trans (frq'.trans frq),
    env''.trans (env'.trans env)⟩

/-- After the shift its magnitudes and frequencies are left alone. -/
theorem shiftChan_agrees_shiftBins :
    (shiftChan f hw ow ch).synMag = (shiftBins f (analysed hw ch)).synMag ∧
      (shiftChan f hw ow ch).synFrq = (shiftBins f (analysed hw ch)).synFrq := by
  obtain ⟨-, -, -, -, -, mag, frq⟩ :=
    StftChan.agree_except_synPh (accumulatePhases_bins (shiftBins_analysed_wf f hw h)).2
  rw [shiftChan_eq]
  obtain ⟨-, -, -, -, -, mag', frq'⟩ := StftChan.agree_except_out
    (overlapAdd_rest ow (fft false (spectrum (resynthesised f hw ch))) (resynthesised f hw ch))
  exact ⟨mag'.trans mag, frq'.trans frq⟩

/-- The phases are moved on from those before the step. -/
theorem shiftBins_analysed_synPh : (shiftBins f (analysed hw ch)).synPh = ch.synPh := by
  obtain ⟨-, -, -, -, -, shifted⟩ := StftChan.agree_except_synBins (shiftBins_bins f (analysed_wf hw h)).2
  exact shifted.trans (StftChan.agree_except_ana (analyse_bins _ h).2).2

/-- The overlap-add starts from the output ring before the step. -/
theorem resynthesised_out : (resynthesised f hw ch).out = ch.out := by
  obtain ⟨accumulated, -⟩ := StftChan.agree_except_synPh (accumulatePhases_bins (shiftBins_analysed_wf f hw h)).2
  obtain ⟨shifted, -⟩ := StftChan.agree_except_synBins (shiftBins_bins f (analysed_wf hw h)).2
  exact accumulated.trans (shifted.trans (StftChan.agree_except_ana (analyse_bins _ h).2).1)

/-! ## Bins, spectrum and output -/

/-- R360 to R366. -/
theorem analysisMakes_shiftChan {k : Nat} (hk : k < Config.numBins) :
    analysisMakes (cplxAt (fft true (extractFrame hw ch.hist)) k) k ch (shiftChan f hw ow ch) := by
  obtain ⟨mag, ph, frq, env⟩ := (analyse_bins (fft true (extractFrame hw ch.hist)) h).1 k hk
  obtain ⟨-, -, wfPh, wfMag, wfFrq, -, -, -, wfEnv⟩ := StftChan.wf_iff.mp h
  obtain ⟨anaPh, anaMag, anaFrq, envelope⟩ := shiftChan_agrees_analysed f hw ow h
  unfold analysisMakes
  rw [anaMag, anaPh, anaFrq, envelope, ← nomTable_getD hk, show (0x3DCCCCD0 : Word) = envBeta by decide]
  exact ⟨mag.trans (cellGet_cellSet_same wfMag k _), ph.trans (cellGet_cellSet_same wfPh k _),
    frq.trans (cellGet_cellSet_same wfFrq k _), env.trans (cellGet_cellSet_same wfEnv k _)⟩

/-- R370, R371, R378, R379. -/
theorem synthesisMakes_shiftChan {j : Nat} (hj : j < Config.numBins) :
    synthesisMakes f j ch (shiftChan f hw ow ch) := by
  have wfA := analysed_wf hw h
  obtain ⟨mag, frq⟩ := (shiftBins_bins f wfA).1 j hj
  have ph := (accumulatePhases_bins (shiftBins_wf f wfA)).1 j hj
  rw [shiftBins_analysed_synPh f hw h] at ph
  obtain ⟨-, anaMag, anaFrq, -⟩ := shiftChan_agrees_analysed f hw ow h
  obtain ⟨synMag, synFrq⟩ := shiftChan_agrees_shiftBins f hw ow h
  unfold synthesisMakes
  rw [synMag, synFrq, (shiftChan_agrees_resynthesised f hw ow ch).1, anaMag, anaFrq, ← nomTable_getD hj]
  exact ⟨mag, frq, ph⟩

/-- R386. -/
theorem cellGet_shiftChan_out {p : Nat} (hp : p < 2048) :
    cellGet (shiftChan f hw ow ch).out p =
      let n := (((p : Int) - ow) % 2048).toNat
      if n < 1024 then
        (fadd (cellGet ch.out p) (fdiv (fmul (cplxAt (fft false (spectrum (resynthesised f hw ch))) n).1
          (windowRom n)).val 0x44800000).val).val
      else cellGet ch.out p := by
  rw [shiftChan_eq, overlapAdd_out ow _ (resynthesised_wf f hw h) p hp, resynthesised_out f hw h, fftN_eq,
    show toF 1024 = 0x44800000 by decide]
  dsimp only
  split_ifs with inFrame
  · rw [windowTable_getD inFrame]
  · rfl

end Stages

/-- R381. -/
theorem cplxAt_spectrum_resynthesised (f : Word) (hw ow : Nat) (ch : StftChan) {i : Nat} (hi : i < 1024) :
    cplxAt (spectrum (resynthesised f hw ch)) i = spectrumValue (shiftChan f hw ow ch) i := by
  have bin {j : Nat} (hj : j ≤ 512) :
      cplxAt ((List.range Config.numBins).map (synthValue (shiftChan f hw ow ch))).toArray j =
        synthValue (shiftChan f hw ow ch) j :=
    cplxAt_rangeMap _ (show j < Config.numBins by rw [numBins_eq]; omega)
  rw [spectrum, synthValue_resynthesised f hw ow ch, cplxAt_rangeMap _ (show i < Config.fftN from hi), fftN_eq]
  unfold spectrumValue
  dsimp only
  split_ifs with low
  · exact bin low
  · rw [bin (show 1024 - i ≤ 512 by omega)]
    rfl

/-- R348. -/
theorem cplxAt_extractFrame (hw : Nat) (hist : Cells) {n : Nat} (hn : n < 1024) :
    cplxAt (extractFrame hw hist) n =
      ((fmul (cellGet hist (((hw : Int) - 1024 + n) % 2048).toNat) (windowRom n)).val, 0) := by
  have slot : ringAt hw ((n : Int) - Config.fftN) Config.ringLen = (((hw : Int) - 1024 + n) % 2048).toNat := by
    rw [ringAt, fftN_eq, ringLen_eq]
    congr 2
    omega
  rw [extractFrame, cplxAt_rangeMap _ (show n < Config.fftN from hn), windowTable_getD hn, slot]
  rfl

theorem shiftStepMakes_shiftChan (f : Word) (hw ow : Nat) {ch : StftChan} (h : ch.wf = true) :
    shiftStepMakes f hw ow ch (shiftChan f hw ow ch) :=
  ⟨extractFrame hw ch.hist, spectrum (resynthesised f hw ch), by simp [extractFrame, fftN_eq],
    by simp [spectrum, fftN_eq], fun _ hn => cplxAt_extractFrame hw ch.hist hn,
    fun _ hk => ⟨analysisMakes_shiftChan f hw ow h hk, synthesisMakes_shiftChan f hw ow h hk⟩,
    fun _ hi => cplxAt_spectrum_resynthesised f hw ow ch hi, fun _ hp => cellGet_shiftChan_out f hw ow h hp,
    shiftChan_hist f hw ow ch⟩

end Sys2Proof.Machine
end

section
/-! One invocation of STFT (43_stft.md R345), channel by channel: the unit's channels share the cursors and the shift
factor and nothing else. -/

namespace Sys2Proof.Machine

open Sys2Proof.Claims

/-! ## One channel -/

/-- A channel after the append at `hw` and, when this invocation makes `hc = H`, the shift step with factor `f`. -/
def stftChanUpdate (f : Word) (hw ow hc : Nat) (x : Word) (ch : StftChan) : StftChan :=
  let appended := { ch with hist := cellSet ch.hist hw x }
  if hc + 1 = Config.hop then
    shiftChan f (ringAdv hw Config.ringLen) (ringAt ow Config.hop Config.ringLen) appended
  else appended

/-- One channel's part of an invocation: the word emitted at `orr`, and the channel with that slot zeroed. -/
def stftChanInvoke (f : Word) (hw orr ow hc : Nat) (x : Word) (ch : StftChan) : Word × StftChan :=
  let c := stftChanUpdate f hw ow hc x ch
  (cellGet c.out orr, { c with out := cellSet c.out orr zeroW })

section Channel

variable (f : Word) (hw orr ow hc : Nat) (x : Word) {ch : StftChan}

theorem stftChanUpdate_of_due (due : hc + 1 = Config.hop) (ch : StftChan) : stftChanUpdate f hw ow hc x ch =
    shiftChan f (ringAdv hw Config.ringLen) (ringAt ow Config.hop Config.ringLen)
      { ch with hist := cellSet ch.hist hw x } := if_pos due

theorem stftChanUpdate_of_not_due (no : hc + 1 ≠ Config.hop) (ch : StftChan) :
    stftChanUpdate f hw ow hc x ch = { ch with hist := cellSet ch.hist hw x } := if_neg no

theorem stftChanUpdate_hist (ch : StftChan) :
    (stftChanUpdate f hw ow hc x ch).hist = cellSet ch.hist hw x := by
  by_cases due : hc + 1 = Config.hop
  · rw [stftChanUpdate_of_due f hw ow hc x due, shiftChan_hist]
  · rw [stftChanUpdate_of_not_due f hw ow hc x due]

theorem stftChanUpdate_wf (h : ch.wf = true) (hhw : hw < Config.ringLen) :
    (stftChanUpdate f hw ow hc x ch).wf = true := by
  have appended := StftChan.wf_setHist h hhw x
  by_cases due : hc + 1 = Config.hop
  · rw [stftChanUpdate_of_due f hw ow hc x due]
    exact shiftChan_wf _ _ _ appended
  · rwa [stftChanUpdate_of_not_due f hw ow hc x due]

theorem stftChanInvoke_hist (ch : StftChan) :
    (stftChanInvoke f hw orr ow hc x ch).2.hist = cellSet ch.hist hw x :=
  stftChanUpdate_hist f hw ow hc x ch

theorem cellGet_stftChanInvoke_hist (h : ch.wf = true) (i : Nat) :
    cellGet (stftChanInvoke f hw orr ow hc x ch).2.hist i = if i = hw then x else cellGet ch.hist i := by
  obtain ⟨wfHist, -⟩ := StftChan.wf_iff.mp h
  rw [stftChanInvoke_hist, cellGet_cellSet wfHist]

/-- The slot at the read cursor is zeroed. -/
theorem cellGet_stftChanInvoke_out_same (h : ch.wf = true) (hhw : hw < Config.ringLen) :
    cellGet (stftChanInvoke f hw orr ow hc x ch).2.out orr = 0 := by
  obtain ⟨-, wfOut, -⟩ := StftChan.wf_iff.mp (stftChanUpdate_wf f hw ow hc x h hhw)
  exact cellGet_cellSet_same wfOut orr zeroW

theorem cellGet_stftChanInvoke_out_ne {i : Nat} (hi : i ≠ orr) (ch : StftChan) :
    cellGet (stftChanInvoke f hw orr ow hc x ch).2.out i = cellGet (stftChanUpdate f hw ow hc x ch).out i :=
  cellGet_cellSet_ne hi zeroW

/-- Between shift steps the spectral state is kept, and the slot is emitted as it stood. -/
theorem stftChanInvoke_of_not_due (no : hc + 1 ≠ Config.hop) (ch : StftChan) :
    (stftChanInvoke f hw orr ow hc x ch).1 = cellGet ch.out orr ∧
      (∀ i, i ≠ orr → cellGet (stftChanInvoke f hw orr ow hc x ch).2.out i = cellGet ch.out i) ∧
      { (stftChanInvoke f hw orr ow hc x ch).2 with hist := [], out := [] } = { ch with hist := [], out := [] } := by
  have kept := stftChanUpdate_of_not_due f hw ow hc x no ch
  refine ⟨?_, fun i hi => ?_, ?_⟩
  · rw [stftChanInvoke, kept]
  · rw [cellGet_stftChanInvoke_out_ne f hw orr ow hc x hi, kept]
  · rw [stftChanInvoke, kept]

/-- At a shift step the channel is the one the step leaves, and its slot is the one emitted. -/
theorem stftChanInvoke_of_due (due : hc + 1 = Config.hop) (ch : StftChan) :
    let c := shiftChan f (ringAdv hw Config.ringLen) (ringAt ow Config.hop Config.ringLen)
      { ch with hist := (stftChanInvoke f hw orr ow hc x ch).2.hist }
    (stftChanInvoke f hw orr ow hc x ch).1 = cellGet c.out orr ∧
      (∀ i, i ≠ orr → cellGet (stftChanInvoke f hw orr ow hc x ch).2.out i = cellGet c.out i) ∧
      { (stftChanInvoke f hw orr ow hc x ch).2 with out := [] } = { c with out := [] } := by
  rw [stftChanInvoke_hist, ← stftChanUpdate_of_due f hw ow hc x due]
  exact ⟨rfl, fun i hi => cellGet_stftChanInvoke_out_ne f hw orr ow hc x hi ch, rfl⟩

end Channel

/-! ## The unit -/

/-- An invocation is that of each channel, and the cursors moved on. -/
theorem stftInvoke_eq (p : Params) (x : Sample) (u : Stft) :
    stftInvoke p x u =
      (⟨(stftChanInvoke (shiftFactor p) u.hw u.orr u.ow u.hc x.l u.l).1,
        (stftChanInvoke (shiftFactor p) u.hw u.orr u.ow u.hc x.r u.r).1⟩,
      { l := (stftChanInvoke (shiftFactor p) u.hw u.orr u.ow u.hc x.l u.l).2
        r := (stftChanInvoke (shiftFactor p) u.hw u.orr u.ow u.hc x.r u.r).2
        hw := ringAdv u.hw Config.ringLen
        orr := ringAdv u.orr Config.ringLen
        ow := if u.hc + 1 = Config.hop then ringAt u.ow Config.hop Config.ringLen else u.ow
        hc := if u.hc + 1 = Config.hop then 0 else u.hc + 1 }) := by
  have count : shiftDue (stftAppend x u) = decide (u.hc + 1 = Config.hop) := rfl
  unfold stftInvoke
  simp only [count, stftChanInvoke, stftEmit]
  by_cases due : u.hc + 1 = Config.hop
  · simp only [due, decide_true, if_true, stftChanUpdate_of_due _ _ _ _ _ due, shiftStep, stftAppend]
  · simp only [due, decide_false, Bool.false_eq_true, if_false, stftChanUpdate_of_not_due _ _ _ _ _ due, stftAppend]

theorem exec_stft (s : State) (d a : RegIdx) : exec (.stft d a) s =
    .next { sampleMoved s d (stftInvoke s.live (s.getS a) s.stft).1 with
      stft := (stftInvoke s.live (s.getS a) s.stft).2
      hopCnt := if s.stft.hc + 1 = Config.hop then s.hopCnt + 1 else s.hopCnt } := by
  have count : shiftDue (stftAppend (s.getS a) s.stft) = decide (s.stft.hc + 1 = Config.hop) := rfl
  have ran : exec (.stft d a) s = execStft d a s := rfl
  rw [ran, execStft, count]
  simp only [decide_eq_true_eq]
  rfl

/-! ## The result of STFT -/

theorem ringAt_natCast (cur n len : Nat) : ringAt cur n len = (cur + n) % len := by
  rw [ringAt, ← Nat.cast_add, ← Int.natCast_mod, Int.toNat_natCast]

/-- Settles O26: an invocation is that of each channel, in the two cases of R345; the shift step and the engine are the
sections before this one. -/
theorem stftResult : Obligations.StftResult := by
  unfold Obligations.StftResult
  refine ⟨fun s d a hu => ?_, fun f hw ow ch h => shiftStepMakes_shiftChan f hw ow h, engineMakes_fft,
    butterflyMakes_butterfly⟩
  obtain ⟨wfL, wfR, hhw, -⟩ := Stft.wf_iff.mp hu
  refine ⟨_, _, _, exec_stft s d a, ?_⟩
  rw [stftInvoke_eq]
  refine ⟨rfl, rfl, cellGet_stftChanInvoke_hist _ _ _ _ _ _ wfL, cellGet_stftChanInvoke_hist _ _ _ _ _ _ wfR,
    cellGet_stftChanInvoke_out_same _ _ _ _ _ _ wfL hhw, cellGet_stftChanInvoke_out_same _ _ _ _ _ _ wfR hhw,
    fun no => ?between, fun due => ?shifting⟩
  case between =>
    rw [← hop_eq] at no
    have lane := stftChanInvoke_of_not_due (shiftFactor s.live) s.stft.hw s.stft.orr s.stft.ow s.stft.hc
    obtain ⟨emitL, outL, restL⟩ := lane (s.getS a).l no s.stft.l
    obtain ⟨emitR, outR, restR⟩ := lane (s.getS a).r no s.stft.r
    exact ⟨if_neg no, if_neg no, if_neg no, by rw [emitL, emitR], fun i hi => ⟨outL i hi, outR i hi⟩, restL, restR⟩
  case shifting =>
    rw [← hop_eq] at due
    have lane := stftChanInvoke_of_due (shiftFactor s.live) s.stft.hw s.stft.orr s.stft.ow s.stft.hc
    obtain ⟨emitL, outL, restL⟩ := lane (s.getS a).l due s.stft.l
    obtain ⟨emitR, outR, restR⟩ := lane (s.getS a).r due s.stft.r
    simp only [if_pos due]
    exact ⟨trivial, trivial, ringAt_natCast _ _ _, by rw [emitL, emitR]; rfl, fun i hi => ⟨outL i hi, outR i hi⟩,
      restL, restR⟩

/-! ## Independence of the channels -/

/-- The left channel's part of STFT with operand `S[a]`. -/
def State.stftLeft (s : State) (a : RegIdx) : Word × StftChan :=
  stftChanInvoke (shiftFactor s.live) s.stft.hw s.stft.orr s.stft.ow s.stft.hc (s.getS a).l s.stft.l

/-- The right channel's part of STFT with operand `S[a]`. -/
def State.stftRight (s : State) (a : RegIdx) : Word × StftChan :=
  stftChanInvoke (shiftFactor s.live) s.stft.hw s.stft.orr s.stft.ow s.stft.hc (s.getS a).r s.stft.r

/-- STFT leaves each channel and each lane of the destination as that channel's own part makes them. -/
theorem exec_stft_channels {s t : State} {d a : RegIdx} (h : exec (.stft d a) s = .next t) :
    (t.stft.l = (s.stftLeft a).2 ∧ (t.getS d).l = (s.stftLeft a).1) ∧
      t.stft.r = (s.stftRight a).2 ∧ (t.getS d).r = (s.stftRight a).1 := by
  rw [exec_stft, stftInvoke_eq] at h
  cases h
  have dest (v : Sample) : (sampleMoved s d v).getS d = v := State.getS_setS_same s d v
  exact ⟨⟨rfl, congrArg Sample.l (dest _)⟩, rfl, congrArg Sample.r (dest _)⟩

/-- Settles O33: a channel's part of the invocation is a function of the shared cursors and factor, its own state and its
own input. -/
theorem stftChannelsAreIndependent : Obligations.StftChannelsAreIndependent := by
  unfold Obligations.StftChannelsAreIndependent
  intro s₁ s₂ t₁ t₂ d a live hw orr ow hc h₁ h₂
  obtain ⟨⟨l₁, outL₁⟩, r₁, outR₁⟩ := exec_stft_channels h₁
  obtain ⟨⟨l₂, outL₂⟩, r₂, outR₂⟩ := exec_stft_channels h₂
  rw [l₁, outL₁, r₁, outR₁, l₂, outL₂, r₂, outR₂]
  refine ⟨fun chan input => ?left, fun chan input => ?right⟩
  case left =>
    have same : s₁.stftLeft a = s₂.stftLeft a := by
      rw [State.stftLeft, State.stftLeft, live, hw, orr, ow, hc, chan, input]
    rw [same]
    exact ⟨rfl, rfl⟩
  case right =>
    have same : s₁.stftRight a = s₂.stftRight a := by
      rw [State.stftRight, State.stftRight, live, hw, orr, ow, hc, chan, input]
    rw [same]
    exact ⟨rfl, rfl⟩

end Sys2Proof.Machine
end

section
/-! The unity shift (43_stft.md R371 to R373): the factor of a zero control or range is exactly 1.0, a product with 1.0 is
exact, and a bin number is a binary32, so every bin keeps its place. -/

namespace Sys2Proof.Machine

/-! ## The factor -/

/-- No infinity passes a setter clamp whose bounds are finite. -/
theorem isFinite_of_inRangeF {v lo hi : Word} (h : inRangeF v lo hi = true) (hlo : flt 0xFF800000 lo = true)
    (hhi : flt hi posInf = true) : isFinite v = true := by
  obtain ⟨nan, low, high⟩ := inRangeF_iff.mp h
  refine isFinite_iff.mpr ⟨nan, Bool.eq_false_iff.mpr fun inf => ?_⟩
  have eq := eq_of_isInf inf
  cases sign : signBit v
  · rw [eq, sign] at high
    exact absurd hhi (Bool.eq_false_iff.mp high)
  · rw [eq, sign] at low
    exact absurd hlo (Bool.eq_false_iff.mp low)

theorem fexp2_of_isZero {x : Word} (h : isZero x = true) : fexp2 x = oneF := by
  rw [eq_of_isZero h]
  split_ifs <;> decide

theorem isZero_fmul {a b : Word} (ha : isFinite a = true) (hb : isFinite b = true)
    (h : isZero a = true ∨ isZero b = true) : isZero (fmul a b).val = true := by
  rw [fmul_fin_fin ha hb, if_pos (Bool.or_eq_true_iff.mpr h)]
  cases signXor a b <;> decide

/-- R372, R373. -/
theorem shiftFactor_of_isZero {p : Params} (hp : p.inRange = true)
    (h : isZero p.stftCtrl = true ∨ isZero p.stftRange = true) : shiftFactor p = oneF := by
  have ranged := Params.inRange_iff.mp hp
  have ctrl := isFinite_of_inRangeF ranged.stftCtrl (by decide) (by decide)
  have range := isFinite_of_inRangeF ranged.stftRange (by decide) (by decide)
  exact fexp2_of_isZero (isZero_fmul range ctrl h.symm)

/-! ## The product with 1.0 -/

/-- A product with 1.0 is exact. -/
theorem fmul_oneF {x : Word} (hx : isFinite x = true) :
    isFinite (fmul x oneF).val = true ∧ fixOf (fmul x oneF).val = fixOf x := by
  have sign : signXor x oneF = signBit x := by rw [signXor, show signBit oneF = false by decide, Bool.bne_false]
  rw [fmul_fin_fin hx (by decide), show isZero oneF = false by decide, Bool.or_false, sign]
  split_ifs with zero
  · rw [fixOf_eq_zero.mpr zero]
    cases signBit x <;> decide
  · have pos : 0 < magOf x * 2 ^ 149 := Nat.mul_pos (magOf_pos_of_not_isZero zero) (Nat.two_pow_pos 149)
    have below : magOf x * 2 ^ 149 < 2 ^ 149 * 2 ^ 149 * (2 ^ 128 - 2 ^ 103) := by
      have := magOf_lt_threshold hx
      omega
    rw [show magOf oneF = 2 ^ 149 by decide, show fixUnit * fixUnit = 2 ^ 149 * 2 ^ 149 by decide]
    have near := (roundPos_nearest_units (signBit x) pos (Nat.two_pow_pos 149) below hx).1
    have exact : magOf (roundPos (signBit x) (magOf x * 2 ^ 149) (2 ^ 149 * 2 ^ 149)).val = magOf x := by omega
    refine ⟨isFinite_roundPos (signBit x) pos (by decide) below, ?_⟩
    rw [fixOf, fixOf, exact, signBit_roundPos (signBit x) pos (by decide) below]

/-! ## Bin numbers -/

/-- A natural of at most 24 bits converts exactly. -/
theorem toF_exact {k : Nat} (hk : k < 2 ^ 24) : isFinite (toF k) = true ∧ fixOf (toF k) = k * 2 ^ 149 := by
  rcases Nat.eq_zero_or_pos k with rfl | pos
  · decide
  · have below : k < 1 * (2 ^ 128 - 2 ^ 103) := by omega
    have conv : toF k = (roundPos false k 1).val := by
      rw [toF, roundFrac, if_neg (by omega), decide_eq_false (by omega), Int.natAbs_natCast]
    have grid : roundExp k 1 ≤ 149 := by
      rcases roundExp_le pos one_pos with zero | le
      · omega
      · have : 2 ^ (roundExp k 1 + 23) < 2 ^ (24 + 149) := by
          rw [Nat.pow_add 2 24 149]
          omega
        have := (Nat.pow_lt_pow_iff_right (by decide : 1 < 2)).mp this
        omega
    have exact : roundSig k 1 * 2 ^ roundExp k 1 = k * 2 ^ 149 := by
      have dvd : 2 ^ roundExp k 1 ∣ k * 2 ^ 149 := (pow_dvd_pow 2 grid).mul_left k
      rw [roundSig, Nat.one_mul]
      exact (divNearestEven_exact_iff (Nat.two_pow_pos _)).mpr (Nat.mod_eq_zero_of_dvd dvd)
    rw [conv]
    refine ⟨isFinite_roundPos false pos one_pos below, ?_⟩
    rw [fixOf, signBit_roundPos false pos one_pos below, magOf_roundPos false pos one_pos below, exact]
    simp

/-- The nearest integer of an integer is that integer. -/
theorem roundHA_of_fixOf_eq {v : Word} {k : Nat} (h : fixOf v = k * 2 ^ 149) : roundHA v = k := by
  have mag : magOf v = k * 2 ^ 149 := by
    rw [← natAbs_fixOf, h]
    omega
  have steps : (2 * magOf v + fixUnit) / (2 * fixUnit) = k := by
    rw [mag, fixUnit]
    omega
  unfold roundHA
  dsimp only
  rw [steps]
  split_ifs with negative
  · rw [fixOf, if_pos negative, mag] at h
    omega
  · rfl

/-- Settles O45: the factor is 1.0, and the product of a bin number with it is that number. -/
theorem zeroControlKeepsEveryBin : Obligations.ZeroControlKeepsEveryBin := by
  unfold Obligations.ZeroControlKeepsEveryBin
  intro p hp zero
  rw [shiftFactor_of_isZero hp zero]
  refine ⟨rfl, fun k hk => ?_⟩
  rw [numBins_eq] at hk
  obtain ⟨finite, value⟩ := toF_exact (k := k) (by omega)
  obtain ⟨product, same⟩ := fmul_oneF finite
  exact ⟨product, roundHA_of_fixOf_eq (same.trans value)⟩

end Sys2Proof.Machine
end

-- ==== Proofs of the effects family (44_effects.md): O23, O24, O47, O25, O46 ====
section
/-! The Delay and Comb units (44_effects.md R420 to R431): the tap distance by kind of product, what a push at the write
cursor leaves in a ring, and the results of DLY and COMB. -/

namespace Sys2Proof.Machine

open Sys2Proof.Claims

/-! ## Tap distances (R420, R430) -/

section TapDistance

variable {seconds rate : Word}

theorem tapFrames_of_isNaN (len : Nat) (h : isNaN (fmul seconds rate).val = true) : tapFrames seconds rate len = 1 :=
  if_pos h

theorem tapFrames_of_eq_posInf (len : Nat) (h : (fmul seconds rate).val = posInf) :
    tapFrames seconds rate len = BitVec.ofNat 32 (len - 1) := by
  rw [tapFrames, h, if_neg (by decide), if_pos (by decide)]

theorem tapFrames_of_isFinite (len : Nat) (h : isFinite (fmul seconds rate).val = true) :
    tapFrames seconds rate len =
      BitVec.ofNat 32 (min (max (truncZ (fmul seconds rate).val) 1) ((len : Int) - 1)).toNat := by
  simp [tapFrames, isNaN_of_isFinite h, isInf_of_isFinite h]

/-- A ring of `last + 1` slots: the distance by kind of product, and its range. The width of DLY_FRAMES and COMB_FRAMES
loses nothing. -/
theorem toNat_tapFrames (seconds rate : Word) {last : Nat} (one_le : 1 ≤ last) (lt : last < 2 ^ 32) :
    let v := (fmul seconds rate).val
    let r := tapFrames seconds rate (last + 1)
    (isNaN v = true → r.toNat = 1) ∧ (v = posInf → r.toNat = last) ∧
      (isFinite v = true → (r.toNat : Int) = min (max ((fixOf v).tdiv (2 ^ 149)) 1) last) ∧
      1 ≤ r.toNat ∧ r.toNat ≤ last := by
  refine ⟨fun nan => ?nan, fun inf => ?inf, fun finite => ?finite,
    tapFrames_range seconds rate (len := last + 1) (by omega) lt⟩
  case nan => rw [tapFrames_of_isNaN _ nan]; rfl
  case inf =>
    rw [tapFrames_of_eq_posInf _ inf, BitVec.toNat_ofNat]
    omega
  case finite =>
    have trunc : truncZ (fmul seconds rate).val = (fixOf (fmul seconds rate).val).tdiv (2 ^ 149) := rfl
    rw [tapFrames_of_isFinite _ finite, BitVec.toNat_ofNat, trunc]
    omega

end TapDistance

/-- Settles O47: both distances are those of a ring, of 96000 and of 4800 slots. -/
theorem tapDistancesStayInTheRing : Obligations.TapDistancesStayInTheRing := by
  unfold Obligations.TapDistancesStayInTheRing
  intro p
  exact ⟨toNat_tapFrames p.dlyTime p.rate (by decide) (by decide),
    toNat_tapFrames p.combTime p.rate (by decide) (by decide)⟩

/-! ## The ring (41_buffer.md R270, R271) -/

/-- The tap `dist` slots behind the cursor. -/
theorem ringAt_neg (cur dist len : Nat) :
    ringAt cur (-(dist : Int)) len = (((cur : Int) - (dist : Int)) % (len : Int)).toNat := by
  rw [ringAt, Int.sub_eq_add_neg]

/-- A push of `x`: the slot at the cursor holds `x`, every other slot its word, and the cursor stands one further. -/
theorem RingUnit.push_cells {len : Nat} {u : RingUnit} (h : u.wf len = true) (x : Sample) :
    let v : RingUnit := ⟨cellSet u.l u.w x.l, cellSet u.r u.w x.r, ringAdv u.w len⟩
    v.w = (u.w + 1) % len ∧ (∀ i, cellGet v.l i = if i = u.w then x.l else cellGet u.l i) ∧
      ∀ i, cellGet v.r i = if i = u.w then x.r else cellGet u.r i := by
  obtain ⟨wfL, wfR, -⟩ := RingUnit.wf_iff.mp h
  exact ⟨rfl, fun i => cellGet_cellSet wfL u.w i x.l, fun i => cellGet_cellSet wfR u.w i x.r⟩

/-! ## DLY and COMB -/

theorem exec_dly (s : State) (d a : RegIdx) : exec (.dly d a) s =
    .next { sampleMoved s d (delayStep s.live.dlyMix s.dlyFrames.toNat (s.getS a) s.dly).1 with
      dly := (delayStep s.live.dlyMix s.dlyFrames.toNat (s.getS a) s.dly).2 } := rfl

theorem exec_comb (s : State) (d a : RegIdx) : exec (.comb d a) s =
    .next { sampleMoved s d (combStep s.combFrames.toNat (s.getS a) s.comb).1 with
      comb := (combStep s.combFrames.toNat (s.getS a) s.comb).2 } := rfl

/-- Settles O23: the Delay unit pushes its output. -/
theorem delayResult : Obligations.DelayResult := by
  unfold Obligations.DelayResult
  intro s d a h p m mix y
  have tap : ringAt s.dly.w (-(s.dlyFrames.toNat : Int)) Config.dlyLen = p := ringAt_neg _ _ _
  have unit : delayStep m s.dlyFrames.toNat (s.getS a) s.dly =
      (y, ⟨cellSet s.dly.l s.dly.w y.l, cellSet s.dly.r s.dly.w y.r, ringAdv s.dly.w Config.dlyLen⟩) := by
    rw [delayStep, tap]
    rfl
  refine ⟨_, ?_, RingUnit.push_cells h y⟩
  rw [exec_dly, unit]

/-- Settles O24: the Comb unit pushes its input. -/
theorem combResult : Obligations.CombResult := by
  unfold Obligations.CombResult
  intro s d a h p y
  have tap : ringAt s.comb.w (-(s.combFrames.toNat : Int)) Config.combLen = p := ringAt_neg _ _ _
  have unit : combStep s.combFrames.toNat (s.getS a) s.comb =
      (y, ⟨cellSet s.comb.l s.comb.w (s.getS a).l, cellSet s.comb.r s.comb.w (s.getS a).r,
        ringAdv s.comb.w Config.combLen⟩) := by
    rw [combStep, tap]
  refine ⟨_, ?_, RingUnit.push_cells h (s.getS a)⟩
  rw [exec_comb, unit]

end Sys2Proof.Machine
end

section
/-! The Biquad unit (44_effects.md R440 to R442): the coefficients mode by mode, their values at reset, and the result of
BIQ. -/

namespace Sys2Proof.Machine

open Sys2Proof.Claims

/-! ## Coefficients (R440) -/

/-- `w0` of R440. -/
def bqAngle (p : Params) : Word := (fdiv (fmul twoPi (bqFc p)).val p.rate).val

/-- `alpha` of R440. -/
def bqAlpha (p : Params) : Word := (fdiv (fsin (bqAngle p)) (fmul twoF p.bqQ).val).val

/-- The three numerators and the two denominators that every mode shares, divided by `a0` (R440). -/
def bqNormalize (p : Params) (b0 b1 b2 : Word) : BqCoef :=
  let a0 := (fadd oneF (bqAlpha p)).val
  { b0 := (fdiv b0 a0).val
    b1 := (fdiv b1 a0).val
    b2 := (fdiv b2 a0).val
    a1 := (fdiv (fmul negTwoF (fcos (bqAngle p))).val a0).val
    a2 := (fdiv (fsub oneF (bqAlpha p)).val a0).val }

section Modes

variable {p : Params}

theorem bqCompute_lowPass (h : p.bqMode = 0) :
    bqCompute p = bqNormalize p (fmul (fsub oneF (fcos (bqAngle p))).val halfF).val
      (fsub oneF (fcos (bqAngle p))).val (fmul (fsub oneF (fcos (bqAngle p))).val halfF).val := by
  unfold bqCompute
  dsimp only
  rw [if_pos h]
  rfl

theorem bqCompute_highPass (h : p.bqMode = 1) :
    bqCompute p = bqNormalize p (fmul (fadd oneF (fcos (bqAngle p))).val halfF).val
      (fneg (fadd oneF (fcos (bqAngle p))).val) (fmul (fadd oneF (fcos (bqAngle p))).val halfF).val := by
  unfold bqCompute
  dsimp only
  rw [if_neg (by rw [h]; decide), if_pos h]
  rfl

theorem bqCompute_bandPass (h : p.bqMode = 2) :
    bqCompute p = bqNormalize p (bqAlpha p) zeroW (fneg (bqAlpha p)) := by
  unfold bqCompute
  dsimp only
  rw [if_neg (by rw [h]; decide), if_neg (by rw [h]; decide)]
  rfl

end Modes

/-- `RN(BQ_FMAXR)`, the factor of the frequency ceiling. -/
theorem bqFmaxRn_eq : bqFmaxRn = 0x3EFAE148 := by decide

theorem bqFc_eq (p : Params) : bqFc p =
    if flt (fmul 0x3EFAE148 p.rate).val p.bqFreq then (fmul 0x3EFAE148 p.rate).val else p.bqFreq := by
  rw [bqFc, bqFmaxRn_eq]

/-! ## Reset values (R441) -/

theorem bqAngle_reset : bqAngle Params.reset = 0x3E060A92 := by decide +kernel

theorem fcos_bqAngle_reset : fcos (bqAngle Params.reset) = 0x3F7DCF55 := by
  rw [bqAngle_reset]
  decide +kernel

theorem bqAlpha_reset : bqAlpha Params.reset = 0x3D85A8A9 := by
  have sine : fsin 0x3E060A92 = 0x3E05A8A9 := by decide +kernel
  rw [bqAlpha, bqAngle_reset, sine]
  decide

/-- The reset mode is the low-pass. -/
theorem bqCompute_reset :
    bqCompute Params.reset = ⟨0x3B839466, 0x3C039466, 0x3B839466, 0xBFEE42A1, 0x3F60A1E7⟩ := by
  rw [bqCompute_lowPass rfl, bqNormalize, fcos_bqAngle_reset, bqAlpha_reset]
  decide

/-- Settles O46: the three modes share the angle, `alpha` and the division by `a0`; the reset values are evaluated. -/
theorem resetDerivedRegisters : Obligations.ResetDerivedRegisters := by
  unfold Obligations.ResetDerivedRegisters
  refine ⟨fun p => ?modes, bqCompute_reset, by decide, by decide⟩
  case modes =>
    intro fmax fc w0 cw alpha a0 A1 A2 low high
    have angleEq : bqAngle p = w0 := by
      rw [bqAngle, bqFc_eq]
      rfl
    have alphaEq : bqAlpha p = alpha := by
      rw [bqAlpha, angleEq]
      rfl
    refine ⟨fun mode => ?_, fun mode => ?_, fun mode => ?_⟩
    · rw [bqCompute_lowPass mode, bqNormalize, alphaEq, angleEq]
      rfl
    · rw [bqCompute_highPass mode, bqNormalize, alphaEq, angleEq]
      rfl
    · rw [bqCompute_bandPass mode, bqNormalize, alphaEq, angleEq]
      rfl

/-! ## BIQ (R442) -/

/-- Settles O25: each lane is a step of its own history, whose output is `bqOut`. -/
theorem biquadResult : Obligations.BiquadResult := by
  unfold Obligations.BiquadResult
  intro s d a k out
  have lane (x : Word) (h : BqHist) : bqStep k x h = (out x h, ⟨x, h.x1, out x h, h.y1⟩) := rfl
  have ran : exec (.biq d a) s = execBiq d a s := rfl
  rw [ran, execBiq, lane, lane]
  rfl

end Sys2Proof.Machine
end

-- ==== Proofs of the exceptions family (60_exceptions.md): O27, O30, O38, O51, O7, O8, O60 ====
section
/-! What no instruction reaches (60_exceptions.md R505, R506, R520): the fault latch, the control state and `PMEM`. -/

namespace Sys2Proof.Machine

variable {s t : State}

/-- No instruction touches STATUS.FAULT, STATUS.BUSERR or a capture register. -/
theorem State.Completes.faultLatch (ht : s.Completes t) :
    t.fault = s.fault ∧ t.busErr = s.busErr ∧ t.faultCause = s.faultCause ∧ t.faultPc = s.faultPc ∧
      t.faultInsn = s.faultInsn := by
  cases ht with
  | frameEnd =>
    rw [State.finishFrame_eq]
    exact ⟨rfl, rfl, rfl, rfl, rfl⟩
  | bufWrite pos v =>
    rw [State.bufWrite_eq]
    exact ⟨rfl, rfl, rfl, rfl, rfl⟩
  | registers | delay | comb | biquad | stft => exact ⟨rfl, rfl, rfl, rfl, rfl⟩

/-- Settles O27: every instruction answers a next state, in one of the ways of `State.Completes`. -/
theorem everyInstructionCompletes : Obligations.EveryInstructionCompletes := by
  unfold Obligations.EveryInstructionCompletes
  intro i s
  obtain ⟨t, ht⟩ := exec_answers i s
  exact ⟨t, ht, (exec_completes ht).faultLatch⟩

/-- What 60_exceptions.md R520 and 20_memory.md R100 put out of a program's reach, `PMEM` aside: the control registers,
the counters of frames and blocks, the parameters with what is derived from them, and the world outside. -/
structure State.SameControl (s t : State) : Prop where
  ctrlRun : t.ctrlRun = s.ctrlRun
  irqEn : t.irqEn = s.irqEn
  frameCnt : t.frameCnt = s.frameCnt
  blockCnt : t.blockCnt = s.blockCnt
  shadow : t.shadow = s.shadow
  live : t.live = s.live
  bqCoef : t.bqCoef = s.bqCoef
  dlyFrames : t.dlyFrames = s.dlyFrames
  combFrames : t.combFrames = s.combFrames
  blkF : t.blkF = s.blkF
  inputs : t.inputs = s.inputs
  draws : t.draws = s.draws

theorem State.Completes.sameControl (ht : s.Completes t) : s.SameControl t := by
  cases ht with
  | frameEnd =>
    rw [State.finishFrame_eq]
    constructor <;> rfl
  | bufWrite pos v =>
    rw [State.bufWrite_eq]
    constructor <;> rfl
  | registers | delay | comb | biquad | stft => constructor <;> rfl

/-- Settles O30: however an instruction completes, it keeps the control state and every byte of `PMEM`. -/
theorem programCannotReachControlState : Obligations.ProgramCannotReachControlState := by
  unfold Obligations.ProgramCannotReachControlState
  intro i s t h
  have completes := exec_completes h
  obtain ⟨ctrlRun, irqEn, frameCnt, blockCnt, shadow, live, bqCoef, dlyFrames, combFrames, blkF, inputs, draws⟩ :=
    completes.sameControl
  exact ⟨ctrlRun, irqEn, frameCnt, blockCnt, shadow, live, bqCoef, dlyFrames, combFrames, blkF, inputs, draws,
    fun _ hx => completes.byte_pmem hx⟩

end Sys2Proof.Machine
end

section
/-! The two faults (60_exceptions.md R501, R502) and the interrupt line (R515, R516). -/

namespace Sys2Proof.Machine

variable {s : State}

/-- A fetch at or past `PROG_LEN` is the fault PC_OVERRUN with `pc` captured and no word. -/
theorem State.fetch_of_overrun (h : Config.progLen ≤ s.pc.toNat) :
    s.fetch = .faulted (s.raiseFault causeOverrun s.pc 0) := by
  rcases s.fetch_cases with ⟨-, hfetch⟩ | ⟨hpc, -⟩ | ⟨hpc, -⟩
  · exact hfetch
  · omega
  · omega

/-- Settles O7: whichever check refuses the word, the fetch raises ILLEGAL_INSN. -/
theorem undecodableWordFaultsPrecisely : Obligations.UndecodableWordFaultsPrecisely := by
  unfold Obligations.UndecodableWordFaultsPrecisely
  intro s e hframe hpc hdecode
  rw [step_inside s hframe, State.fetch_of_decode_error hpc hdecode]
  exact congrArg _ (s.raiseFault_eq _ _ _)

/-- Settles O8: the fetch raises PC_OVERRUN. -/
theorem fetchPastTheProgramFaults : Obligations.FetchPastTheProgramFaults := by
  unfold Obligations.FetchPastTheProgramFaults
  intro s hframe hover
  rw [step_inside s hframe, State.fetch_of_overrun hover]
  exact congrArg _ (s.raiseFault_eq _ _ _)

/-- The interrupt line (R515). -/
theorem State.irq_iff : s.irq = true ↔
    (s.fault = true ∧ s.irqEn.getLsbD 0 = true) ∨ (s.busErr = true ∧ s.irqEn.getLsbD 1 = true) := by
  simp only [State.irq, Bool.or_eq_true, Bool.and_eq_true]

/-- Settles O60: an overrun leaves FAULT pending and IRQ_EN as it was, so an enabled fault shows on the line. -/
theorem interruptLine : Obligations.InterruptLine := by
  unfold Obligations.InterruptLine
  refine ⟨fun s => State.irq_iff, rfl, fun s t hframe hover enabled h => ?_⟩
  cases (fetchPastTheProgramFaults s hframe hover).symm.trans h
  exact State.irq_iff.mpr (.inl ⟨rfl, enabled⟩)

end Sys2Proof.Machine
end

section
/-! A pending fault outside a frame (60_exceptions.md R503, R504): what an offer that is no host write and no reset
leaves alone. -/

namespace Sys2Proof.Machine

variable {s t : State}

/-- No program starts, and the fault latch, the registers, the memory and the four units are kept. -/
structure State.Rests (s t : State) : Prop where
  inFrame : t.inFrame = s.inFrame
  fault : t.fault = s.fault
  faultCause : t.faultCause = s.faultCause
  faultPc : t.faultPc = s.faultPc
  faultInsn : t.faultInsn = s.faultInsn
  sreg : t.sreg = s.sreg
  freg : t.freg = s.freg
  fflags : t.fflags = s.fflags
  mem : t.mem = s.mem
  stft : t.stft = s.stft
  hopCnt : t.hopCnt = s.hopCnt
  dly : t.dly = s.dly
  comb : t.comb = s.comb
  bqL : t.bqL = s.bqL
  bqR : t.bqR = s.bqR
  oacc : t.oacc = s.oacc
  pc : t.pc = s.pc

theorem State.Rests.blockStart (s : State) (frames : BitVec 32) : s.Rests (s.blockStart frames) := by
  rw [State.blockStart_eq]
  constructor <;> rfl

/-- A silent frame is over at once. -/
theorem State.Rests.frameOpen (silent : s.programRuns = false) (hf : s.inFrame = false) (x : Sample) :
    s.Rests (s.frameOpen x) := by
  rw [State.frameOpen_of_silent silent, State.finishFrame_eq]
  constructor
  case inFrame => exact hf.symm
  all_goals rfl

theorem State.Rests.hostRead (s : State) (a : Word) : s.Rests (s.hostRead a) := by
  rcases s.hostRead_cases a with ⟨loc, -, hr⟩ | ⟨-, hr⟩ <;> rw [hr] <;> constructor <;> rfl

/-- With a fault pending an accepted frame is silent, so that no offer but a host write or a power-on reset reaches more
than counters, the block's bits and LIVE. -/
theorem State.Rests.accept (hf : s.inFrame = false) (pending : s.fault = true) {i : Input} (noReset : i ≠ .powerOn)
    (noWrite : ∀ a w, i ≠ .hostWrite a w) (h : s.accept i = .next t) : s.Rests t := by
  cases i with
  | blockStart frames =>
    rw [State.eq_blockStart_of_accept h]
    exact .blockStart s frames
  | frame x =>
    rw [State.eq_frameOpen_of_accept h]
    exact .frameOpen (State.programRuns_eq_false_iff.mpr (.inr pending)) hf x
  | hostRead a => cases h; exact .hostRead s a
  | hostWrite a w => exact absurd rfl (noWrite a w)
  | powerOn => exact absurd rfl noReset

theorem State.Rests.acceptNext (hf : s.inFrame = false) (pending : s.fault = true)
    (noReset : ∀ rest, s.inputs ≠ .powerOn :: rest) (noWrite : ∀ a w rest, s.inputs ≠ .hostWrite a w :: rest)
    (h : s.acceptNext = .next t) : s.Rests t := by
  unfold State.acceptNext at h
  split at h
  · cases h
    constructor <;> rfl
  · next i rest next =>
    have rests := State.Rests.accept (s := { s with inputs := rest }) hf pending
      (fun hi => noReset rest (hi ▸ next)) (fun a w hi => noWrite a w rest (hi ▸ next)) h
    exact { rests with }

/-- Settles O38: outside a frame a step takes an offer, and the offers left by the hypotheses let the block rest. -/
theorem faultLatchHolds : Obligations.FaultLatchHolds := by
  unfold Obligations.FaultLatchHolds
  intro s t hf pending h noReset noWrite
  rw [step_outside s hf] at h
  obtain ⟨inFrame, fault, faultCause, faultPc, faultInsn, sreg, freg, fflags, mem, stft, hopCnt, dly, comb, bqL, bqR,
    oacc, pc⟩ := State.Rests.acceptNext hf pending noReset noWrite h
  exact ⟨inFrame.trans hf, fault.trans pending, faultCause, faultPc, faultInsn, sreg, freg, fflags, mem, stft, hopCnt,
    dly, comb, bqL, bqR, oacc, pc⟩

end Sys2Proof.Machine
end

section
/-! The host map read backwards (20_memory.md R102, 10_state.md R59): the address at which each location stands. -/

namespace Sys2Proof.Machine

open Sys2Proof.Claims

/-- The offset of a control register (10_state.md R59). -/
def Reg.offset : Reg → Nat
  | .id => 0x000
  | .version => 0x004
  | .ctrl => 0x008
  | .status => 0x00C
  | .faultCause => 0x010
  | .faultPc => 0x014
  | .faultInsn => 0x018
  | .irqEn => 0x01C
  | .fflags => 0x020
  | .frameCnt => 0x024
  | .blockCnt => 0x028
  | .hopCnt => 0x02C
  | .rate => 0x030
  | .bufLen => 0x034
  | .bufChans => 0x038
  | .bufRate => 0x03C
  | .dlyTime => 0x040
  | .dlyMix => 0x044
  | .combTime => 0x048
  | .bqMode => 0x050
  | .bqFreq => 0x054
  | .bqQ => 0x058
  | .stftCtrl => 0x060
  | .stftRange => 0x064
  | .bqB0 => 0x070
  | .bqB1 => 0x074
  | .bqB2 => 0x078
  | .bqA1 => 0x07C
  | .bqA2 => 0x080
  | .dlyFrames => 0x084
  | .combFrames => 0x088

theorem offset_of_regAt {n : Nat} {r : Reg} (h : regAt n = some r) : n = r.offset := by
  unfold regAt at h
  split at h <;> cases h <;> rfl

/-- Every register stands in one of the three lists of 10_state.md R59. -/
theorem Reg.offset_mem (r : Reg) : r.offset ∈ readOnlyOffsets ++ stopOffsets ++ writableOffsets := by
  cases r <;> decide

/-- The offsets of the three lists are words of the control window, each with its register. -/
theorem regAt_of_mem : ∀ n ∈ readOnlyOffsets ++ stopOffsets ++ writableOffsets,
    n % 4 = 0 ∧ n < 0x1000 ∧ (regAt n).isSome = true := by
  decide

/-- The host byte address of a location (20_memory.md R102). -/
def HostLoc.addr : HostLoc → Nat
  | .reg r => r.offset
  | .param i => 0x20000 + 4 * i
  | .pmem i => pmemAddr i
  | .env c k => 0x80000 + 4 * (c * 1024 + k)
  | .buf i => bufAddr i

/-- The location lies inside its window (20_memory.md R102). -/
def HostLoc.inWindow : HostLoc → Prop
  | .reg _ => True
  | .param i => i < 64
  | .pmem i => i < 256
  | .env c k => c < 2 ∧ k < 1024
  | .buf i => i < 262144

/-- An address leads only to the location that stands there, inside its window. -/
theorem addr_of_hostLoc {a : Word} {loc : HostLoc} (h : hostLoc a = some loc) :
    a.toNat = loc.addr ∧ loc.inWindow := by
  unfold hostLoc at h
  dsimp only at h
  split_ifs at h with misaligned control param pmem env buf
  · obtain ⟨r, hr, rfl⟩ := Option.map_eq_some_iff.mp h
    exact ⟨offset_of_regAt hr, trivial⟩
  all_goals cases h
  · rw [nparam_eq, Config.paramBase] at param
    simp only [HostLoc.addr, HostLoc.inWindow, Config.paramBase]
    omega
  · rw [inPmem_iff] at pmem
    simp only [HostLoc.addr, HostLoc.inWindow, pmemAddr, Config.pmemBase]
    omega
  · rw [show Config.chans = 2 from rfl, fftN_eq, Config.envBase] at env
    simp only [HostLoc.addr, HostLoc.inWindow, Config.envBase, fftN_eq]
    omega
  · rw [inBuf_iff] at buf
    simp only [HostLoc.addr, HostLoc.inWindow, bufAddr, Config.bufBase]
    omega

/-- Every location stands at a mapped address. -/
theorem HostLoc.hostMapped_addr {loc : HostLoc} (h : loc.inWindow) : hostMapped loc.addr := by
  cases loc with
  | reg r =>
    have listed := r.offset_mem
    refine ⟨(regAt_of_mem _ listed).1, ?_⟩
    simp only [List.mem_append, or_assoc] at listed
    exact listed.imp_right (.imp_right .inl)
  | param | pmem | env | buf =>
    simp only [HostLoc.inWindow] at h
    simp only [hostMapped, HostLoc.addr, pmemAddr, bufAddr, Config.pmemBase, Config.bufBase]
    omega

/-- A mapped address leads to a location. -/
theorem exists_hostLoc_of_hostMapped {a : Word} (h : hostMapped a.toNat) : ∃ loc, hostLoc a = some loc := by
  obtain ⟨aligned, window⟩ := h
  rw [← or_assoc, ← or_assoc, ← List.mem_append, ← List.mem_append] at window
  rcases window with register | param | pmem | env | buf
  · obtain ⟨-, low, present⟩ := regAt_of_mem _ register
    obtain ⟨r, hr⟩ := Option.isSome_iff_exists.mp present
    exact ⟨.reg r, by simp [hostLoc, aligned, low, hr]⟩
  · have ha : a = BitVec.ofNat 32 (0x20000 + 4 * ((a.toNat - 0x20000) / 4)) := by bv_omega
    exact ⟨_, ha ▸ hostLoc_paramWord (by omega)⟩
  · obtain ⟨i, hl, -⟩ := hostLoc_of_inPmem aligned pmem
    exact ⟨_, hl⟩
  · rw [hostLoc_of_ge_pmemBase aligned (by omega), if_neg (by rw [inPmem_iff]; omega), if_pos env]
    exact ⟨_, rfl⟩
  · obtain ⟨i, hl, -⟩ := hostLoc_of_inBuf aligned buf
    exact ⟨_, hl⟩

/-- The addresses that lead nowhere. -/
theorem hostLoc_eq_none_iff {a : Word} : hostLoc a = none ↔ ¬ hostMapped a.toNat := by
  constructor
  · intro nowhere mapped
    obtain ⟨loc, hl⟩ := exists_hostLoc_of_hostMapped mapped
    exact nomatch nowhere.symm.trans hl
  · intro unmapped
    by_contra somewhere
    obtain ⟨loc, hl⟩ := Option.ne_none_iff_exists'.mp somewhere
    obtain ⟨ha, inWindow⟩ := addr_of_hostLoc hl
    exact unmapped (ha ▸ HostLoc.hostMapped_addr inWindow)

end Sys2Proof.Machine
end

section
/-! Which host accesses err (60_exceptions.md R510; 20_memory.md R117, R118), and what a performed write answers. -/

namespace Sys2Proof.Machine

open Sys2Proof.Claims

variable {s t : State}

/-- R510: the write of a mapped byte address that the block refuses: a read-only register, the envelopes, and while RUN
or BLK_RUN stands a stopped-only register, a memory or a BUF_INIT trigger. -/
def State.refusesWrite (s : State) (n : Nat) (w : Word) : Prop :=
  n ∈ readOnlyOffsets ∨ (0x80000 ≤ n ∧ n < 0x82000) ∨
    ((s.ctrlRun = true ∨ s.blkRun = true) ∧
      (n ∈ stopOffsets ∨ (0x40000 ≤ n ∧ n < 0x40400) ∨ (0x100000 ≤ n ∧ n < 0x200000) ∨
        (n = 8 ∧ w.getLsbD 1 = false ∧ w.getLsbD 2 = true)))

theorem State.ifStopped_eq_none_iff {u : State} : s.ifStopped u = none ↔ s.ctrlRun = true ∨ s.blkRun = true := by
  cases hr : s.ctrlRun <;> cases hb : s.blkRun <;> simp [State.ifStopped, State.stopped, hr, hb]

theorem State.writeCtrl_eq_none_iff {w : Word} : s.writeCtrl w = none ↔
    (s.ctrlRun = true ∨ s.blkRun = true) ∧ w.getLsbD 1 = false ∧ w.getLsbD 2 = true := by
  unfold State.writeCtrl
  cases srst : w.getLsbD 1 <;> cases bufInit : w.getLsbD 2 <;> simp [State.ifStopped_eq_none_iff]

/-- A register's write is refused by the list its offset stands in; CTRL's by its BUF_INIT bit. -/
theorem State.writeReg_eq_none_iff {r : Reg} {w : Word} : s.writeReg r w = none ↔ s.refusesWrite r.offset w := by
  cases r
  case ctrl =>
    simp [State.writeReg, State.writeCtrl_eq_none_iff, State.refusesWrite, Reg.offset, readOnlyOffsets, stopOffsets]
  case rate | bufLen | bufChans | bufRate =>
    simp [State.writeReg, State.ifStopped_eq_none_iff, State.refusesWrite, Reg.offset, readOnlyOffsets, stopOffsets]
  all_goals simp [State.writeReg, State.refusesWrite, Reg.offset, readOnlyOffsets, stopOffsets]

/-- The lists of offsets lie in the control window, so past it the window alone decides. -/
theorem State.refusesWrite_iff_of_ge {n : Nat} (h : 0x1000 ≤ n) {w : Word} : s.refusesWrite n w ↔
    (0x80000 ≤ n ∧ n < 0x82000) ∨
      ((s.ctrlRun = true ∨ s.blkRun = true) ∧ ((0x40000 ≤ n ∧ n < 0x40400) ∨ (0x100000 ≤ n ∧ n < 0x200000))) := by
  have low : ∀ m ∈ readOnlyOffsets ++ stopOffsets, m < 0x1000 := by decide
  have unlisted : n ∉ readOnlyOffsets ∧ n ∉ stopOffsets := by
    rw [← not_or, ← List.mem_append]
    exact fun listed => absurd (low n listed) (by omega)
  have notCtrl : n ≠ 8 := by omega
  simp only [State.refusesWrite, unlisted, notCtrl, false_or, false_and, or_false]

/-- A write of a location is refused exactly as its address says. -/
theorem State.writeLoc_eq_none_iff {loc : HostLoc} (h : loc.inWindow) {w : Word} :
    s.writeLoc loc w = none ↔ s.refusesWrite loc.addr w := by
  cases loc with
  | reg r => exact State.writeReg_eq_none_iff
  | param i =>
    have hi : i < 64 := h
    have address : (HostLoc.param i).addr = 0x20000 + 4 * i := rfl
    rw [address, State.refusesWrite_iff_of_ge (by omega)]
    refine iff_of_false nofun ?_
    rintro (env | ⟨-, memory⟩) <;> omega
  | pmem i =>
    have hi : i < 256 := h
    have address : (HostLoc.pmem i).addr = 0x40000 + 4 * i := rfl
    rw [address, State.refusesWrite_iff_of_ge (by omega), State.writeLoc, State.ifStopped_eq_none_iff]
    exact ⟨fun running => .inr ⟨running, .inl (by omega)⟩, fun refuses => (refuses.resolve_left (by omega)).1⟩
  | env c k =>
    obtain ⟨hc, hk⟩ : c < 2 ∧ k < 1024 := h
    have address : (HostLoc.env c k).addr = 0x80000 + 4 * (c * 1024 + k) := rfl
    rw [address, State.refusesWrite_iff_of_ge (by omega)]
    exact iff_of_true rfl (.inl (by omega))
  | buf i =>
    have hi : i < 262144 := h
    have address : (HostLoc.buf i).addr = 0x100000 + 4 * i := rfl
    rw [address, State.refusesWrite_iff_of_ge (by omega), State.writeLoc, State.ifStopped_eq_none_iff]
    exact ⟨fun running => .inr ⟨running, .inr (by omega)⟩, fun refuses => (refuses.resolve_left (by omega)).1⟩

/-- A register's setter hands out no answer; the bus operation does. -/
theorem State.writeReg_emitted {r : Reg} {w : Word} (h : s.writeReg r w = some t) : t.emitted = s.emitted := by
  cases r
  case ctrl => rcases State.writeCtrl_cases h with rfl | rfl | rfl <;> rfl
  case rate | bufLen | bufChans | bufRate => rw [State.eq_of_ifStopped h]; rfl
  all_goals cases h <;> rfl

theorem State.writeLoc_emitted {loc : HostLoc} {w : Word} (h : s.writeLoc loc w = some t) :
    t.emitted = s.emitted := by
  cases loc with
  | reg r => exact State.writeReg_emitted h
  | param i => cases h; rfl
  | env c k => cases h
  | pmem i | buf i => exact State.eq_of_ifStopped h ▸ rfl

/-- A host write is performed and answered, or refused with STATUS.BUSERR set alone, as R510 says. -/
theorem State.hostWrite_errs_or_answers (s : State) (a w : Word) :
    ((¬ hostMapped a.toNat ∨ s.refusesWrite a.toNat w) ∧
      s.hostWrite a w = { s with busErr := true, emitted := .writeResp false :: s.emitted }) ∨
    (¬ (¬ hostMapped a.toNat ∨ s.refusesWrite a.toNat w) ∧
      (s.hostWrite a w).emitted = .writeResp true :: s.emitted) := by
  rcases s.hostWrite_cases a w with ⟨loc, t, hl, ht, hw⟩ | ⟨nowhere | ⟨loc, hl, refused⟩, hw⟩
  · obtain ⟨ha, inWindow⟩ := addr_of_hostLoc hl
    refine .inr ⟨?_, by rw [hw, State.writeLoc_emitted ht]⟩
    rw [ha, not_or, not_not, ← State.writeLoc_eq_none_iff inWindow, ht]
    exact ⟨HostLoc.hostMapped_addr inWindow, nofun⟩
  · exact .inl ⟨.inl (hostLoc_eq_none_iff.mp nowhere), hw⟩
  · obtain ⟨ha, inWindow⟩ := addr_of_hostLoc hl
    exact .inl ⟨.inr (ha ▸ (State.writeLoc_eq_none_iff inWindow).mp refused), hw⟩

/-- A host read of an address that leads nowhere errs. -/
theorem step_hostRead_unmapped (s : State) {a : Word} (h : ¬ hostMapped a.toNat) : step (offer s (.hostRead a)) =
    .next { idle s with busErr := true, emitted := .readResp 0 false :: s.emitted } := by
  rw [step_offer]
  simp only [State.accept, State.hostRead, hostLoc_eq_none_iff.mpr h]
  rfl

/-- Settles O51, from the map read backwards and the one statement of what a write does. -/
theorem busErrors : Obligations.BusErrors := by
  unfold Obligations.BusErrors
  intro s a w erring
  refine ⟨step_hostRead_unmapped s, fun mapped => ?_, fun errs => ?_, fun ok => ?_⟩
  · obtain ⟨loc, hl⟩ := exists_hostLoc_of_hostMapped mapped
    exact ⟨_, step_hostRead hl rfl⟩
  all_goals rw [step_offer]; rcases (idle s).hostWrite_errs_or_answers a w with ⟨errs', hw⟩ | ⟨ok', answered⟩
  · exact congrArg Host.Outcome.next hw
  · exact absurd errs ok'
  · exact absurd errs' ok
  · exact ⟨_, rfl, answered⟩

end Sys2Proof.Machine
end

section
/-! The two resets (70_reset_and_hazards.md R550 to R553): what a soft reset keeps, the reset state value by value, and the
step that takes the power-on reset. -/

namespace Sys2Proof.Machine

open Sys2Proof.Claims

/-! ## Memory at a reset -/

/-- `PMEM` is all END words when its bytes are all zero (20_memory.md R102). -/
theorem Memory.word_pmem_of_bytes {m : Memory} (zero : ∀ a, Config.inPmem a = true → m.byte a = 0) {i : Nat}
    (hi : i < 256) : m.word (0x40000 + 4 * i) = 0 := by
  have zeroByte : ∀ j, j < 4 → m.byte (0x40000 + 4 * i + j) = 0 := fun j hj => zero _ (inPmem_iff.mpr (by omega))
  have first : m.byte (0x40000 + 4 * i) = 0 := zeroByte 0 (by decide)
  unfold Memory.word
  rw [first, zeroByte 1 (by decide), zeroByte 2 (by decide), zeroByte 3 (by decide)]
  rfl

/-- Power-on reset zeroes `PMEM` (10_state.md R87). -/
theorem Memory.byte_powerOn_pmem (draw : Nat) {a : Nat} (h : Config.inPmem a = true) :
    (Memory.powerOn draw).byte a = 0 := by
  simp [Memory.byte, Memory.read?, Memory.powerOn, lookupKey, unlisted, h]

/-- Power-on reset leaves `BUFMEM` at its free values (10_state.md R88). -/
theorem Memory.byte_powerOn_buf (draw : Nat) {a : Nat} (h : Config.inBuf a = true) :
    (Memory.powerOn draw).byte a = Config.bufPowerOn draw a := by
  simp [Memory.byte, Memory.read?, Memory.powerOn, lookupKey, unlisted, freeByte, h, inPmem_of_inBuf h]

/-! ## The reset state, part by part (R553) -/

theorem State.getS_reset (i : RegIdx) : State.reset.getS i = ⟨0, 0⟩ := Vector.getElem_replicate i.isLt

theorem State.getF_reset (i : RegIdx) : State.reset.getF i = 0 := Vector.getElem_replicate i.isLt

/-- Every array of an STFT channel is zero at reset (10_state.md R89, R90): none lists a word. -/
theorem cellGet_of_mem_stftChan_reset {arr : Cells}
    (h : arr ∈ [StftChan.reset.hist, StftChan.reset.out, StftChan.reset.anaPh, StftChan.reset.anaMag,
      StftChan.reset.anaFrq, StftChan.reset.synPh, StftChan.reset.synMag, StftChan.reset.synFrq, StftChan.reset.env])
    (i : Nat) : cellGet arr i = 0 := by
  have empty : arr = [] := List.eq_of_mem_replicate (n := 9) h
  rw [empty, cellGet_nil]
  rfl

/-- Both channels of the STFT unit are at their reset value. -/
theorem eq_reset_of_mem_stft_channels {ch : StftChan} (h : ch ∈ [State.reset.stft.l, State.reset.stft.r]) :
    ch = StftChan.reset :=
  List.eq_of_mem_replicate (n := 2) h

/-- The Delay and the Comb unit are at their reset value. -/
theorem eq_reset_of_mem_ringUnits {u : RingUnit} (h : u ∈ [State.reset.dly, State.reset.comb]) : u = RingUnit.reset :=
  List.eq_of_mem_replicate (n := 2) h

theorem State.word_pmem_reset {i : Nat} (hi : i < 256) : State.reset.mem.word (0x40000 + 4 * i) = 0 :=
  Memory.word_pmem_of_bytes (fun _ h => Memory.byte_powerOn_pmem 0 h) hi

/-! ## Soft reset (R552) -/

/-- SRST overrides the other bits of the write of CTRL (10_state.md R62). -/
theorem State.writeCtrl_softReset {w : Word} (h : w.getLsbD 1 = true) (s : State) : s.writeCtrl w = some s.softReset := by
  rw [State.writeCtrl, if_pos h]

/-! ## Power-on reset (R551) -/

/-- The step that takes the power-on reset (R551). -/
theorem step_powerOn (s : State) : step (offer s .powerOn) = .next s.powerOnReset := step_offer s .powerOn

theorem State.powerOnReset_irq (s : State) : s.powerOnReset.irq = false := rfl

/-! ## The statements -/

/-- Settles O58: SRST overrides, so the write is the soft reset, whose memory is the old one with `PMEM` cleared. -/
theorem softReset : Obligations.SoftReset := by
  unfold Obligations.SoftReset
  intro s w srst
  refine ⟨s.mem.clearPmem, ?reset, fun x hx => Memory.byte_clearPmem_buf hx, fun i hi => ?pmem⟩
  case reset => exact step_acceptedWrite (loc := .reg .ctrl) rfl (State.writeCtrl_softReset srst (idle s))
  case pmem => exact Memory.word_pmem_of_bytes (fun _ h => Memory.byte_clearPmem_pmem h) hi

/-- Settles O35, by the invariant read field by field at the reset state. -/
theorem resetMeetsInvariant : Obligations.ResetMeetsInvariant := State.reset_inv

/-- Settles O59: the values of R553 one by one, then the step from whatever state. -/
theorem resetValues : Obligations.ResetValues := by
  unfold Obligations.ResetValues
  refine ⟨?values, fun s => ?step⟩
  case values =>
    -- the registers (10_state.md R51 to R55)
    refine ⟨State.getS_reset, State.getF_reset, rfl, rfl, ?_⟩
    -- the block state and FFLAGS (R56, R57)
    refine ⟨rfl, rfl, rfl, rfl, rfl, ?_⟩
    -- the control registers, from ID to HOP_CNT (R60 to R71)
    refine ⟨rfl, rfl, rfl, rfl, rfl, rfl, rfl, rfl, rfl, rfl, rfl, ?_⟩
    -- both copies of the shadowed registers (R72 to R83, R86)
    refine ⟨rfl, rfl, rfl, rfl, rfl, rfl, rfl, rfl, rfl, rfl, rfl, rfl, rfl, cellGet_nil, ?_⟩
    -- the derived registers and `PMEM` (R84, R85, R87)
    refine ⟨rfl, rfl, rfl, fun _ => State.word_pmem_reset, ?_⟩
    -- the units (R89 to R93)
    refine ⟨rfl, rfl, rfl, rfl, fun ch hch arr harr => ?stft, fun u hu => ?rings, rfl, rfl⟩
    case stft =>
      rw [eq_reset_of_mem_stft_channels hch] at harr
      exact cellGet_of_mem_stftChan_reset harr
    case rings =>
      rw [eq_reset_of_mem_ringUnits hu]
      exact ⟨rfl, fun _ => ⟨rfl, rfl⟩⟩
  case step =>
    exact ⟨Memory.powerOn (s.draws + 1), step_powerOn s, s.powerOnReset_irq, Memory.wf_powerOn _,
      fun _ => Memory.word_pmem_of_bytes fun _ h => Memory.byte_powerOn_pmem _ h,
      fun _ h => Memory.byte_powerOn_buf _ h⟩

end Sys2Proof.Machine
end
